-- ==== Sys2Proof/Word.lean ====
section
/-! DEFINITION. The value types every other file uses: request words, bytes, nibbles, pin ids and durations (R9). -/

namespace Sys2Proof

/-- One 32-bit word of a request or of a response (R81, R83, R84). -/
abbrev Word := BitVec 32

/-- A byte is 8 bits (R9). -/
abbrev Byte := BitVec 8

/-- A nibble is 4 bits (R9). -/
abbrev Nibble := BitVec 4

/-- A pin id: opaque to the block, with decidable equality (R5, D25).
DESIGN CHOICE (log 2): natural numbers stand for the platform's ids. -/
abbrev PinId := Nat

/-- A duration is a non-negative rational number of microseconds (R9, D2). -/
@[ext] structure Duration where
  us     : Rat
  nonneg : 0 ≤ us
deriving DecidableEq, Repr

/-- The duration a rational stands for; a negative one stands for no time at all. -/
def Duration.ofRat (q : Rat) : Duration := ⟨max 0 q, le_max_left 0 q⟩

/-- A whole number of microseconds. -/
def Duration.ofUs (n : Nat) : Duration := ⟨(n : Rat), Nat.cast_nonneg n⟩

/-- The truncated subtraction `a -. b` of R9: `max(0, a - b)`. -/
def Duration.minus (a b : Duration) : Duration := Duration.ofRat (a.us - b.us)

/-- `a` is shorter than `b`. -/
abbrev Duration.shorter (a b : Duration) : Prop := a.us < b.us

end Sys2Proof
end

