-- ==== Sys2Proof/Config.lean ====
section
/-! DEFINITION. What is fixed for one block at construction (R5, R6, R7, R8), and the values the spec leaves open. -/

namespace Sys2Proof

/-- A backlight value that can be written: a boolean or an intensity 0 to 255 (R26). The `none` of R26
("nothing written yet") is the Option in State, not a value of this type. -/
inductive Backlight
  | bool (b : Bool)
  | int (n : Byte)
deriving DecidableEq, Repr, Inhabited

/-- What the pin port gives with a failure: passed on unchanged and opaque to the block (R181).
DESIGN CHOICE (log 3): a number stands for it. -/
abbrev PortInfo := Nat

/-- The font size selector of the constructor (R5). -/
inductive CharSize
  | dots5x8
  | dots5x10
deriving DecidableEq, Repr

/-- The pin assignment, immutable after construction (R5, R21). `HAS_RW` and `HAS_BL` are the presence of
`rw` and `bl`; `N_DATA` is the length of `data`, whose entry `i` is `PIN.D[i]`, least significant bit first. -/
structure Pins where
  en   : PinId
  rs   : PinId
  rw   : Option PinId
  data : List PinId
  bl   : Option PinId
deriving DecidableEq, Repr

/-- The number of configured data pins, `N_DATA` (R5). -/
def Pins.nData (p : Pins) : Nat := p.data.length

/-- The configured digital pins, the keys of `LVL` (R28). -/
def Pins.digital (p : Pins) : List PinId := p.rs :: p.en :: (p.rw.toList ++ p.data)

/-- Every configured pin: the pin space (R50). -/
def Pins.all (p : Pins) : List PinId := p.digital ++ p.bl.toList

/-- The premise of R5 and D25: the configured pin ids are pairwise distinct. -/
abbrev Pins.distinct (p : Pins) : Prop := p.all.Nodup

/-- Display geometry (R5, R22). Only the admitted geometries are values of the type: `lastRow` is `ROWS - 1`
with `ROWS` 1 to 4, `lastCol` is `COLS - 1` with `COLS` 1 to 255 (D16, U10; log 4). -/
structure Geometry where
  lastCol  : Fin 255
  lastRow  : Fin 4
  charSize : CharSize
deriving DecidableEq, Repr

/-- `COLS`. -/
def Geometry.cols (g : Geometry) : Nat := g.lastCol.val + 1

/-- `ROWS`. -/
def Geometry.rows (g : Geometry) : Nat := g.lastRow.val + 1

/-- The timing parameters of R6, by the spec's names. -/
structure Timing where
  tPowerup   : Duration
  tInit1     : Duration
  tInit2     : Duration
  tInit3     : Duration
  tExec      : Duration
  tEnHold    : Duration
  tHomeClear : Duration
  tCgAddr    : Duration
  tCgData    : Duration
deriving DecidableEq, Repr

/-- A DDRAM row-offset table: one offset for each of rows 0 to 3 (R7). -/
structure RowOffsets where
  row0 : Byte
  row1 : Byte
  row2 : Byte
  row3 : Byte
deriving DecidableEq, Repr

/-- The protocol constants of R7, by the spec's names. -/
structure Proto where
  cmdClear          : Byte
  cmdHome           : Byte
  cmdEntryModeSet   : Byte
  cmdDisplayControl : Byte
  cmdCursorShift    : Byte
  cmdFunctionSet    : Byte
  cmdSetCgramAddr   : Byte
  cmdSetDdramAddr   : Byte
  nibInit8Bit       : Nibble
  nibInit4Bit       : Nibble
  fEntryLeft        : Byte
  fEntryShiftInc    : Byte
  fDisplayOn        : Byte
  fCursorOn         : Byte
  fBlinkOn          : Byte
  fDisplayMove      : Byte
  fMoveRight        : Byte
  f8BitMode         : Byte
  f2Line            : Byte
  f5x10Dots         : Byte
  rowOffsetsStd     : RowOffsets
  rowOffsets16x4    : RowOffsets
  locMask           : Byte
  locShift          : Nat
  glyphMax          : Nat
deriving DecidableEq, Repr

/-- The configuration latched at reset (R5 to R8, R20 (a), R21, R22): every parameter a model takes as an
argument. `blDefault` is `BL_DEFAULT`. -/
structure Config where
  pins      : Pins
  geom      : Geometry
  timing    : Timing
  proto     : Proto
  blDefault : Backlight
deriving DecidableEq, Repr

/-- FREE VALUE (R8, D4, U3; log 5): what the pin port's `average_transaction_time` answers to its query
number `n`, where no answer is scripted in State. `Duration.ofRat` makes it non-negative. -/
opaque Config.freeTio : Nat → Rat

/-- FREE VALUE (R11, R181; log 6): whether the pin port fails its call number `n`, and with what, where
no outcome is scripted in State. -/
opaque Config.freeOutcome : Nat → Option PortInfo

/-- FREE VALUE (R6, D12; log 7): the open parameter `T_INIT3`. -/
opaque Config.freeTInit3 : Rat

/-- FREE VALUE (R8, D13; log 8): the open parameter `BL_DEFAULT`. -/
opaque Config.freeBlDefault : Backlight

end Sys2Proof
end

