-- ==== Sys2Proof/Syntax.lean ====
section
/-! DEFINITION. The whole request set: one constructor for each of the 30 rows of the opcode table (R80, R85). -/

namespace Sys2Proof

/-- The three framing modes (R13, R72). -/
inductive Mode
  | raw4
  | cmd
  | data
deriving DecidableEq, Repr

/-- A request with its operands (R80, R82, R85). What the spec takes as bits is a bit vector; what it takes as a
natural number is a `Nat`, whose encodable range `Instr.wellFormed` checks. -/
inductive Instr
  | delay (d : Nat)
  | pulse
  | wrBits (value : Byte) (width : Nat) (mode : Mode)
  | sendRaw4 (byte : Byte)
  | sendCmd (byte : Byte)
  | sendData (byte : Byte)
  | clear
  | home
  | setCursor (row col : Nat)
  | scrollL
  | scrollR
  | curMoveL
  | curMoveR
  | displaySet (on : Bool)
  | displayGet
  | cursorSet (on : Bool)
  | cursorGet
  | blinkSet (on : Bool)
  | blinkGet
  | ltrSet (on : Bool)
  | ltrGet
  | rtlSet (on : Bool)
  | rtlGet
  | autoscrollSet (on : Bool)
  | autoscrollGet
  | write (byte : Byte)
  | print (text : List Word)
  | createChar (location : Byte) (glyph : List Word)
  | backlightSet (value : Backlight)
  | backlightGet
deriving DecidableEq, Repr

end Sys2Proof
end

