-- ==== Sys2Proof/WellFormed.lean ====
section
/-! DEFINITION. Which requests a request word can carry: the operand ranges of R82 and R83. -/

namespace Sys2Proof

/-- The operand ranges of the request word (R82, R83). The other operands' types hold exactly the encodable values. -/
def Instr.wellFormed : Instr → Bool
  | .delay d => decide (d < 2 ^ 24)
  | .wrBits _ width _ => decide (width < 2 ^ 8)
  | .setCursor row col => decide (row < 2 ^ 8) && decide (col < 2 ^ 8)
  | .print text => decide (text.length < 2 ^ 24)
  | .createChar _ glyph => decide (glyph.length < 2 ^ 8)
  | .pulse | .sendRaw4 _ | .sendCmd _ | .sendData _ | .clear | .home | .scrollL | .scrollR
  | .curMoveL | .curMoveR | .displaySet _ | .displayGet | .cursorSet _ | .cursorGet
  | .blinkSet _ | .blinkGet | .ltrSet _ | .ltrGet | .rtlSet _ | .rtlGet | .autoscrollSet _
  | .autoscrollGet | .write _ | .backlightSet _ | .backlightGet => true

end Sys2Proof
end

