-- ==== Sys2Proof/Decode.lean ====
section
/-! DEFINITION. Request words to requests (R81 to R83, R86), total on any list of words, and the encoder beside it. -/

namespace Sys2Proof

/-! ### The four byte fields of a header word (R81) -/

def opField (w : Word) : Byte := w.extractLsb' 24 8
def aField (w : Word) : Byte := w.extractLsb' 16 8
def bField (w : Word) : Byte := w.extractLsb' 8 8
def cField (w : Word) : Byte := w.extractLsb' 0 8

/-- Bits 23:0, the operand of formats T and S (R82). -/
def lowField (w : Word) : BitVec 24 := w.extractLsb' 0 24

/-- A header word from its four byte fields (R81). -/
def header (op a b c : Byte) : Word := op ++ (a ++ (b ++ c))

/-- Why a header word is illegal (R86). -/
inductive Illegal
  /-- `op` is not in the table of R80. -/
  | unassignedOpcode
  /-- A reserved field or reserved bit of the format is not zero. -/
  | reservedNotZero
  /-- A W-format word with `mode = 3`. -/
  | reservedMode
  /-- An L-format word with `kind = 0` and `c > 1`. -/
  | badLevel
deriving DecidableEq, Repr

/-- What a header word alone says: a whole request, a request whose payload words are still to be read
(R83), or an illegal word. -/
inductive Header
  | whole (i : Instr)
  | print (n : Nat)
  | createChar (location : Byte) (n : Nat)
  | illegal (why : Illegal)
deriving DecidableEq, Repr

/-! ### The formats of R82 -/

def formatZ (w : Word) (i : Instr) : Header :=
  if aField w = 0 ∧ bField w = 0 ∧ cField w = 0 then .whole i else .illegal .reservedNotZero

def formatB (w : Word) (i : Byte → Instr) : Header :=
  if aField w = 0 ∧ bField w = 0 then .whole (i (cField w)) else .illegal .reservedNotZero

def formatF (w : Word) (i : Bool → Instr) : Header :=
  if aField w = 0 ∧ bField w = 0 ∧ (cField w).extractLsb' 1 7 = 0 then .whole (i ((cField w).getLsbD 0))
  else .illegal .reservedNotZero

def formatT (w : Word) (i : Nat → Instr) : Header := .whole (i (lowField w).toNat)

/-- The framing mode a W-format word names; 3 is reserved. -/
def modeOf (m : BitVec 2) : Option Mode :=
  if m = 0 then some .raw4 else if m = 1 then some .cmd else if m = 2 then some .data else none

def formatW (w : Word) : Header :=
  if (aField w).extractLsb' 2 6 = 0 then
    match modeOf ((aField w).extractLsb' 0 2) with
    | some mode => .whole (.wrBits (cField w) (bField w).toNat mode)
    | none => .illegal .reservedMode
  else .illegal .reservedNotZero

def formatRC (w : Word) : Header :=
  if aField w = 0 then .whole (.setCursor (bField w).toNat (cField w).toNat) else .illegal .reservedNotZero

def formatL (w : Word) : Header :=
  if aField w = 0 ∧ (bField w).extractLsb' 1 7 = 0 then
    if (bField w).getLsbD 0 then .whole (.backlightSet (.int (cField w)))
    else if (cField w).extractLsb' 1 7 = 0 then .whole (.backlightSet (.bool ((cField w).getLsbD 0)))
    else .illegal .badLevel
  else .illegal .reservedNotZero

def formatG (w : Word) : Header :=
  if aField w = 0 then .createChar (cField w) (bField w).toNat else .illegal .reservedNotZero

/-- The header by its opcode: the table of R80. The 226 opcodes it does not list are illegal (R86). -/
def decodeHeader (w : Word) : Header :=
  match opField w with
  | 0x01#8 => formatT w .delay
  | 0x02#8 => formatZ w .pulse
  | 0x03#8 => formatW w
  | 0x04#8 => formatB w .sendRaw4
  | 0x05#8 => formatB w .sendCmd
  | 0x06#8 => formatB w .sendData
  | 0x10#8 => formatZ w .clear
  | 0x11#8 => formatZ w .home
  | 0x12#8 => formatRC w
  | 0x13#8 => formatZ w .scrollL
  | 0x14#8 => formatZ w .scrollR
  | 0x15#8 => formatZ w .curMoveL
  | 0x16#8 => formatZ w .curMoveR
  | 0x20#8 => formatF w .displaySet
  | 0x21#8 => formatZ w .displayGet
  | 0x22#8 => formatF w .cursorSet
  | 0x23#8 => formatZ w .cursorGet
  | 0x24#8 => formatF w .blinkSet
  | 0x25#8 => formatZ w .blinkGet
  | 0x26#8 => formatF w .ltrSet
  | 0x27#8 => formatZ w .ltrGet
  | 0x28#8 => formatF w .rtlSet
  | 0x29#8 => formatZ w .rtlGet
  | 0x2A#8 => formatF w .autoscrollSet
  | 0x2B#8 => formatZ w .autoscrollGet
  | 0x30#8 => formatB w .write
  | 0x31#8 => .print (lowField w).toNat
  | 0x32#8 => formatG w
  | 0x38#8 => formatL w
  | 0x39#8 => formatZ w .backlightGet
  | _ => .illegal .unassignedOpcode

/-- How many payload words follow a header word: a decoder needs only the header to know (R83). -/
def payloadWords (w : Word) : Nat :=
  match decodeHeader w with
  | .print n => n
  | .createChar _ n => n
  | .whole _ => 0
  | .illegal _ => 0

/-- What the block makes of the words the host presents. -/
inductive Decoded
  /-- A legal request, all its words present; `rest` are the words after it. -/
  | accepted (i : Instr) (rest : List Word)
  /-- An illegal header word; `rest` are the words after that one word (R86: no payload word is consumed). -/
  | illegal (why : Illegal) (rest : List Word)
  /-- No header word, or payload words missing: not accepted, since header and payload are accepted as one unit (R83). -/
  | incomplete
deriving DecidableEq, Repr

/-- Decode the presented words (R81 to R83, R86). -/
def decode (ws : List Word) : Decoded :=
  match ws with
  | [] => .incomplete
  | h :: rest =>
    match decodeHeader h with
    | .whole i => .accepted i rest
    | .illegal why => .illegal why rest
    | .print n =>
      if rest.length < n then .incomplete else .accepted (.print (rest.take n)) (rest.drop n)
    | .createChar location n =>
      if rest.length < n then .incomplete else .accepted (.createChar location (rest.take n)) (rest.drop n)

/-! ### The encoder (R80 to R83) -/

def encodeZ (op : Byte) : List Word := [header op 0 0 0]
def encodeB (op byte : Byte) : List Word := [header op 0 0 byte]
def encodeF (op : Byte) (on : Bool) : List Word := [header op 0 0 (BitVec.setWidth 8 (BitVec.ofBool on))]

/-- A 24-bit operand under its opcode (formats T and S). -/
def headerLow (op : Byte) (n : Nat) : Word := op ++ BitVec.ofNat 24 n

/-- Bits 1:0 of field `a` of a W-format word. -/
def modeBits : Mode → Byte
  | .raw4 => 0
  | .cmd => 1
  | .data => 2

/-- The words of a request, header first. -/
def encode : Instr → List Word
  | .delay d => [headerLow 0x01 d]
  | .pulse => encodeZ 0x02
  | .wrBits value width mode => [header 0x03 (modeBits mode) (BitVec.ofNat 8 width) value]
  | .sendRaw4 byte => encodeB 0x04 byte
  | .sendCmd byte => encodeB 0x05 byte
  | .sendData byte => encodeB 0x06 byte
  | .clear => encodeZ 0x10
  | .home => encodeZ 0x11
  | .setCursor row col => [header 0x12 0 (BitVec.ofNat 8 row) (BitVec.ofNat 8 col)]
  | .scrollL => encodeZ 0x13
  | .scrollR => encodeZ 0x14
  | .curMoveL => encodeZ 0x15
  | .curMoveR => encodeZ 0x16
  | .displaySet on => encodeF 0x20 on
  | .displayGet => encodeZ 0x21
  | .cursorSet on => encodeF 0x22 on
  | .cursorGet => encodeZ 0x23
  | .blinkSet on => encodeF 0x24 on
  | .blinkGet => encodeZ 0x25
  | .ltrSet on => encodeF 0x26 on
  | .ltrGet => encodeZ 0x27
  | .rtlSet on => encodeF 0x28 on
  | .rtlGet => encodeZ 0x29
  | .autoscrollSet on => encodeF 0x2A on
  | .autoscrollGet => encodeZ 0x2B
  | .write byte => encodeB 0x30 byte
  | .print text => headerLow 0x31 text.length :: text
  | .createChar location glyph => header 0x32 0 (BitVec.ofNat 8 glyph.length) location :: glyph
  | .backlightSet (.bool b) => [header 0x38 0 0 (BitVec.setWidth 8 (BitVec.ofBool b))]
  | .backlightSet (.int n) => [header 0x38 0 1 n]
  | .backlightGet => encodeZ 0x39

/-! ### The opcode table's own numbering of a request's bits -/

/-- The words of the request whose bits are `w`, numbered as the opcode table numbers them: the header is
bits 31:0, payload word `k` the 32 bits from bit `32 * (k + 1)`; every bit at `nbits` and above is 0. -/
def tableWords (nbits w : Nat) : List Word :=
  let bits := w % 2 ^ nbits
  let h := BitVec.ofNat 32 bits
  h :: (List.range (payloadWords h)).map (fun k => BitVec.ofNat 32 (bits / 2 ^ (32 * (k + 1))))

/-- The request the decoder reads from an opcode-table word, or none where it refuses. -/
def decodeTableWord (nbits w : Nat) : Option Instr :=
  match decode (tableWords nbits w) with
  | .accepted i _ => some i
  | .illegal _ _ => none
  | .incomplete => none

end Sys2Proof
end

