-- ==== Sys2Proof/Machine/Levels.lean ====
section
/-! DEFINITION. Finite maps from pin ids to levels, in one canonical form: what `LVL` is (R28) and what a bulk write carries (R11, R57). -/

namespace Sys2Proof.Machine

/-- A finite map from pins to levels. An unlisted pin has no level: `unwritten` in `LVL` (R28), absent from
the domain of a bulk write. -/
abbrev Levels := List (PinId × Bool)

/-- The canonical form: pins strictly rising, so equal maps are equal lists and the order of a bulk write's
pins carries nothing (U4). -/
abbrev Levels.wf (l : Levels) : Prop := l.Pairwise (fun x y => x.1 < y.1)

/-- The level of one pin, `none` where it has none. -/
def Levels.read : Levels → PinId → Option Bool
  | [], _ => none
  | (q, w) :: rest, p => if p = q then some w else Levels.read rest p

/-- Give pin `p` the level `v`. -/
def Levels.set : Levels → PinId → Bool → Levels
  | [], p, v => [(p, v)]
  | (q, w) :: rest, p, v =>
    if p < q then (p, v) :: (q, w) :: rest
    else if p = q then (p, v) :: rest
    else (q, w) :: Levels.set rest p v

/-- Leave pin `p` without a level. -/
def Levels.erase (l : Levels) (p : PinId) : Levels := l.filter (fun x => x.1 ≠ p)

/-- Give every pin of `m` its level in `m`. -/
def Levels.update (l m : Levels) : Levels := m.foldl (fun acc x => acc.set x.1 x.2) l

/-- Leave every pin of `ps` without a level. -/
def Levels.forget (l : Levels) (ps : List PinId) : Levels := ps.foldl Levels.erase l

end Sys2Proof.Machine
end

