-- ==== Sys2Proof/Machine/Params.lean ====
section
/-! DEFINITION. The document's and the spec's default parameter values (R6, R7), the configuration of `State.reset`, and the value of `DFUNC` (R23). -/

namespace Sys2Proof.Machine

/-- The timing parameters at the document's values, in microseconds; `T_INIT3` is open (R6, D12, R213). -/
def documentTiming : Timing where
  tPowerup   := .ofUs 100000
  tInit1     := .ofUs 4500
  tInit2     := .ofUs 150
  tInit3     := .ofRat Config.freeTInit3
  tExec      := .ofUs 37
  tEnHold    := .ofUs 1
  tHomeClear := .ofUs 2000
  tCgAddr    := .ofUs 30
  tCgData    := .ofUs 40

/-- The protocol constants at the defaults of R7. -/
def defaultProto : Proto where
  cmdClear          := 0x01
  cmdHome           := 0x02
  cmdEntryModeSet   := 0x04
  cmdDisplayControl := 0x08
  cmdCursorShift    := 0x10
  cmdFunctionSet    := 0x20
  cmdSetCgramAddr   := 0x40
  cmdSetDdramAddr   := 0x80
  nibInit8Bit       := 0x3
  nibInit4Bit       := 0x2
  fEntryLeft        := 0x02
  fEntryShiftInc    := 0x01
  fDisplayOn        := 0x04
  fCursorOn         := 0x02
  fBlinkOn          := 0x01
  fDisplayMove      := 0x08
  fMoveRight        := 0x04
  f8BitMode         := 0x10
  f2Line            := 0x08
  f5x10Dots         := 0x04
  rowOffsetsStd     := ⟨0x00, 0x40, 0x14, 0x54⟩
  rowOffsets16x4    := ⟨0x00, 0x40, 0x10, 0x50⟩
  locMask           := 0x07
  locShift          := 3
  glyphMax          := 8

/-- Pins for the configuration of program P1: RS 0, EN 1, D0 to D3 2 to 5, BL 6, no RW.
DESIGN CHOICE (log 9): the spec gives the pins no numbers. -/
def bootPins : Pins where
  rs   := 0
  en   := 1
  rw   := none
  data := [2, 3, 4, 5]
  bl   := some 6

/-- The geometry of program P1: 16 columns, 2 rows, 5x8 font. -/
def bootGeometry : Geometry where
  lastCol  := 15
  lastRow  := 1
  charSize := .dots5x8

/-- The configuration `State.reset` holds: that of the spec's reset program P1, with `T_INIT3` and
`BL_DEFAULT` left open. DESIGN CHOICE (log 9): the constructor options are the platform's. -/
def bootConfig : Config where
  pins      := bootPins
  geom      := bootGeometry
  timing    := documentTiming
  proto     := defaultProto
  blDefault := Config.freeBlDefault

/-- `DFUNC` as computed at construction (R23, R120): the line flag when `ROWS > 1`, the 5x10 flag only for a
single-row display; `F_8BIT_MODE` is never set. -/
def dfuncOf (c : Config) : Byte :=
  (if 1 < c.geom.rows then c.proto.f2Line else 0) |||
  (if c.geom.charSize = .dots5x10 ∧ c.geom.rows = 1 then c.proto.f5x10Dots else 0)

end Sys2Proof.Machine
end

