-- ==== Sys2Proof/Machine/State.lean ====
section
/-! DEFINITION. The state of the block (R20 to R35), the inputs its environment holds ready, the reset state, and why a step can stop. -/

namespace Sys2Proof.Machine

/-- The four pin-port calls that can fail (R11, R191). -/
inductive PinCall
  /-- `PinConfigure(p, is_input)`. -/
  | configure (p : PinId) (isInput : Bool)
  /-- `PinWrite(p, v)`. -/
  | write (p : PinId) (v : Bool)
  /-- `PinWriteBulk(m)`. -/
  | bulk (m : Levels)
  /-- `PinWriteAnalog(p, a)`. -/
  | analog (p : PinId) (a : Backlight)
deriving DecidableEq, Repr

/-- The events of the trace (R12): `CFG`, `W1`, `WB` and `WA` are the successful calls, `TQ`, `SL`, and
`FAIL(e, info)`, whose `e` can only be one of the four calls. -/
inductive Event
  | call (c : PinCall)
  | tq (t : Duration)
  | sl (d : Duration)
  | fail (c : PinCall) (info : PortInfo)
deriving DecidableEq, Repr

/-- The `fault` flag of R29. -/
inductive FaultFlag
  | none
  | invalidConfiguration
  | ioFailure
deriving DecidableEq, Repr

/-- The working latches of R32: `REQ`, `NIB`, `UPC` (`none` is `idle`; log 10 says how positions count) and
`DLY`. No request observes them. -/
structure Latches where
  req : Option Instr
  nib : Option Nibble
  upc : Option Nat
  dly : Duration
deriving DecidableEq, Repr

/-- No request running: `UPC = idle` and nothing held (R31, R32). -/
def Latches.idle : Latches := ⟨none, none, none, .ofUs 0⟩

/-- MODEL'S OWN, not the block's state: the pin port's coming answers (R8, R34 (a), R191). Answers to come
stand in `tioNext` and outcomes of calls to come in `outcomes`, both first one first; where a list is used
up, the free values of Config stand in, at the counters of queries and calls made (log 5, log 6). -/
structure Port where
  tioNext   : List Duration
  tioAsked  : Nat
  outcomes  : List (Option PortInfo)
  callsMade : Nat
deriving DecidableEq, Repr

/-- The state of the block (R20), and below it the model's own inputs: the pin port's answers, the request
words the host presents (R81), and a reset the platform asks for (R200). -/
structure State where
  /-- The configuration (R21, R22). -/
  cfg         : Config
  /-- `DFUNC` (R23). -/
  dfunc       : Byte
  /-- `DCTRL` (R24). -/
  dctrl       : Byte
  /-- `EMODE` (R25). -/
  emode       : Byte
  /-- `BLVL`; `none` is "nothing written yet" (R26). -/
  blvl        : Option Backlight
  /-- `LVL` (R28). -/
  lvl         : Levels
  /-- The flag `initialized` (R29). -/
  initialized : Bool
  /-- The flag `busy` (R29). -/
  busy        : Bool
  /-- The flag `fault` (R29). -/
  fault       : FaultFlag
  /-- The trace, in the order produced (R12). -/
  trace       : List Event
  /-- The working latches (R32). -/
  latches     : Latches
  /-- The response words returned since reset, in order (R84, R12). -/
  responses   : List Word
  /-- Input: the pin port's coming answers. -/
  port        : Port
  /-- Input: the request words the host presents, first one first (R81, R83). -/
  inbox       : List Word
  /-- Input: a reset the platform asks for, with its constructor options (R200). -/
  resetIn     : Option Config
deriving DecidableEq, Repr

/-- A step never stops with a fault: the three exceptions of the spec (R180 to R182) are taken as next states, and
an idle or dead block goes on waiting (D27). The type has no constructor. -/
inductive Fault : Type
deriving DecidableEq, Repr

/-- Why the model gives no meaning. -/
inductive Refusal
  /-- Raised by an arm of `exec` whose instruction has no meaning yet. Safe. No arm raises it. -/
  | notModelled (mnemonic : String)
  /-- Raised by construction when two configured roles are given the same pin id: the spec treats such a
  configuration by `refuse` (U11, D25, R201). Safe: no state follows. -/
  | duplicatePinIds
deriving DecidableEq, Repr

/-- The outcome type of this machine. -/
abbrev Result := Host.Outcome State Fault Refusal

/-! ### Updates of one field -/

def State.setDfunc (v : Byte) (s : State) : State := { s with dfunc := v }
def State.setDctrl (v : Byte) (s : State) : State := { s with dctrl := v }
def State.setEmode (v : Byte) (s : State) : State := { s with emode := v }
def State.setBlvl (v : Option Backlight) (s : State) : State := { s with blvl := v }
def State.setLvl (v : Levels) (s : State) : State := { s with lvl := v }
def State.setInitialized (v : Bool) (s : State) : State := { s with initialized := v }
def State.setBusy (v : Bool) (s : State) : State := { s with busy := v }
def State.setFault (v : FaultFlag) (s : State) : State := { s with fault := v }
def State.emit (es : List Event) (s : State) : State := { s with trace := s.trace ++ es }
def State.setLatches (v : Latches) (s : State) : State := { s with latches := v }
def State.respond (w : Word) (s : State) : State := { s with responses := s.responses ++ [w] }
def State.setPort (v : Port) (s : State) : State := { s with port := v }
def State.setInbox (v : List Word) (s : State) : State := { s with inbox := v }
def State.setResetIn (v : Option Config) (s : State) : State := { s with resetIn := v }

/-! ### Reset -/

/-- The state at the instant the configuration is latched (R35, R200): `DFUNC` computed, `BLVL` `none`, every
pin `unwritten`, `initialized` 0, `busy` 1, `fault` `none`, the trace empty, `UPC` at the first statement of
R121. `DCTRL` and `EMODE` are unspecified there; the model holds 0x00 (DESIGN CHOICE, log 1). Of the other latches the
spec says nothing there; the model holds nothing in `REQ` and in `NIB`, and 0 in `DLY` (DESIGN CHOICE, log 27). -/
def State.atReset (cfg : Config) (port : Port) (inbox : List Word) : State where
  cfg         := cfg
  dfunc       := dfuncOf cfg
  dctrl       := 0x00
  emode       := 0x00
  blvl        := none
  lvl         := []
  initialized := false
  busy        := true
  fault       := .none
  trace       := []
  latches     := { Latches.idle with upc := some 0 }
  responses   := []
  port        := port
  inbox       := inbox
  resetIn     := none

/-- A pin port with nothing scripted: every answer is a free value. -/
def Port.unscripted : Port := ⟨[], 0, [], 0⟩

/-- The machine right after reset (R35), with the configuration of `bootConfig`, no request presented. -/
def State.reset : State := State.atReset bootConfig Port.unscripted []

end Sys2Proof.Machine
end

