-- ==== Sys2Proof/Machine/Flags.lean ====
section
/-! DEFINITION. The mode flags of `DCTRL` and `EMODE` (R139) and what acceptance and completion do to the status flags (R29, R81). -/

namespace Sys2Proof.Machine

/-- `(R | F) if on = 1 else (R & ~F)` (R139). -/
def setFlag (r f : Byte) (on : Bool) : Byte := if on then r ||| f else r &&& ~~~f

/-- `1 if (R & F) != 0 else 0` (R139). -/
def getFlag (r f : Byte) : Bool := (r &&& f) != 0

/-- The flags initialisation forces: `F_DISPLAY_ON | F_CURSOR_ON | F_BLINK_ON` (R121 step 5, D14). -/
def initDctrl (p : Proto) : Byte := p.fDisplayOn ||| p.fCursorOn ||| p.fBlinkOn

/-- The entry mode initialisation sets: `F_ENTRY_LEFT` (R121 step 7). -/
def initEmode (p : Proto) : Byte := p.fEntryLeft

/-- Acceptance of a request: `busy` is set, `REQ` holds it, `UPC` is at its first statement (R29, R32, R81). -/
def acceptRequest (i : Instr) (s : State) : State :=
  (s.setBusy true).setLatches { Latches.idle with req := some i, upc := some 0 }

/-- Completion of a request: its response is returned, `busy` falls, the latches go idle (R29, R31, R81, R84). -/
def completeRequest (answer : Word) (s : State) : State :=
  ((s.respond answer).setBusy false).setLatches Latches.idle

/-- The end of `init()`: `initialized <- 1; busy <- 0`, `UPC` idle (R121, R35). -/
def completeInit (s : State) : State :=
  ((s.setInitialized true).setBusy false).setLatches Latches.idle

end Sys2Proof.Machine
end

