-- ==== Sys2Proof/Machine/Operands.lean ====
section
/-! DEFINITION. Operand assembly (R85): nibbles, the bulk write of a frame, the composed command bytes, the response word. -/

namespace Sys2Proof.Machine

/-! ### Nibbles (R53, R103) -/

/-- `byte[7:4]`. -/
def highNibble (b : Byte) : Nibble := b.extractLsb' 4 4

/-- `byte[3:0]`. -/
def lowNibble (b : Byte) : Nibble := b.extractLsb' 0 4

/-! ### The bulk write of one nibble frame (R70, R102) -/

/-- The level of RS: high for DATA, low for CMD and RAW4 (R72). -/
def rsLevel : Mode → Bool
  | .raw4 => false
  | .cmd => false
  | .data => true

/-- The data pins a frame of `width` bits drives, each with its bit number: `min(width, N_DATA)` of them,
least significant first (R52, R55). -/
def drivenPins (p : Pins) (width : Nat) : List (PinId × Nat) := (p.data.take width).zipIdx

/-- The map `m` of `write_bits`: RS by the mode, RW low where there is one, the driven data pins (R102). -/
def frameMap (p : Pins) (value : Byte) (width : Nat) (mode : Mode) : Levels :=
  let m₀ : Levels := Levels.set [] p.rs (rsLevel mode)
  let m₁ := match p.rw with
    | some rw => m₀.set rw false
    | none => m₀
  (drivenPins p width).foldl (fun m x => m.set x.1 (value.getLsbD x.2)) m₁

/-! ### Composed command bytes (R73) -/

/-- `OFFS[row']` (R59). -/
def rowOffset (t : RowOffsets) (row : Fin 4) : Byte :=
  match row with
  | 0 => t.row0
  | 1 => t.row1
  | 2 => t.row2
  | 3 => t.row3

/-- `row' = min(row, ROWS - 1)` (R132): the row clamp. -/
def clampRow (g : Geometry) (row : Nat) : Fin 4 :=
  if h : row < g.lastRow.val then ⟨row, Nat.lt_trans h g.lastRow.isLt⟩ else g.lastRow

/-- The row-offset table: the 16x4 one exactly when `COLS = 16` and `ROWS = 4` (R59, R132). -/
def rowTable (c : Config) : RowOffsets :=
  if c.geom.cols = 16 ∧ c.geom.rows = 4 then c.proto.rowOffsets16x4 else c.proto.rowOffsetsStd

/-- `addr = col + OFFS[row']`; neither `col` nor the sum is checked (R59, R132). -/
def ddramAddr (c : Config) (row col : Nat) : Nat := col + (rowOffset (rowTable c) (clampRow c.geom row)).toNat

/-- `trunc_8(CMD_SET_DDRAM_ADDR | addr)` (R132). -/
def ddramCommand (c : Config) (row col : Nat) : Byte :=
  BitVec.ofNat 8 (c.proto.cmdSetDdramAddr.toNat ||| ddramAddr c row col)

/-- `CMD_SET_CGRAM_ADDR | ((location & LOC_MASK) << LOC_SHIFT)` (R60, R162). -/
def cgramCommand (c : Config) (location : Byte) : Byte :=
  c.proto.cmdSetCgramAddr ||| ((location &&& c.proto.locMask) <<< c.proto.locShift)

/-- `trunc_8` of a code point or a glyph element (R85, R161, R162, D18). -/
def lowByte (w : Word) : Byte := w.setWidth 8

/-! ### The response word (R84, R183) -/

/-- Status codes of R183 that a response can carry. -/
def statusOk : Byte := 0x00
def statusIoFailure : Byte := 0x02
def statusInvalidRequest : Byte := 0x03

/-- `status` in 31:24, `kind` in 9:8, `value` in 7:0, zero elsewhere (R84). -/
def response (status : Byte) (kind : BitVec 2) (value : Byte) : Word :=
  status ++ ((0 : BitVec 14) ++ (kind ++ value))

/-- The response of a request that returns nothing. -/
def responseOk : Word := response statusOk 0 0

/-- The response of a flag getter: 0 or 1. -/
def responseFlag (b : Bool) : Word := response statusOk 0 (BitVec.setWidth 8 (BitVec.ofBool b))

/-- The response of `BACKLIGHT.GET` (R171): kind 0 `none`, 1 boolean, 2 intensity. -/
def responseBacklight : Option Backlight → Word
  | none => response statusOk 0 0
  | some (.bool b) => response statusOk 1 (BitVec.setWidth 8 (BitVec.ofBool b))
  | some (.int n) => response statusOk 2 n

end Sys2Proof.Machine
end

