-- ==== Sys2Proof/Machine/Ops.lean ====
section
/-! DEFINITION. The pin-port primitives (R11), taking an exception (R180 to R188), running a statement list, and the four procedures of R100 to R103. -/

namespace Sys2Proof.Machine

/-! ### The pin port's answers -/

/-- The answer to the next `Tio()` (R8, D4). -/
def Port.tio (p : Port) : Duration :=
  match p.tioNext with
  | t :: _ => t
  | [] => .ofRat (Config.freeTio p.tioAsked)

/-- The port after one `Tio()`. -/
def Port.afterTio (p : Port) : Port := { p with tioNext := p.tioNext.tail, tioAsked := p.tioAsked + 1 }

/-- The outcome of the next call that can fail: `none`, or a failure with its `info` (R11, R181). -/
def Port.outcome (p : Port) : Option PortInfo :=
  match p.outcomes with
  | o :: _ => o
  | [] => Config.freeOutcome p.callsMade

/-- The port after one call. -/
def Port.afterCall (p : Port) : Port := { p with outcomes := p.outcomes.tail, callsMade := p.callsMade + 1 }

/-! ### Pin-port calls (R11) -/

/-- The levels a successful call writes into `LVL` (R11, R28). -/
def PinCall.levels : PinCall → Levels
  | .configure _ _ => []
  | .write p v => [(p, v)]
  | .bulk m => m
  | .analog _ _ => []

/-- The pins a call names (R181). -/
def PinCall.pins : PinCall → List PinId
  | .configure p _ => [p]
  | .write p _ => [p]
  | .bulk m => m.map (·.1)
  | .analog p _ => [p]

/-- What a successful call leaves: its one event, and its levels in `LVL` (R11). -/
def commitCall (c : PinCall) (s : State) : State :=
  (s.emit [.call c]).setLvl (s.lvl.update c.levels)

/-! ### Exceptions (R180 to R188) -/

/-- The three exceptions. -/
inductive Exception
  | invalidConfiguration
  | ioFailure (c : PinCall) (info : PortInfo)
  | invalidRequest
deriving DecidableEq, Repr

/-- The first and third effects of R181: the failing call is in the trace, marked failed; every `LVL` entry
it names is `unwritten`; `fault` holds `IoFailure`. -/
def recordFailure (c : PinCall) (info : PortInfo) (s : State) : State :=
  ((s.emit [.fail c info]).setLvl (s.lvl.forget c.pins)).setFault .ioFailure

/-- The fourth effect of R181: the running request, if one is held in `REQ`, is answered with status 0x02. -/
def answerFailure (s : State) : State :=
  if s.latches.req.isSome then s.respond (response statusIoFailure 0 0) else s

/-- The fifth effect of R181: `busy` falls if `initialized = 1`; during construction the block stays as it is. -/
def releaseAfterFailure (s : State) : State :=
  if s.initialized then (s.setBusy false).setLatches Latches.idle else s

/-- Taking an exception (R187): nothing is saved and control goes nowhere; this is its whole effect. There is no
return from one (R188). -/
def takeException (e : Exception) (s : State) : State :=
  match e with
  | .invalidConfiguration => s.setFault .invalidConfiguration
  | .ioFailure c info => releaseAfterFailure (answerFailure (recordFailure c info s))
  | .invalidRequest => s.respond (response statusInvalidRequest 0 0)

/-! ### Statements and their run (R13, R31) -/

/-- One statement of a rule's pseudocode, down to the primitives of R11. -/
inductive Stmt
  /-- A pin-port call that can fail. -/
  | call (c : PinCall)
  /-- `delay(d)`, the timing enforcer (R100). -/
  | delay (d : Duration)
  /-- Present a nibble: `NIB` holds it (R32). -/
  | present (n : Nibble)
  /-- `DCTRL <- v`. -/
  | setDctrl (v : Byte)
  /-- `EMODE <- v`. -/
  | setEmode (v : Byte)
  /-- `BLVL <- v`. -/
  | setBlvl (v : Backlight)
deriving DecidableEq, Repr

/-- How a run of statements ends: all done, or an exception taken, after which nothing runs (R13). -/
inductive Run
  | done (s : State)
  | raised (s : State)
deriving DecidableEq, Repr

/-- One pin-port call: the port decides whether it fails; a failing one raises `IoFailure` (R11, R181). -/
def doCall (c : PinCall) (s : State) : Run :=
  match s.port.outcome with
  | none => .done (commitCall c (s.setPort s.port.afterCall))
  | some info => .raised (takeException (.ioFailure c info) (s.setPort s.port.afterCall))

/-- `t <- Tio()`: one query, one `TQ` event, and `DLY` holds `d -. t` (R100). -/
def askTio (d : Duration) (s : State) : State :=
  ((s.emit [.tq s.port.tio]).setPort s.port.afterTio).setLatches { s.latches with dly := d.minus s.port.tio }

/-- `if t < d then Sleep(d - t)`: sleep for what `DLY` holds, if it is more than nothing (R100). -/
def sleepRest (s : State) : State :=
  (if Duration.shorter (.ofUs 0) s.latches.dly then s.emit [.sl s.latches.dly] else s).setLatches
    { s.latches with dly := .ofUs 0 }

/-- `delay(d)` (R100): never fails, cannot be cut short. -/
def doDelay (d : Duration) (s : State) : State := sleepRest (askTio d s)

/-- The effect of one statement. -/
def Stmt.run : Stmt → State → Run
  | .call c, s => doCall c s
  | .delay d, s => .done (doDelay d s)
  | .present n, s => .done (s.setLatches { s.latches with nib := some n })
  | .setDctrl v, s => .done (s.setDctrl v)
  | .setEmode v, s => .done (s.setEmode v)
  | .setBlvl v, s => .done (s.setBlvl (some v))

/-- `UPC` after a statement: one on. The `PinConfigure` calls of R120 come before the first statement of R121
and are not counted (R35; log 10). -/
def Stmt.advance : Stmt → Option Nat → Option Nat
  | .call (.configure _ _), u => u
  | .call (.write _ _), u => u.map (· + 1)
  | .call (.bulk _), u => u.map (· + 1)
  | .call (.analog _ _), u => u.map (· + 1)
  | .delay _, u => u.map (· + 1)
  | .present _, u => u.map (· + 1)
  | .setDctrl _, u => u.map (· + 1)
  | .setEmode _, u => u.map (· + 1)
  | .setBlvl _, u => u.map (· + 1)

/-- Move `UPC` past a statement that is done. -/
def nextStmt (st : Stmt) (s : State) : State :=
  s.setLatches { s.latches with upc := st.advance s.latches.upc }

/-- Statements run in the order written, each to completion before the next; an exception ends the run (R13, R62). -/
def runStmts : List Stmt → State → Run
  | [], s => .done s
  | st :: rest, s =>
    match st.run s with
    | .done s' => runStmts rest (nextStmt st s')
    | .raised s' => .raised s'

/-- How a request ends: complete with its answer, or as its exception left it. -/
def Run.endRequest (answer : Word) : Run → State
  | .done s => completeRequest answer s
  | .raised s => s

/-- Run a request: accept it, run its statements to the end, answer (R63, R81). -/
def perform (i : Instr) (body : List Stmt) (answer : Word) (s : State) : Result :=
  .next ((runStmts body (acceptRequest i s)).endRequest answer)

/-! ### The procedures of R101 to R103 -/

/-- `pulse_enable()` (R101). -/
def pulseEnable (c : Config) : List Stmt :=
  [.call (.write c.pins.en true), .delay c.timing.tEnHold, .call (.write c.pins.en false)]

/-- `write_bits(value, width, mode)`: one bulk write, one pulse (R102). `NIB` holds the low four bits of `value`
(log 10). -/
def writeBits (c : Config) (value : Byte) (width : Nat) (mode : Mode) : List Stmt :=
  .present (lowNibble value) :: .call (.bulk (frameMap c.pins value width mode)) :: pulseEnable c

/-- `send(byte, mode)` (R103). -/
def send (c : Config) (byte : Byte) (mode : Mode) : List Stmt :=
  match mode with
  | .raw4 =>
    writeBits c ((lowNibble byte).setWidth 8) 4 .raw4 ++ [.delay c.timing.tExec]
  | .cmd =>
    writeBits c ((highNibble byte).setWidth 8) 4 .cmd ++ writeBits c ((lowNibble byte).setWidth 8) 4 .cmd
      ++ [.delay c.timing.tExec]
  | .data =>
    writeBits c ((highNibble byte).setWidth 8) 4 .data ++ writeBits c ((lowNibble byte).setWidth 8) 4 .data
      ++ [.delay c.timing.tExec]

end Sys2Proof.Machine
end

