-- ==== Sys2Proof/Machine/Backlight.lean ====
section
/-! DEFINITION. The backlight (R170, R171). -/

namespace Sys2Proof.Machine

/-- The statements of a backlight set, also initialisation step 8 (R170, R121): nothing without a backlight pin. -/
def backlightBody (c : Config) (value : Backlight) : List Stmt :=
  match c.pins.bl with
  | some bl => [.call (.analog bl value), .setBlvl value]
  | none => []

/-- `BACKLIGHT.SET value` (R170). -/
def execBacklightSet (value : Backlight) (s : State) : Result :=
  perform (.backlightSet value) (backlightBody s.cfg value) responseOk s

/-- `BACKLIGHT.GET` (R171). -/
def execBacklightGet (s : State) : Result :=
  perform .backlightGet [] (responseBacklight s.blvl) s

end Sys2Proof.Machine
end

