-- ==== Sys2Proof/Machine/Display.lean ====
section
/-! DEFINITION. The display commands that keep no state (R130 to R136). -/

namespace Sys2Proof.Machine

/-- The statements of `CLEAR`, also initialisation step 6 (R130, R121). -/
def clearBody (c : Config) : List Stmt :=
  send c c.proto.cmdClear .cmd ++ [.delay c.timing.tHomeClear]

/-- `CLEAR` (R130). -/
def execClear (s : State) : Result :=
  perform .clear (clearBody s.cfg) responseOk s

/-- `HOME` (R131). -/
def execHome (s : State) : Result :=
  perform .home (send s.cfg s.cfg.proto.cmdHome .cmd ++ [.delay s.cfg.timing.tHomeClear]) responseOk s

/-- `SETCURSOR row, col` (R132). -/
def execSetCursor (row col : Nat) (s : State) : Result :=
  perform (.setCursor row col) (send s.cfg (ddramCommand s.cfg row col) .cmd) responseOk s

/-- `SCROLL.L` (R133). -/
def execScrollL (s : State) : Result :=
  perform .scrollL (send s.cfg (s.cfg.proto.cmdCursorShift ||| s.cfg.proto.fDisplayMove) .cmd) responseOk s

/-- `SCROLL.R` (R134). -/
def execScrollR (s : State) : Result :=
  perform .scrollR
    (send s.cfg (s.cfg.proto.cmdCursorShift ||| s.cfg.proto.fDisplayMove ||| s.cfg.proto.fMoveRight) .cmd)
    responseOk s

/-- `CURMOVE.L` (R135). -/
def execCurMoveL (s : State) : Result :=
  perform .curMoveL (send s.cfg s.cfg.proto.cmdCursorShift .cmd) responseOk s

/-- `CURMOVE.R` (R136). -/
def execCurMoveR (s : State) : Result :=
  perform .curMoveR (send s.cfg (s.cfg.proto.cmdCursorShift ||| s.cfg.proto.fMoveRight) .cmd) responseOk s

end Sys2Proof.Machine
end

