-- ==== Sys2Proof/Machine/Init.lean ====
section
/-! DEFINITION. Construction and the initialisation sequence (R120 to R122, R200). -/

namespace Sys2Proof.Machine

/-- The `PinConfigure` calls of R120, every pin an output: RS, RW, EN, D0 up, BL (D10). -/
def configureBody (p : Pins) : List Stmt :=
  (p.rs :: (p.rw.toList ++ p.en :: (p.data ++ p.bl.toList))).map (fun pin => .call (.configure pin false))

/-- Steps 1 to 3 of R121: the power-up wait and the four handshake nibbles. -/
def handshakeBody (c : Config) : List Stmt :=
  [.delay c.timing.tPowerup]
    ++ (send c (c.proto.nibInit8Bit.setWidth 8) .raw4 ++ [.delay c.timing.tInit1])
    ++ (send c (c.proto.nibInit8Bit.setWidth 8) .raw4 ++ [.delay c.timing.tInit2])
    ++ (send c (c.proto.nibInit8Bit.setWidth 8) .raw4 ++ [.delay c.timing.tInit3])
    ++ send c (c.proto.nibInit4Bit.setWidth 8) .raw4

/-- Steps 4 to 8 of R121; `dfunc` is the value of `DFUNC`. -/
def setupBody (c : Config) (dfunc : Byte) : List Stmt :=
  send c (c.proto.cmdFunctionSet ||| dfunc) .cmd
    ++ (send c (c.proto.cmdDisplayControl ||| initDctrl c.proto) .cmd ++ [.setDctrl (initDctrl c.proto)])
    ++ clearBody c
    ++ (send c (c.proto.cmdEntryModeSet ||| initEmode c.proto) .cmd ++ [.setEmode (initEmode c.proto)])
    ++ backlightBody c c.blDefault

/-- `init()` (R121). -/
def initBody (c : Config) (dfunc : Byte) : List Stmt := handshakeBody c ++ setupBody c dfunc

/-- How construction ends: initialised, or dead as its exception left it (R121, R181). -/
def Run.endInit : Run → State
  | .done s => completeInit s
  | .raised s => s

/-- `construct()` from the pin set-up on, after `DFUNC` is written (R120). -/
def constructPins (s : State) : State :=
  (runStmts (configureBody s.cfg.pins ++ initBody s.cfg s.dfunc) s).endInit

/-- `construct()` (R120, R184): the pin count is checked first. A configuration that gives two roles one pin id
is refused: the spec's treatment of it (U11, D25). -/
def construct (s : State) : Result :=
  if s.cfg.pins.nData ≠ 4 ∧ s.cfg.pins.nData ≠ 8 then .next (takeException .invalidConfiguration s)
  else if s.cfg.pins.distinct then .next (constructPins (s.setDfunc (dfuncOf s.cfg)))
  else .refused .duplicatePinIds

end Sys2Proof.Machine
end

