-- ==== Sys2Proof/Machine/Accept.lean ====
section
/-! DEFINITION. Which phase of its life the block is in: the gate on accepting a request (R81, R186, R29). -/

namespace Sys2Proof.Machine

/-- What the block can do next. -/
inductive Phase
  /-- Initialised and not busy: a request is accepted (R81). -/
  | idle
  /-- Between reset release and the end of initialisation, nothing raised (R29, R200). -/
  | constructing
  /-- Construction or initialisation raised, or the block is busy: nothing is accepted (R180, R181, D27). -/
  | dead
deriving DecidableEq, Repr

/-- The phase, from the three status flags of R29. -/
def phaseOf (s : State) : Phase :=
  if s.initialized = true ∧ s.busy = false then .idle
  else if s.initialized = false ∧ s.busy = true ∧ s.fault = .none then .constructing
  else .dead

end Sys2Proof.Machine
end

