-- ==== Sys2Proof/Machine/Data.lean ====
section
/-! DEFINITION. Character data and custom glyphs (R160 to R162). -/

namespace Sys2Proof.Machine

/-- `WRITE byte` (R160). -/
def execWrite (byte : Byte) (s : State) : Result :=
  perform (.write byte) (send s.cfg byte .data) responseOk s

/-- The loop of `PRINT` (R161): one `send` in DATA mode for each code point, its low 8 bits. -/
def printBody (c : Config) (text : List Word) : List Stmt :=
  text.flatMap (fun cp => send c (lowByte cp) .data)

/-- `PRINT text` (R161). -/
def execPrint (text : List Word) (s : State) : Result :=
  perform (.print text) (printBody s.cfg text) responseOk s

/-- `CREATECHAR` (R162): the address command and its wait, then the first `min(n, GLYPH_MAX)` rows, each with its wait. -/
def createCharBody (c : Config) (location : Byte) (glyph : List Word) : List Stmt :=
  send c (cgramCommand c location) .cmd ++ [.delay c.timing.tCgAddr] ++
    (glyph.take c.proto.glyphMax).flatMap (fun g => send c (lowByte g) .data ++ [.delay c.timing.tCgData])

/-- `CREATECHAR location, glyph` (R162). -/
def execCreateChar (location : Byte) (glyph : List Word) (s : State) : Result :=
  perform (.createChar location glyph) (createCharBody s.cfg location glyph) responseOk s

end Sys2Proof.Machine
end

