-- ==== Sys2Proof/Machine/Mode.lean ====
section
/-! DEFINITION. The twelve mode-register requests (R139 to R151). -/

namespace Sys2Proof.Machine

/-- The statements of `set_flag` on `DCTRL` (R139): the command goes out even when nothing changes, and the register
is written after `send` returns (D20). -/
def setDctrlBody (s : State) (f : Byte) (on : Bool) : List Stmt :=
  send s.cfg (s.cfg.proto.cmdDisplayControl ||| setFlag s.dctrl f on) .cmd ++ [.setDctrl (setFlag s.dctrl f on)]

/-- The statements of `set_flag` on `EMODE` (R139). -/
def setEmodeBody (s : State) (f : Byte) (on : Bool) : List Stmt :=
  send s.cfg (s.cfg.proto.cmdEntryModeSet ||| setFlag s.emode f on) .cmd ++ [.setEmode (setFlag s.emode f on)]

/-- `DISPLAY.SET on` (R140). -/
def execDisplaySet (on : Bool) (s : State) : Result :=
  perform (.displaySet on) (setDctrlBody s s.cfg.proto.fDisplayOn on) responseOk s

/-- `DISPLAY.GET` (R141). -/
def execDisplayGet (s : State) : Result :=
  perform .displayGet [] (responseFlag (getFlag s.dctrl s.cfg.proto.fDisplayOn)) s

/-- `CURSOR.SET on` (R142). -/
def execCursorSet (on : Bool) (s : State) : Result :=
  perform (.cursorSet on) (setDctrlBody s s.cfg.proto.fCursorOn on) responseOk s

/-- `CURSOR.GET` (R143). -/
def execCursorGet (s : State) : Result :=
  perform .cursorGet [] (responseFlag (getFlag s.dctrl s.cfg.proto.fCursorOn)) s

/-- `BLINK.SET on` (R144). -/
def execBlinkSet (on : Bool) (s : State) : Result :=
  perform (.blinkSet on) (setDctrlBody s s.cfg.proto.fBlinkOn on) responseOk s

/-- `BLINK.GET` (R145). -/
def execBlinkGet (s : State) : Result :=
  perform .blinkGet [] (responseFlag (getFlag s.dctrl s.cfg.proto.fBlinkOn)) s

/-- `LTR.SET on` (R146). -/
def execLtrSet (on : Bool) (s : State) : Result :=
  perform (.ltrSet on) (setEmodeBody s s.cfg.proto.fEntryLeft on) responseOk s

/-- `LTR.GET` (R147). -/
def execLtrGet (s : State) : Result :=
  perform .ltrGet [] (responseFlag (getFlag s.emode s.cfg.proto.fEntryLeft)) s

/-- `RTL.SET on`: `set_flag` of the left-to-right flag with `1 - on` (R148). -/
def execRtlSet (on : Bool) (s : State) : Result :=
  perform (.rtlSet on) (setEmodeBody s s.cfg.proto.fEntryLeft (!on)) responseOk s

/-- `RTL.GET`: the negation of `LTR.GET` (R149). -/
def execRtlGet (s : State) : Result :=
  perform .rtlGet [] (responseFlag (!getFlag s.emode s.cfg.proto.fEntryLeft)) s

/-- `AUTOSCROLL.SET on` (R150). -/
def execAutoscrollSet (on : Bool) (s : State) : Result :=
  perform (.autoscrollSet on) (setEmodeBody s s.cfg.proto.fEntryShiftInc on) responseOk s

/-- `AUTOSCROLL.GET` (R151). -/
def execAutoscrollGet (s : State) : Result :=
  perform .autoscrollGet [] (responseFlag (getFlag s.emode s.cfg.proto.fEntryShiftInc)) s

end Sys2Proof.Machine
end

