-- ==== Sys2Proof/Machine/Primitives.lean ====
section
/-! DEFINITION. The six primitive requests (R104 to R109). -/

namespace Sys2Proof.Machine

/-- `DELAY d` (R104). -/
def execDelay (d : Nat) (s : State) : Result :=
  perform (.delay d) [.delay (.ofUs d)] responseOk s

/-- `PULSE` (R105). -/
def execPulse (s : State) : Result :=
  perform .pulse (pulseEnable s.cfg) responseOk s

/-- `WRBITS value, width, mode` (R106): no `delay(T_EXEC)` of its own. -/
def execWrBits (value : Byte) (width : Nat) (mode : Mode) (s : State) : Result :=
  perform (.wrBits value width mode) (writeBits s.cfg value width mode) responseOk s

/-- `SEND.RAW4 byte` (R107). -/
def execSendRaw4 (byte : Byte) (s : State) : Result :=
  perform (.sendRaw4 byte) (send s.cfg byte .raw4) responseOk s

/-- `SEND.CMD byte` (R108): no register is written whatever the byte. -/
def execSendCmd (byte : Byte) (s : State) : Result :=
  perform (.sendCmd byte) (send s.cfg byte .cmd) responseOk s

/-- `SEND.DATA byte` (R109). -/
def execSendData (byte : Byte) (s : State) : Result :=
  perform (.sendData byte) (send s.cfg byte .data) responseOk s

end Sys2Proof.Machine
end

