-- ==== Sys2Proof/Machine/Dispatch.lean ====
section
/-! DEFINITION. One arm per request, each one call of its meaning. -/

namespace Sys2Proof.Machine

def exec (i : Instr) (s : State) : Host.Outcome State Fault Refusal :=
  match i with
  | .delay d => Sys2Proof.Machine.execDelay d s
  | .pulse => Sys2Proof.Machine.execPulse s
  | .wrBits value width mode => Sys2Proof.Machine.execWrBits value width mode s
  | .sendRaw4 byte => Sys2Proof.Machine.execSendRaw4 byte s
  | .sendCmd byte => Sys2Proof.Machine.execSendCmd byte s
  | .sendData byte => Sys2Proof.Machine.execSendData byte s
  | .clear => Sys2Proof.Machine.execClear s
  | .home => Sys2Proof.Machine.execHome s
  | .setCursor row col => Sys2Proof.Machine.execSetCursor row col s
  | .scrollL => Sys2Proof.Machine.execScrollL s
  | .scrollR => Sys2Proof.Machine.execScrollR s
  | .curMoveL => Sys2Proof.Machine.execCurMoveL s
  | .curMoveR => Sys2Proof.Machine.execCurMoveR s
  | .displaySet on => Sys2Proof.Machine.execDisplaySet on s
  | .displayGet => Sys2Proof.Machine.execDisplayGet s
  | .cursorSet on => Sys2Proof.Machine.execCursorSet on s
  | .cursorGet => Sys2Proof.Machine.execCursorGet s
  | .blinkSet on => Sys2Proof.Machine.execBlinkSet on s
  | .blinkGet => Sys2Proof.Machine.execBlinkGet s
  | .ltrSet on => Sys2Proof.Machine.execLtrSet on s
  | .ltrGet => Sys2Proof.Machine.execLtrGet s
  | .rtlSet on => Sys2Proof.Machine.execRtlSet on s
  | .rtlGet => Sys2Proof.Machine.execRtlGet s
  | .autoscrollSet on => Sys2Proof.Machine.execAutoscrollSet on s
  | .autoscrollGet => Sys2Proof.Machine.execAutoscrollGet s
  | .write byte => Sys2Proof.Machine.execWrite byte s
  | .print text => Sys2Proof.Machine.execPrint text s
  | .createChar location glyph => Sys2Proof.Machine.execCreateChar location glyph s
  | .backlightSet value => Sys2Proof.Machine.execBacklightSet value s
  | .backlightGet => Sys2Proof.Machine.execBacklightGet s

end Sys2Proof.Machine
end

