-- ==== Sys2Proof/Machine/Step.lean ====
section
/-! DEFINITION. One step of the block: a reset, construction, one request, or waiting (R81, R86, R200). -/

namespace Sys2Proof.Machine

/-- One step. A reset the platform asks for comes first (R200). An idle block takes the next presented request: a
legal one runs to its end (R63, R81), an illegal header word is refused (R86, R182), and with no whole request
presented the block waits (R83). A block under construction runs its power-on sequence (R120, R121). A block
whose construction failed accepts nothing until the next reset (R180, R181, D27). -/
def step (s : State) : Host.Outcome State Fault Refusal :=
  match s.resetIn with
  | some cfg => .next (State.atReset cfg s.port s.inbox)
  | none =>
    match phaseOf s with
    | .idle =>
      match decode s.inbox with
      | .accepted i rest => exec i (s.setInbox rest)
      | .illegal _ rest => .next (takeException .invalidRequest (s.setInbox rest))
      | .incomplete => .next s
    | .constructing => construct s
    | .dead => .next s

/-- `s` with the request whose bits are `w` as the next one the host presents, to a block that is idle after its
initialisation: what `step` needs to run it at once. See log 11 for how a program comes to run from reset. -/
def State.withFetchWord (s : State) (nbits w : Nat) : State :=
  { s with
    initialized := true
    busy := false
    latches := Latches.idle
    inbox := tableWords nbits w ++ s.inbox
    resetIn := none }

end Sys2Proof.Machine
end

