-- ==== Sys2Proof/Safety.lean ====
section
/-! DEFINITION. The words claims are made in: answers to come, event sequences and their counts, what a trace says of the pins and of the bytes sent, and the invariants. No meaning uses this file. -/

namespace Sys2Proof

/-- The requests after which the mirror cannot be read off the bytes sent: a lone nibble breaks the pairing of nibbles
into bytes (R54, R205), and `SEND.CMD` of a display-control byte (0x08 to 0x0F, R73) or an entry-mode-set byte (0x04 to
0x07) sends flags that no register follows (R27, R108). -/
def Instr.canBreakMirror : Instr → Bool
  | .pulse | .wrBits _ _ _ | .sendRaw4 _ => true
  | .sendCmd byte => byte &&& 0xF8 == 0x08 || byte &&& 0xFC == 0x04
  | _ => false

end Sys2Proof

namespace Sys2Proof.Machine

/-! ### The pin port's answers to come -/

/-- The answer to the `k`-th `Tio()` from here on. -/
def Port.tioAt (p : Port) (k : Nat) : Duration :=
  match p.tioNext[k]? with
  | some t => t
  | none => .ofRat (Config.freeTio (p.tioAsked + k))

/-- The outcome of the `k`-th call from here on. -/
def Port.outcomeAt (p : Port) (k : Nat) : Option PortInfo :=
  match p.outcomes[k]? with
  | some o => o
  | none => Config.freeOutcome (p.callsMade + k)

/-- The port after `asks` queries and `calls` calls. -/
def Port.after (p : Port) (asks calls : Nat) : Port where
  tioNext   := p.tioNext.drop asks
  tioAsked  := p.tioAsked + asks
  outcomes  := p.outcomes.drop calls
  callsMade := p.callsMade + calls

/-- The next `n` calls succeed. -/
abbrev Port.callsOk (p : Port) (n : Nat) : Prop := ∀ k < n, p.outcomeAt k = none

/-! ### Event sequences, written from the rules

`t k` is the answer to the `k`-th query of the sequence. -/

/-- `delay(d)` (R100): `TQ(t)`, then `SL(d - t)` exactly when `t < d`. -/
def delayEvents (d t : Duration) : List Event :=
  .tq t :: if t.shorter d then [.sl (d.minus t)] else []

/-- `pulse_enable()` (R101). -/
def pulseEvents (c : Config) (t : Duration) : List Event :=
  .call (.write c.pins.en true) :: (delayEvents c.timing.tEnHold t ++ [.call (.write c.pins.en false)])

/-- One nibble frame (R70, R102). -/
def frameEvents (c : Config) (value : Byte) (width : Nat) (mode : Mode) (t : Duration) : List Event :=
  .call (.bulk (frameMap c.pins value width mode)) :: pulseEvents c t

/-- `send(byte, mode)` (R71, R103): the low nibble alone in RAW4, else the high nibble then the low one;
one execution wait at the end. -/
def sendEvents (c : Config) (byte : Byte) (mode : Mode) (t : Nat → Duration) : List Event :=
  if mode = .raw4 then
    frameEvents c (byte &&& 0x0F) 4 mode (t 0) ++ delayEvents c.timing.tExec (t 1)
  else
    frameEvents c (byte >>> 4) 4 mode (t 0) ++ frameEvents c (byte &&& 0x0F) 4 mode (t 1)
      ++ delayEvents c.timing.tExec (t 2)

/-- A `send` in CMD mode and a further wait (R130, R131, R162). -/
def sendWaitEvents (c : Config) (byte : Byte) (mode : Mode) (d : Duration) (t : Nat → Duration) : List Event :=
  sendEvents c byte mode t ++ delayEvents d (t 3)

/-- The data bytes of a text, in order (R161). -/
def printEvents (c : Config) : List Word → (Nat → Duration) → List Event
  | [], _ => []
  | cp :: rest, t => sendEvents c (cp.setWidth 8) .data t ++ printEvents c rest (fun k => t (k + 3))

/-- The rows of a glyph, each with its wait (R162). -/
def glyphEvents (c : Config) : List Word → (Nat → Duration) → List Event
  | [], _ => []
  | g :: rest, t =>
    sendWaitEvents c (g.setWidth 8) .data c.timing.tCgData t ++ glyphEvents c rest (fun k => t (k + 4))

/-- `CREATECHAR` (R162): the address command and its wait, then the first `GLYPH_MAX` rows. -/
def createCharEvents (c : Config) (location : Byte) (glyph : List Word) (t : Nat → Duration) : List Event :=
  sendWaitEvents c (c.proto.cmdSetCgramAddr ||| ((location &&& c.proto.locMask) <<< c.proto.locShift)) .cmd
      c.timing.tCgAddr t
    ++ glyphEvents c (glyph.take c.proto.glyphMax) (fun k => t (k + 4))

/-- A backlight write, nothing without a backlight pin (R170). -/
def backlightEvents (c : Config) (value : Backlight) : List Event :=
  match c.pins.bl with
  | some bl => [.call (.analog bl value)]
  | none => []

/-- The events of a request none of whose calls fails, from the rules of files 40 to 45. -/
def requestEvents (i : Instr) (s : State) (t : Nat → Duration) : List Event :=
  let c := s.cfg
  let p := s.cfg.proto
  match i with
  | .delay d => delayEvents (.ofUs d) (t 0)
  | .pulse => pulseEvents c (t 0)
  | .wrBits value width mode => frameEvents c value width mode (t 0)
  | .sendRaw4 byte => sendEvents c byte .raw4 t
  | .sendCmd byte => sendEvents c byte .cmd t
  | .sendData byte => sendEvents c byte .data t
  | .clear => sendWaitEvents c p.cmdClear .cmd c.timing.tHomeClear t
  | .home => sendWaitEvents c p.cmdHome .cmd c.timing.tHomeClear t
  | .setCursor row col => sendEvents c (ddramCommand c row col) .cmd t
  | .scrollL => sendEvents c (p.cmdCursorShift ||| p.fDisplayMove) .cmd t
  | .scrollR => sendEvents c (p.cmdCursorShift ||| p.fDisplayMove ||| p.fMoveRight) .cmd t
  | .curMoveL => sendEvents c p.cmdCursorShift .cmd t
  | .curMoveR => sendEvents c (p.cmdCursorShift ||| p.fMoveRight) .cmd t
  | .displaySet on => sendEvents c (p.cmdDisplayControl ||| setFlag s.dctrl p.fDisplayOn on) .cmd t
  | .cursorSet on => sendEvents c (p.cmdDisplayControl ||| setFlag s.dctrl p.fCursorOn on) .cmd t
  | .blinkSet on => sendEvents c (p.cmdDisplayControl ||| setFlag s.dctrl p.fBlinkOn on) .cmd t
  | .ltrSet on => sendEvents c (p.cmdEntryModeSet ||| setFlag s.emode p.fEntryLeft on) .cmd t
  | .rtlSet on => sendEvents c (p.cmdEntryModeSet ||| setFlag s.emode p.fEntryLeft (!on)) .cmd t
  | .autoscrollSet on => sendEvents c (p.cmdEntryModeSet ||| setFlag s.emode p.fEntryShiftInc on) .cmd t
  | .displayGet | .cursorGet | .blinkGet | .ltrGet | .rtlGet | .autoscrollGet | .backlightGet => []
  | .write byte => sendEvents c byte .data t
  | .print text => printEvents c text t
  | .createChar location glyph => createCharEvents c location glyph t
  | .backlightSet value => backlightEvents c value

/-- The pin set-up of R120: RS, RW, EN, D0 up, BL, each once and as an output. -/
def configureEvents (p : Pins) : List Event :=
  (p.rs :: (p.rw.toList ++ p.en :: (p.data ++ p.bl.toList))).map (fun pin => .call (.configure pin false))

/-- The initialisation sequence of R121, its steps in order, for the value `dfunc` of `DFUNC`. -/
def initEvents (c : Config) (dfunc : Byte) (t : Nat → Duration) : List Event :=
  let p := c.proto
  let nib8 : Byte := p.nibInit8Bit.setWidth 8
  let nib4 : Byte := p.nibInit4Bit.setWidth 8
  delayEvents c.timing.tPowerup (t 0)
    ++ (sendEvents c nib8 .raw4 (fun k => t (k + 1)) ++ delayEvents c.timing.tInit1 (t 3))
    ++ (sendEvents c nib8 .raw4 (fun k => t (k + 4)) ++ delayEvents c.timing.tInit2 (t 6))
    ++ (sendEvents c nib8 .raw4 (fun k => t (k + 7)) ++ delayEvents c.timing.tInit3 (t 9))
    ++ sendEvents c nib4 .raw4 (fun k => t (k + 10))
    ++ sendEvents c (p.cmdFunctionSet ||| dfunc) .cmd (fun k => t (k + 12))
    ++ sendEvents c (p.cmdDisplayControl ||| (p.fDisplayOn ||| p.fCursorOn ||| p.fBlinkOn)) .cmd (fun k => t (k + 15))
    ++ sendWaitEvents c p.cmdClear .cmd c.timing.tHomeClear (fun k => t (k + 18))
    ++ sendEvents c (p.cmdEntryModeSet ||| p.fEntryLeft) .cmd (fun k => t (k + 22))
    ++ backlightEvents c c.blDefault

/-- What is left of a sequence when its `k`-th call fails: the events before it and the failed call (R181, R187). -/
def cutAtCall (k : Nat) (info : PortInfo) : List Event → List Event
  | [] => []
  | .call c :: rest =>
    match k with
    | 0 => [.fail c info]
    | k + 1 => .call c :: cutAtCall k info rest
  | .tq t :: rest => .tq t :: cutAtCall k info rest
  | .sl d :: rest => .sl d :: cutAtCall k info rest
  | .fail c i :: rest => .fail c i :: cutAtCall k info rest

/-! ### Counting events (R110, R123) -/

def Event.isCall : Event → Bool
  | .call _ => true
  | _ => false

def Event.isCfg : Event → Bool
  | .call (.configure _ _) => true
  | _ => false

def Event.isW1 : Event → Bool
  | .call (.write _ _) => true
  | _ => false

def Event.isWb : Event → Bool
  | .call (.bulk _) => true
  | _ => false

def Event.isWa : Event → Bool
  | .call (.analog _ _) => true
  | _ => false

def Event.isTq : Event → Bool
  | .tq _ => true
  | _ => false

def Event.isSl : Event → Bool
  | .sl _ => true
  | _ => false

def Event.isFail : Event → Bool
  | .fail _ _ => true
  | _ => false

/-- The rise of the enable pin: one for each pulse (R101). -/
def Event.isRise (en : PinId) : Event → Bool
  | .call (.write p v) => decide (p = en) && v
  | _ => false

/-- The time slept by the `SL` events of a sequence, in microseconds (R213). -/
def sleptUs (es : List Event) : Rat :=
  (es.map (fun e => match e with
    | .sl d => d.us
    | _ => 0)).sum

/-- The pin-port calls of a sequence, failed ones included: all that happens at the pins. -/
def pinCalls (es : List Event) : List PinCall :=
  es.filterMap (fun e => match e with
    | .call c => some c
    | .fail c _ => some c
    | _ => none)

/-! ### What a trace says of the pins (R28) -/

/-- The level of pin `p` after an event: the level last written to it, none after a failed call that named it. -/
def levelStep (p : PinId) (before : Option Bool) : Event → Option Bool
  | .call (.write q v) => if q = p then some v else before
  | .call (.bulk m) => match m.read p with
    | some v => some v
    | none => before
  | .call (.configure _ _) => before
  | .call (.analog _ _) => before
  | .fail c _ => if p ∈ c.pins then none else before
  | .tq _ => before
  | .sl _ => before

/-- The level last written to pin `p` in a trace, none where it is unwritten (R28). -/
def lastLevel (p : PinId) (es : List Event) : Option Bool := es.foldl (levelStep p) none

/-- `LVL` after a sequence of events, from `LVL` before it. -/
def Levels.replay (l : Levels) (es : List Event) : Levels :=
  es.foldl (fun l e => match e with
    | .call c => l.update c.levels
    | .fail c _ => l.forget c.pins
    | .tq _ => l
    | .sl _ => l) l

/-- At no bulk write of the trace was `EN` high (R57, R212). -/
def enLowAtBulk (en : PinId) (es : List Event) : Prop :=
  ∀ before m after, es = before ++ .call (.bulk m) :: after → lastLevel en before ≠ some true

/-! ### What a trace says of the bytes sent (R27, R53, R70) -/

/-- The nibble a bulk write puts on `D[3]` to `D[0]`. -/
def nibbleOn (p : Pins) (m : Levels) : Nibble :=
  let bit (i : Nat) : Bool := match p.data[i]? with
    | some pin => decide (m.read pin = some true)
    | none => false
  BitVec.ofBool (bit 3) ++ (BitVec.ofBool (bit 2) ++ (BitVec.ofBool (bit 1) ++ BitVec.ofBool (bit 0)))

/-- The nibble frames of a trace, each with its RS level. -/
def frames (p : Pins) (es : List Event) : List (Bool × Nibble) :=
  es.filterMap (fun e => match e with
    | .call (.bulk m) => some (decide (m.read p.rs = some true), nibbleOn p m)
    | _ => none)

/-- Frames taken in pairs, high nibble first (R53, R54). -/
def pairBytes : List (Bool × Nibble) → List (Bool × Byte)
  | (rs, high) :: (_, low) :: rest => (rs, high ++ low) :: pairBytes rest
  | _ => []

/-- The command bytes (RS low) of a trace, in order. -/
def commandsSent (p : Pins) (es : List Event) : List Byte :=
  (pairBytes (frames p es)).filterMap (fun x => if x.1 then none else some x.2)

/-- The last display-control command of a list of commands: 0x08 to 0x0F (R73). -/
def lastDisplayControl (bs : List Byte) : Option Byte := (bs.filter (fun b => b &&& 0xF8 == 0x08)).getLast?

/-- The last entry-mode-set command of a list of commands: 0x04 to 0x07 (R73). -/
def lastEntryMode (bs : List Byte) : Option Byte := (bs.filter (fun b => b &&& 0xFC == 0x04)).getLast?

/-! ### States -/

/-- A request that ended well: its events are in the trace and in `LVL`, its queries and calls are used up, its
answer is returned, the block is idle; everything else is as before. -/
def State.answered (s : State) (es : List Event) (answer : Word) : State :=
  { s with
    trace := s.trace ++ es
    lvl := s.lvl.replay es
    port := s.port.after (es.countP Event.isTq) (es.countP Event.isCall)
    busy := false
    latches := Latches.idle
    responses := s.responses ++ [answer] }

/-- How request `i`, which makes `n` pin-port calls, ends in state `s` when one of them fails (R181, R187): the trace
gains the events before the first failing call and that call, marked failed; no register is written; `fault` holds
`IoFailure`; the response is 0x02 in its status; `busy` is down if the block is initialised; the pins the call named
are unwritten and every other pin has the level last written to it. -/
def StopsAtFailingCall (i : Instr) (s : State) (n : Nat) : Prop :=
  ∀ k info, k < n → s.port.callsOk k → s.port.outcomeAt k = some info →
    ∃ t, exec i s = .next t ∧
      t.trace = s.trace ++ cutAtCall k info (requestEvents i s s.port.tioAt) ∧
      t.lvl = s.lvl.replay (cutAtCall k info (requestEvents i s s.port.tioAt)) ∧
      (t.dfunc = s.dfunc ∧ t.dctrl = s.dctrl ∧ t.emode = s.emode ∧ t.blvl = s.blvl) ∧
      t.fault = .ioFailure ∧
      t.responses = s.responses ++ [0x02000000] ∧
      t.initialized = s.initialized ∧
      (s.initialized = true → t.busy = false ∧ t.latches = Latches.idle) ∧
      t.port = s.port.after ((cutAtCall k info (requestEvents i s s.port.tioAt)).countP Event.isTq) (k + 1) ∧
      t.cfg = s.cfg ∧ t.inbox = s.inbox ∧ t.resetIn = s.resetIn

/-! ### Invariants -/

/-- `LVL` is in canonical form and holds, for every pin, the level last written to it in the trace (R28). -/
def State.LevelsInv (s : State) : Prop :=
  s.lvl.wf ∧ ∀ p, s.lvl.read p = lastLevel p s.trace

/-- The status flags, the latches and the configuration agree (R29, R31, R120, R180, D23): an idle block is
initialised and its latches idle; a busy one is not initialised; an initialised one has 4 or 8 distinct pins;
`DFUNC` is what construction computes; without a backlight pin `BLVL` is `none`; nothing has happened before
construction, nor where the configuration was invalid. -/
structure State.StatusInv (s : State) : Prop where
  idleLatches  : s.busy = false → s.latches = Latches.idle
  notBoth      : s.initialized = !s.busy
  pinCount     : s.initialized = true → s.cfg.pins.nData = 4 ∨ s.cfg.pins.nData = 8
  pinsDistinct : s.initialized = true → s.cfg.pins.distinct
  dfuncFixed   : s.dfunc = dfuncOf s.cfg
  noBacklight  : s.cfg.pins.bl = none → s.blvl = none
  fresh        : s.initialized = false → s.fault = .none → s.trace = []
  untouched    : s.fault = .invalidConfiguration → s.trace = [] ∧ s.busy = true

/-- `EN` was last written low in an initialised block that has not failed; a block at rest never left it written high;
and it was high at no bulk write of the trace (R57, R101, R212). -/
structure State.EnableInv (s : State) : Prop where
  pinsDistinct : s.initialized = true → s.cfg.pins.distinct
  idleLow      : s.initialized = true → s.fault = .none → lastLevel s.cfg.pins.en s.trace = some false
  neverHigh    : lastLevel s.cfg.pins.en s.trace ≠ some true
  lowAtBulk    : enLowAtBulk s.cfg.pins.en s.trace

/-- The zero fields of `DFUNC`, `DCTRL` and `EMODE` read 0 (R23, R24, R25). -/
structure State.ZeroFields (s : State) : Prop where
  dfunc : s.dfunc &&& 0xF3 = 0
  dctrl : s.dctrl &&& 0xF8 = 0
  emode : s.emode &&& 0xFC = 0

/-- The mirror invariant (R27), for the default protocol constants, with what it needs: while nothing has failed,
an initialised block has sent whole bytes only, the last display-control command it sent carries `DCTRL` and the last
entry-mode command `EMODE`. -/
structure State.MirrorInv (s : State) : Prop where
  constants  : s.cfg.proto = defaultProto
  zero       : s.ZeroFields
  pins       : s.initialized = true → s.cfg.pins.distinct ∧ 4 ≤ s.cfg.pins.nData
  fresh      : s.initialized = false → s.fault = .none → s.trace = [] ∧ s.dfunc = dfuncOf s.cfg
  paired     : s.initialized = true → s.fault = .none → (frames s.cfg.pins s.trace).length % 2 = 0
  display    : s.initialized = true → s.fault = .none →
    lastDisplayControl (commandsSent s.cfg.pins s.trace) = some (0x08 ||| s.dctrl)
  entry      : s.initialized = true → s.fault = .none →
    lastEntryMode (commandsSent s.cfg.pins s.trace) = some (0x04 ||| s.emode)

end Sys2Proof.Machine
end

