-- ==== Sys2Proof/Certificates/Slice0/Obligations.lean ====
section
/-! DEFINITION. The statements for the provers, from the numbered rules of the spec. -/

open Sys2Proof Sys2Proof.Machine

/-! ### Decoding, fetching, running -/

/-- Words written out from the spec's own vectors V28 and P1 to P4 decode to the requests they stand for, and
two of V27 to none. -/
def Obligations.VectorWordsDecode : Prop :=
  decodeTableWord 32 0x01001194 = some (.delay 4500) ∧
  decodeTableWord 32 0x0302040A = some (.wrBits 0x0A 4 .data) ∧
  decodeTableWord 32 0x060000A5 = some (.sendData 0xA5) ∧
  decodeTableWord 32 0x12000105 = some (.setCursor 1 5) ∧
  decodeTableWord 32 0x22000001 = some (.cursorSet true) ∧
  decode [0x31000002, 0x48, 0x49] = .accepted (.print [0x48, 0x49]) [] ∧
  decode [0x32000209, 0x0E, 0x1F] = .accepted (.createChar 9 [0x0E, 0x1F]) [] ∧
  decodeTableWord 32 0x380001FF = some (.backlightSet (.int 255)) ∧
  decodeTableWord 32 0x03030400 = none ∧
  decodeTableWord 32 0x38000002 = none

/-- Decode and encode agree: the words of a well-formed request, whatever follows them, decode to it, every operand
at its value. -/
def Obligations.DecodeOfEncodeIsTheRequest : Prop :=
  ∀ (i : Instr) (rest : List Word), i.wellFormed = true → decode (encode i ++ rest) = .accepted i rest

/-- Each word has one meaning: what is accepted is well-formed, and the words taken are its encoding. -/
def Obligations.AcceptedWordsAreTheEncoding : Prop :=
  ∀ (ws rest : List Word) (i : Instr), decode ws = .accepted i rest →
    i.wellFormed = true ∧ ws = encode i ++ rest

/-- Exactly the header words of R86 are illegal: an opcode outside the table of R80, or a reserved field or bit of the
format not zero, or mode 3 in format W, or `kind = 0` and `c > 1` in format L. -/
def Obligations.IllegalHeadersAreExactlyThese : Prop :=
  ∀ h : Word,
    let op := (h.extractLsb' 24 8).toNat
    let a := (h.extractLsb' 16 8).toNat
    let b := (h.extractLsb' 8 8).toNat
    let c := (h.extractLsb' 0 8).toNat
    let z := [0x02, 0x10, 0x11, 0x13, 0x14, 0x15, 0x16, 0x21, 0x23, 0x25, 0x27, 0x29, 0x2B, 0x39]
    let f := [0x20, 0x22, 0x24, 0x26, 0x28, 0x2A]
    (∃ why, decodeHeader h = .illegal why) ↔
      (op ∉ z ++ f ++ [0x04, 0x05, 0x06, 0x30] ++ [0x01, 0x31] ++ [0x03, 0x12, 0x32, 0x38]) ∨
      (op ∈ z ∧ (a ≠ 0 ∨ b ≠ 0 ∨ c ≠ 0)) ∨
      (op ∈ [0x04, 0x05, 0x06, 0x30] ∧ (a ≠ 0 ∨ b ≠ 0)) ∨
      (op ∈ f ∧ (a ≠ 0 ∨ b ≠ 0 ∨ 1 < c)) ∨
      (op = 0x03 ∧ 2 < a) ∨
      (op ∈ [0x12, 0x32] ∧ a ≠ 0) ∨
      (op = 0x38 ∧ (a ≠ 0 ∨ 1 < b ∨ (b = 0 ∧ 1 < c)))

/-- A step runs the decoded request: an idle block whose presented words are those of a well-formed request is, after
the step, what `exec` of that request leaves of it with those words taken. -/
def Obligations.StepRunsTheDecodedRequest : Prop :=
  ∀ (i : Instr) (rest : List Word) (s : State),
    i.wellFormed = true → s.resetIn = none → s.initialized = true → s.busy = false → s.inbox = encode i ++ rest →
    step s = exec i { s with inbox := rest }

/-- A request is accepted as one unit, header and payload: while payload words are missing, or no word is presented,
the idle block changes nothing. -/
def Obligations.MissingPayloadIsAwaited : Prop :=
  ∀ (s : State), s.resetIn = none → s.initialized = true → s.busy = false →
    (s.inbox = [] → step s = .next s) ∧
    (∀ h words, s.inbox = h :: words → (∀ why, decodeHeader h ≠ .illegal why) →
      words.length < payloadWords h → step s = .next s)

/-- `InvalidRequest`: an illegal header word changes nothing but that it is taken, alone, and answered 0x03. -/
def Obligations.IllegalWordIsRefusedWithoutEffect : Prop :=
  ∀ (s : State) (h : Word) (rest : List Word) (why : Illegal),
    s.resetIn = none → s.initialized = true → s.busy = false → s.inbox = h :: rest →
    decodeHeader h = .illegal why →
    step s = .next { s with inbox := rest, responses := s.responses ++ [0x03000000] }

/-- The fields of the response word (R84). -/
def Obligations.ResponseWordFields : Prop :=
  ∀ (status : Byte) (kind : BitVec 2) (value : Byte),
    (response status kind value).extractLsb' 24 8 = status ∧
    (response status kind value).extractLsb' 10 14 = 0 ∧
    (response status kind value).extractLsb' 8 2 = kind ∧
    (response status kind value).extractLsb' 0 8 = value

/-! ### The serializer primitives -/

/-- The timing enforcer (R100): one query; a sleep of exactly `d - t`, when `t < d`, and else none; at least `d -. t`
is slept; no register, level or flag is written. -/
def Obligations.TimingEnforcer : Prop :=
  ∀ (d : Duration) (s : State),
    let t := s.port.tioAt 0
    (t.us < d.us → (doDelay d s).trace = s.trace ++ [.tq t, .sl (d.minus t)] ∧ (d.minus t).us = d.us - t.us) ∧
    (d.us ≤ t.us → (doDelay d s).trace = s.trace ++ [.tq t]) ∧
    sleptUs (delayEvents d t) = max 0 (d.us - t.us) ∧
    ∃ l, doDelay d s = { s with trace := (doDelay d s).trace, port := s.port.after 1 0, latches := l }

/-- `DELAY d` (R104). -/
def Obligations.DelayRule : Prop :=
  (∀ d rest, d < 2 ^ 24 → decode ((0x01#8 ++ BitVec.ofNat 24 d) :: rest) = .accepted (.delay d) rest) ∧
  (∀ d (s : State), exec (.delay d) s =
    .next (s.answered (delayEvents (.ofUs d) (s.port.tioAt 0)) 0x00000000))

/-- `PULSE` (R105): `EN` alone, raised, held, lowered; `LVL[PIN.EN]` is 0 at the end. -/
def Obligations.PulseRule : Prop :=
  (∀ rest, decode (0x02000000 :: rest) = .accepted .pulse rest) ∧
  (∀ s : State, s.port.callsOk 2 →
    ∃ t, exec .pulse s = .next t ∧
      t = s.answered ([.call (.write s.cfg.pins.en true)]
        ++ delayEvents s.cfg.timing.tEnHold (s.port.tioAt 0) ++ [.call (.write s.cfg.pins.en false)]) 0x00000000 ∧
      t.lvl.read s.cfg.pins.en = some false ∧
      ∀ p, p ≠ s.cfg.pins.en → t.lvl.read p = s.lvl.read p) ∧
  (∀ s : State, StopsAtFailingCall .pulse s 2)

/-- The bulk write of one frame (R70, R52, R55): RS by the mode, RW low where there is one, the first
`min(width, N_DATA)` data pins at the bits of `value` from bit 0 up, and no other pin; with distinct pins. -/
def Obligations.BulkWriteCarriesTheFrame : Prop :=
  ∀ (p : Pins) (value : Byte) (width : Nat) (mode : Mode), p.distinct →
    let m := frameMap p value width mode
    m.wf ∧
    m.read p.rs = some (mode == .data) ∧
    (∀ rw, p.rw = some rw → m.read rw = some false) ∧
    (∀ i pin, p.data[i]? = some pin → m.read pin = if i < width then some (value.getLsbD i) else none) ∧
    (∀ q, q ≠ p.rs → some q ≠ p.rw → q ∉ p.data → m.read q = none)

/-- `WRBITS value, width, mode` (R106): one bulk write, one pulse, no execution wait. -/
def Obligations.WrBitsRule : Prop :=
  (∀ value width mode rest, width < 2 ^ 8 →
    decode (header 0x03 (match mode with | .raw4 => 0 | .cmd => 1 | .data => 2) (BitVec.ofNat 8 width) value :: rest)
      = .accepted (.wrBits value width mode) rest) ∧
  (∀ value width mode (s : State), s.port.callsOk 3 →
    exec (.wrBits value width mode) s = .next (s.answered
      ([.call (.bulk (frameMap s.cfg.pins value width mode)), .call (.write s.cfg.pins.en true)]
        ++ delayEvents s.cfg.timing.tEnHold (s.port.tioAt 0) ++ [.call (.write s.cfg.pins.en false)]) 0x00000000)) ∧
  (∀ value width mode (s : State), StopsAtFailingCall (.wrBits value width mode) s 3)

/-- `SEND.RAW4` (R107): the low nibble alone, RS low. `SEND.CMD` (R108) and `SEND.DATA` (R109): the high nibble, then
the low one, each with its pulse; RS low for CMD and high for DATA. One execution wait at the end. No register. -/
def Obligations.SendRules : Prop :=
  (∀ byte rest, decode (header 0x04 0 0 byte :: rest) = .accepted (.sendRaw4 byte) rest) ∧
  (∀ byte rest, decode (header 0x05 0 0 byte :: rest) = .accepted (.sendCmd byte) rest) ∧
  (∀ byte rest, decode (header 0x06 0 0 byte :: rest) = .accepted (.sendData byte) rest) ∧
  (∀ byte (s : State), s.port.callsOk 3 →
    exec (.sendRaw4 byte) s = .next (s.answered
      (frameEvents s.cfg (byte &&& 0x0F) 4 .raw4 (s.port.tioAt 0) ++ delayEvents s.cfg.timing.tExec (s.port.tioAt 1))
      0x00000000)) ∧
  (∀ byte (s : State), s.port.callsOk 6 →
    exec (.sendCmd byte) s = .next (s.answered
      (frameEvents s.cfg (byte >>> 4) 4 .cmd (s.port.tioAt 0) ++ frameEvents s.cfg (byte &&& 0x0F) 4 .cmd (s.port.tioAt 1)
        ++ delayEvents s.cfg.timing.tExec (s.port.tioAt 2)) 0x00000000)) ∧
  (∀ byte (s : State), s.port.callsOk 6 →
    exec (.sendData byte) s = .next (s.answered
      (frameEvents s.cfg (byte >>> 4) 4 .data (s.port.tioAt 0) ++ frameEvents s.cfg (byte &&& 0x0F) 4 .data (s.port.tioAt 1)
        ++ delayEvents s.cfg.timing.tExec (s.port.tioAt 2)) 0x00000000)) ∧
  (∀ byte (s : State), StopsAtFailingCall (.sendRaw4 byte) s 3 ∧ StopsAtFailingCall (.sendCmd byte) s 6 ∧
    StopsAtFailingCall (.sendData byte) s 6)

/-- Event counts, which the spec marks as its own inference ("[derived: from rules R100 to R103]" in R110), of what the
five primitive requests that pulse add to the trace when no call fails: so many `WB`, `W1` and `TQ`, one `SL` for each
answer below its floor, and no other event. -/
def Obligations.EventCounts : Prop :=
  ∀ s : State,
    let adds (i : Instr) (wb w1 tq sl : Nat) : Prop := ∃ t es, exec i s = .next t ∧ t.trace = s.trace ++ es ∧
      es.countP Event.isWb = wb ∧ es.countP Event.isW1 = w1 ∧ es.countP Event.isTq = tq ∧ es.countP Event.isSl = sl ∧
      es.length = wb + w1 + tq + sl
    let below (d : Duration) (k : Nat) : Nat := if (s.port.tioAt k).us < d.us then 1 else 0
    let hold := below s.cfg.timing.tEnHold
    let wait := below s.cfg.timing.tExec
    (s.port.callsOk 2 → adds .pulse 0 2 1 (hold 0)) ∧
    (∀ value width mode, s.port.callsOk 3 → adds (.wrBits value width mode) 1 2 1 (hold 0)) ∧
    (∀ byte, s.port.callsOk 3 → adds (.sendRaw4 byte) 1 2 2 (hold 0 + wait 1)) ∧
    (∀ byte, s.port.callsOk 6 → adds (.sendCmd byte) 2 4 3 (hold 0 + hold 1 + wait 2) ∧
      adds (.sendData byte) 2 4 3 (hold 0 + hold 1 + wait 2))

/-! ### Display commands -/

/-- `CLEAR` (R130) and `HOME` (R131): the command byte, its execution wait, then the long wait with a query of its own. -/
def Obligations.ClearAndHomeRules : Prop :=
  (∀ rest, decode (0x10000000 :: rest) = .accepted .clear rest) ∧
  (∀ rest, decode (0x11000000 :: rest) = .accepted .home rest) ∧
  (∀ s : State, s.port.callsOk 6 → exec .clear s = .next (s.answered
    (sendEvents s.cfg s.cfg.proto.cmdClear .cmd s.port.tioAt ++ delayEvents s.cfg.timing.tHomeClear (s.port.tioAt 3))
    0x00000000)) ∧
  (∀ s : State, s.port.callsOk 6 → exec .home s = .next (s.answered
    (sendEvents s.cfg s.cfg.proto.cmdHome .cmd s.port.tioAt ++ delayEvents s.cfg.timing.tHomeClear (s.port.tioAt 3))
    0x00000000)) ∧
  (∀ s : State, StopsAtFailingCall .clear s 6 ∧ StopsAtFailingCall .home s 6) ∧
  (defaultProto.cmdClear = 0x01 ∧ defaultProto.cmdHome = 0x02)

/-- The DDRAM address command (R59): `trunc_8(CMD_SET_DDRAM_ADDR | (col + OFFS[min(row, ROWS - 1)]))`, with the 16x4
table exactly for 16 columns and 4 rows; a row out of range is the last row. -/
def Obligations.CursorAddress : Prop :=
  ∀ (c : Config) (row col : Nat),
    let table := if c.geom.cols = 16 ∧ c.geom.rows = 4 then c.proto.rowOffsets16x4 else c.proto.rowOffsetsStd
    (∃ off, [table.row0, table.row1, table.row2, table.row3][min row (c.geom.rows - 1)]? = some off ∧
      (ddramCommand c row col).toNat = (c.proto.cmdSetDdramAddr.toNat ||| (col + off.toNat)) % 2 ^ 8) ∧
    (c.geom.rows ≤ row → ddramCommand c row col = ddramCommand c (c.geom.rows - 1) col)

/-- `SETCURSOR row, col` (R132): one command, the address of `CursorAddress`; a row out of range behaves identically
to the last row. -/
def Obligations.SetCursorRule : Prop :=
  (∀ row col rest, row < 2 ^ 8 → col < 2 ^ 8 →
    decode (header 0x12 0 (BitVec.ofNat 8 row) (BitVec.ofNat 8 col) :: rest) = .accepted (.setCursor row col) rest) ∧
  (∀ row col (s : State), s.port.callsOk 6 →
    exec (.setCursor row col) s = .next (s.answered (sendEvents s.cfg (ddramCommand s.cfg row col) .cmd s.port.tioAt)
      0x00000000)) ∧
  (∀ row col (s : State), s.initialized = true → s.cfg.geom.rows ≤ row →
    exec (.setCursor row col) s = exec (.setCursor (s.cfg.geom.rows - 1) col) s) ∧
  (∀ row col (s : State), StopsAtFailingCall (.setCursor row col) s 6)

/-- The four shifts (R133 to R136): the cursor-shift command with its DISPLAY-MOVE and direction bits; with the default
constants 0x18, 0x1C, 0x10 and 0x14. -/
def Obligations.ShiftRules : Prop :=
  (∀ rest, decode (0x13000000 :: rest) = .accepted .scrollL rest ∧ decode (0x14000000 :: rest) = .accepted .scrollR rest ∧
    decode (0x15000000 :: rest) = .accepted .curMoveL rest ∧ decode (0x16000000 :: rest) = .accepted .curMoveR rest) ∧
  (∀ s : State, s.port.callsOk 6 →
    let p := s.cfg.proto
    let sent (byte : Byte) : Result := .next (s.answered (sendEvents s.cfg byte .cmd s.port.tioAt) 0x00000000)
    exec .scrollL s = sent (p.cmdCursorShift ||| p.fDisplayMove) ∧
    exec .scrollR s = sent (p.cmdCursorShift ||| p.fDisplayMove ||| p.fMoveRight) ∧
    exec .curMoveL s = sent p.cmdCursorShift ∧
    exec .curMoveR s = sent (p.cmdCursorShift ||| p.fMoveRight) ∧
    (p = defaultProto → exec .scrollL s = sent 0x18 ∧ exec .scrollR s = sent 0x1C ∧ exec .curMoveL s = sent 0x10 ∧
      exec .curMoveR s = sent 0x14)) ∧
  (∀ s : State, StopsAtFailingCall .scrollL s 6 ∧ StopsAtFailingCall .scrollR s 6 ∧ StopsAtFailingCall .curMoveL s 6 ∧
    StopsAtFailingCall .curMoveR s 6)

/-! ### Mode registers -/

/-- `DISPLAY.SET`, `CURSOR.SET`, `BLINK.SET` (R140, R142, R144, by R139): the flag is or-ed in or cleared, the other
flags go out unchanged in the same byte, the display-control command is sent whatever the old value, then `DCTRL` is
written; after a failure it keeps its old value. -/
def Obligations.DisplayControlSetters : Prop :=
  (∀ on rest,
    let c : Byte := if on then 1 else 0
    decode (header 0x20 0 0 c :: rest) = .accepted (.displaySet on) rest ∧
    decode (header 0x22 0 0 c :: rest) = .accepted (.cursorSet on) rest ∧
    decode (header 0x24 0 0 c :: rest) = .accepted (.blinkSet on) rest) ∧
  (∀ on (s : State), s.port.callsOk 6 →
    let p := s.cfg.proto
    let v (f : Byte) : Byte := if on then s.dctrl ||| f else s.dctrl &&& ~~~f
    let done (f : Byte) : Result := .next
      { s.answered (sendEvents s.cfg (p.cmdDisplayControl ||| v f) .cmd s.port.tioAt) 0x00000000 with dctrl := v f }
    exec (.displaySet on) s = done p.fDisplayOn ∧ exec (.cursorSet on) s = done p.fCursorOn ∧
    exec (.blinkSet on) s = done p.fBlinkOn) ∧
  (∀ on (s : State), StopsAtFailingCall (.displaySet on) s 6 ∧ StopsAtFailingCall (.cursorSet on) s 6 ∧
    StopsAtFailingCall (.blinkSet on) s 6)

/-- `LTR.SET`, `RTL.SET`, `AUTOSCROLL.SET` (R146, R148, R150, by R139): as for `DCTRL`, on `EMODE` with the
entry-mode-set command; `RTL.SET` sets the left-to-right flag to `1 - on`. -/
def Obligations.EntryModeSetters : Prop :=
  (∀ on rest,
    let c : Byte := if on then 1 else 0
    decode (header 0x26 0 0 c :: rest) = .accepted (.ltrSet on) rest ∧
    decode (header 0x28 0 0 c :: rest) = .accepted (.rtlSet on) rest ∧
    decode (header 0x2A 0 0 c :: rest) = .accepted (.autoscrollSet on) rest) ∧
  (∀ on (s : State), s.port.callsOk 6 →
    let p := s.cfg.proto
    let v (f : Byte) (b : Bool) : Byte := if b then s.emode ||| f else s.emode &&& ~~~f
    let done (f : Byte) (b : Bool) : Result := .next
      { s.answered (sendEvents s.cfg (p.cmdEntryModeSet ||| v f b) .cmd s.port.tioAt) 0x00000000 with emode := v f b }
    exec (.ltrSet on) s = done p.fEntryLeft on ∧ exec (.rtlSet on) s = done p.fEntryLeft (!on) ∧
    exec (.autoscrollSet on) s = done p.fEntryShiftInc on) ∧
  (∀ on (s : State), StopsAtFailingCall (.ltrSet on) s 6 ∧ StopsAtFailingCall (.rtlSet on) s 6 ∧
    StopsAtFailingCall (.autoscrollSet on) s 6)

/-- The six flag getters (R141, R143, R145, R147, R149, R151): the response carries 1 or 0 by the flag, negated for
`RTL.GET`; no event, no register, no failure. -/
def Obligations.FlagGetters : Prop :=
  (∀ rest, decode (0x21000000 :: rest) = .accepted .displayGet rest ∧ decode (0x23000000 :: rest) = .accepted .cursorGet rest ∧
    decode (0x25000000 :: rest) = .accepted .blinkGet rest ∧ decode (0x27000000 :: rest) = .accepted .ltrGet rest ∧
    decode (0x29000000 :: rest) = .accepted .rtlGet rest ∧ decode (0x2B000000 :: rest) = .accepted .autoscrollGet rest) ∧
  (∀ s : State,
    let p := s.cfg.proto
    let answer (r f : Byte) (yes no : Word) : Result := .next (s.answered [] (if r &&& f = 0 then no else yes))
    exec .displayGet s = answer s.dctrl p.fDisplayOn 1 0 ∧
    exec .cursorGet s = answer s.dctrl p.fCursorOn 1 0 ∧
    exec .blinkGet s = answer s.dctrl p.fBlinkOn 1 0 ∧
    exec .ltrGet s = answer s.emode p.fEntryLeft 1 0 ∧
    exec .rtlGet s = answer s.emode p.fEntryLeft 0 1 ∧
    exec .autoscrollGet s = answer s.emode p.fEntryShiftInc 1 0)

/-- Setting a flag and reading it back, with the default constants: the getter of a flag answers what its setter was
given, `RTL` the negation of `LTR`; the getters of the other flags of the register answer as before. -/
def Obligations.SetThenGet : Prop :=
  ∀ (on : Bool) (s : State), s.cfg.proto = defaultProto → s.port.callsOk 6 →
    let after (set get : Instr) (answer : Bool) : Prop := ∃ t u, exec set s = .next t ∧ exec get t = .next u ∧
      u.responses = s.responses ++ [0x00000000, if answer then 0x00000001 else 0x00000000]
    let d (k : Nat) : Bool := s.dctrl.getLsbD k
    let e (k : Nat) : Bool := s.emode.getLsbD k
    (after (.displaySet on) .displayGet on ∧ after (.displaySet on) .cursorGet (d 1) ∧
      after (.displaySet on) .blinkGet (d 0)) ∧
    (after (.cursorSet on) .displayGet (d 2) ∧ after (.cursorSet on) .cursorGet on ∧
      after (.cursorSet on) .blinkGet (d 0)) ∧
    (after (.blinkSet on) .displayGet (d 2) ∧ after (.blinkSet on) .cursorGet (d 1) ∧
      after (.blinkSet on) .blinkGet on) ∧
    (after (.ltrSet on) .ltrGet on ∧ after (.ltrSet on) .rtlGet (!on) ∧ after (.ltrSet on) .autoscrollGet (e 0)) ∧
    (after (.rtlSet on) .ltrGet (!on) ∧ after (.rtlSet on) .rtlGet on ∧ after (.rtlSet on) .autoscrollGet (e 0)) ∧
    (after (.autoscrollSet on) .ltrGet (e 1) ∧ after (.autoscrollSet on) .rtlGet (!e 1) ∧
      after (.autoscrollSet on) .autoscrollGet on)

/-- The equalities of R88, each marked there as derived, in an initialised block: `RTL.SET on` is `LTR.SET (1 - on)`, `WRITE byte` is
`SEND.DATA byte`; `RTL.GET` answers `1 - LTR.GET`; `PRINT` has the events of its `WRITE`s in text order. -/
def Obligations.RequestEqualities : Prop :=
  ∀ s : State, s.initialized = true →
    (∀ on, exec (.rtlSet on) s = exec (.ltrSet (!on)) s) ∧
    (∀ byte, exec (.write byte) s = exec (.sendData byte) s) ∧
    (∃ (b : Bool) (t u : State), exec .ltrGet s = .next t ∧ exec .rtlGet s = .next u ∧
      t.responses = s.responses ++ [if b then 1 else 0] ∧ u.responses = s.responses ++ [if b then 0 else 1]) ∧
    (∀ cp text, s.port.callsOk (6 * (text.length + 1)) →
      ∃ t u v, exec (.write (cp.setWidth 8)) s = .next t ∧ exec (.print text) t = .next u ∧
        exec (.print (cp :: text)) s = .next v ∧ v.trace = u.trace ∧ v.lvl = u.lvl ∧ v.port = u.port)

/-! ### Data and glyphs -/

/-- `WRITE byte` (R160). -/
def Obligations.WriteRule : Prop :=
  (∀ byte rest, decode (header 0x30 0 0 byte :: rest) = .accepted (.write byte) rest) ∧
  (∀ byte (s : State), s.port.callsOk 6 →
    exec (.write byte) s = .next (s.answered (sendEvents s.cfg byte .data s.port.tioAt) 0x00000000)) ∧
  (∀ byte (s : State), StopsAtFailingCall (.write byte) s 6)

/-- `PRINT text` (R161): one DATA send for each code point, its low 8 bits, in text order, with no command between; no
event for an empty text; after a failure the bytes already sent stay sent and the rest are not sent. -/
def Obligations.PrintRule : Prop :=
  (∀ (text rest : List Word), text.length < 2 ^ 24 →
    decode ((0x31#8 ++ BitVec.ofNat 24 text.length) :: (text ++ rest)) = .accepted (.print text) rest) ∧
  (∀ text (s : State), s.port.callsOk (6 * text.length) →
    exec (.print text) s = .next (s.answered
      ((List.range text.length).flatMap (fun j =>
        sendEvents s.cfg ((text.getD j 0).setWidth 8) .data (fun k => s.port.tioAt (3 * j + k)))) 0x00000000)) ∧
  (∀ text (s : State), StopsAtFailingCall (.print text) s (6 * text.length))

/-- `CREATECHAR location, glyph` (R162, R60): the set-CGRAM-address command with the masked, shifted location and its
wait; then the first `min(n, GLYPH_MAX)` elements, each a DATA byte with its wait; more are ignored. -/
def Obligations.CreateCharRule : Prop :=
  (∀ location (glyph rest : List Word), glyph.length < 2 ^ 8 →
    decode (header 0x32 0 (BitVec.ofNat 8 glyph.length) location :: (glyph ++ rest))
      = .accepted (.createChar location glyph) rest) ∧
  (∀ location glyph (s : State),
    let c := s.cfg
    let n := min glyph.length c.proto.glyphMax
    s.port.callsOk (6 + 6 * n) →
    exec (.createChar location glyph) s = .next (s.answered
      (sendEvents c (c.proto.cmdSetCgramAddr ||| ((location &&& c.proto.locMask) <<< c.proto.locShift)) .cmd s.port.tioAt
        ++ delayEvents c.timing.tCgAddr (s.port.tioAt 3)
        ++ (List.range n).flatMap (fun j =>
          sendEvents c ((glyph.getD j 0).setWidth 8) .data (fun k => s.port.tioAt (4 * j + 4 + k))
            ++ delayEvents c.timing.tCgData (s.port.tioAt (4 * j + 7)))) 0x00000000)) ∧
  (∀ location glyph (s : State),
    StopsAtFailingCall (.createChar location glyph) s (6 + 6 * min glyph.length s.cfg.proto.glyphMax))

/-- Glyph locations wrap (R60): with the default mask and shift, locations equal modulo 8 send one command byte, between
0x40 and 0x78, and location 9 sends that of location 1. -/
def Obligations.GlyphLocationsWrap : Prop :=
  ∀ (c : Config), c.proto = defaultProto →
    (∀ a b : Byte, a.toNat % 8 = b.toNat % 8 → cgramCommand c a = cgramCommand c b) ∧
    (∀ a : Byte, (cgramCommand c a).toNat = 0x40 + 8 * (a.toNat % 8)) ∧
    cgramCommand c 9 = 0x48

/-! ### Backlight -/

/-- `BACKLIGHT.SET value` (R170): with a backlight pin, one analog write of the value as given, then `BLVL` holds it;
without one, nothing; no wait in either case; after a failure `BLVL` keeps its old value. -/
def Obligations.BacklightSetRule : Prop :=
  (∀ b rest, decode (header 0x38 0 0 (if b then 1 else 0) :: rest) = .accepted (.backlightSet (.bool b)) rest) ∧
  (∀ n rest, decode (header 0x38 0 1 n :: rest) = .accepted (.backlightSet (.int n)) rest) ∧
  (∀ value (s : State) bl, s.cfg.pins.bl = some bl → s.port.callsOk 1 →
    exec (.backlightSet value) s =
      .next { s.answered [.call (.analog bl value)] 0x00000000 with blvl := some value }) ∧
  (∀ value (s : State), s.cfg.pins.bl = none → exec (.backlightSet value) s = .next (s.answered [] 0x00000000)) ∧
  (∀ value (s : State) bl, s.cfg.pins.bl = some bl → StopsAtFailingCall (.backlightSet value) s 1)

/-- `BACKLIGHT.GET` (R171): kind 0 for `none`, 1 for a boolean, 2 for an intensity, with the value. -/
def Obligations.BacklightGetRule : Prop :=
  (∀ rest, decode (0x39000000 :: rest) = .accepted .backlightGet rest) ∧
  (∀ s : State,
    let w : Word := match s.blvl with
      | none => 0
      | some (.bool b) => if b then 0x101 else 0x100
      | some (.int n) => 0x200 ||| n.setWidth 32
    exec .backlightGet s = .next (s.answered [] w))

/-! ### Reset, construction, initialisation -/

/-- The state at reset (R35), for every configuration and pin port, and for `State.reset`: `DFUNC` computed, `BLVL`
`none`, every pin unwritten, `initialized` 0, `busy` 1, `fault` `none`, the trace empty. -/
def Obligations.ValuesAtReset : Prop :=
  (∀ cfg port inbox,
    let s := State.atReset cfg port inbox
    s.cfg = cfg ∧ s.dfunc = dfuncOf cfg ∧ s.blvl = none ∧ (∀ p, s.lvl.read p = none) ∧
    s.initialized = false ∧ s.busy = true ∧ s.fault = .none ∧ s.trace = [] ∧ s.latches.upc = some 0) ∧
  State.reset = State.atReset State.reset.cfg State.reset.port []

/-- A reset the platform asks for discards all state and latches the new configuration, whatever the block is doing
(R200); the pin port and the words the host holds are outside the block. -/
def Obligations.ResetDiscardsEverything : Prop :=
  ∀ (s : State) (cfg : Config), s.resetIn = some cfg → step s = .next (State.atReset cfg s.port s.inbox)

/-- `DFUNC` (R23): the line flag exactly when `ROWS > 1`, the 5x10 flag exactly for a single-row 5x10 display; with the
default constants 0x00, 0x04 or 0x08, with bits 7:4 and 1:0 zero. -/
def Obligations.DfuncValue : Prop :=
  ∀ c : Config,
    (1 < c.geom.rows → dfuncOf c = c.proto.f2Line) ∧
    (c.geom.rows = 1 → c.geom.charSize = .dots5x10 → dfuncOf c = c.proto.f5x10Dots) ∧
    (c.geom.rows = 1 → c.geom.charSize = .dots5x8 → dfuncOf c = 0) ∧
    (c.proto = defaultProto → dfuncOf c &&& 0xF3 = 0 ∧ dfuncOf c ∈ [0x00, 0x04, 0x08])

/-- `InvalidConfiguration` (R180): with a pin count other than 4 and 8 construction only sets `fault`; nothing else
changes, no pin is touched, and from then on the block accepts nothing until a reset. -/
def Obligations.InvalidConfigurationKillsTheBlock : Prop :=
  ∀ s : State, s.resetIn = none → s.initialized = false → s.busy = true → s.fault = .none →
    s.cfg.pins.nData ≠ 4 → s.cfg.pins.nData ≠ 8 →
    step s = .next { s with fault := .invalidConfiguration } ∧
    ∀ words, step { s with fault := .invalidConfiguration, inbox := words }
      = .next { s with fault := .invalidConfiguration, inbox := words }

/-- Construction and initialisation (R120, R121), from reset, for every configuration with 4 or 8 distinct pins and
every pin port none of whose calls fails: every pin configured once, as an output, in order; the eight steps of the
sequence in order; `DCTRL`, `EMODE` and `BLVL` as sent; `initialized` 1, `busy` 0. -/
def Obligations.InitialisationCompletes : Prop :=
  ∀ cfg port inbox,
    let s := State.atReset cfg port inbox
    let p := cfg.proto
    let es := configureEvents cfg.pins ++ initEvents cfg s.dfunc port.tioAt
    let calls := 38 + cfg.pins.rw.toList.length + cfg.pins.nData + 2 * cfg.pins.bl.toList.length
    cfg.pins.nData = 4 ∨ cfg.pins.nData = 8 → cfg.pins.distinct → port.callsOk calls →
    step s = .next
      { s with
        dctrl := p.fDisplayOn ||| p.fCursorOn ||| p.fBlinkOn
        emode := p.fEntryLeft
        blvl := match cfg.pins.bl with
          | some _ => some cfg.blDefault
          | none => none
        lvl := Levels.replay [] es
        trace := es
        port := port.after 25 calls
        initialized := true
        busy := false
        latches := Latches.idle }

/-- The shape of the trace that construction and initialisation leave when no call fails, which the spec marks as its own
inference (R123, "derived: from rules R120, R121"): its event counts, its 12 pulses, and RS low in every bulk write. -/
def Obligations.InitialisationTraceShape : Prop :=
  ∀ cfg port inbox, cfg.pins.nData = 4 ∨ cfg.pins.nData = 8 → cfg.pins.distinct →
    port.callsOk (38 + cfg.pins.rw.toList.length + cfg.pins.nData + 2 * cfg.pins.bl.toList.length) →
    ∃ t, step (State.atReset cfg port inbox) = .next t ∧
      let es := t.trace
      es.countP Event.isCfg = 2 + cfg.pins.rw.toList.length + cfg.pins.nData + cfg.pins.bl.toList.length ∧
      es.countP Event.isWb = 12 ∧ es.countP Event.isW1 = 24 ∧ es.countP Event.isTq = 25 ∧ es.countP Event.isSl ≤ 25 ∧
      es.countP Event.isWa = cfg.pins.bl.toList.length ∧ es.countP Event.isFail = 0 ∧
      es.countP (Event.isRise cfg.pins.en) = 12 ∧
      ∀ m, .call (.bulk m) ∈ es → m.read cfg.pins.rs = some false

/-- What initialisation leaves with the default constants (R35): `DCTRL` 0x07, `EMODE` 0x02; `EN`, `RS` and `RW` low; D0
to D3 at 0, 1, 1, 0; D4 to D7 of an eight-pin block never written. The pin levels are the spec's own inference (R35 marks
each "derived"), and the constants general knowledge (G1 to G4). -/
def Obligations.ValuesAfterInitialisation : Prop :=
  ∀ cfg port inbox, cfg.proto = defaultProto → cfg.pins.nData = 4 ∨ cfg.pins.nData = 8 → cfg.pins.distinct →
    port.callsOk (38 + cfg.pins.rw.toList.length + cfg.pins.nData + 2 * cfg.pins.bl.toList.length) →
    ∃ t, step (State.atReset cfg port inbox) = .next t ∧
      t.dctrl = 0x07 ∧ t.emode = 0x02 ∧ t.dfunc = dfuncOf cfg ∧
      t.lvl.read cfg.pins.en = some false ∧ t.lvl.read cfg.pins.rs = some false ∧
      (∀ rw, cfg.pins.rw = some rw → t.lvl.read rw = some false) ∧
      (∀ i pin, cfg.pins.data[i]? = some pin →
        t.lvl.read pin = if i < 4 then some (i == 1 || i == 2) else none) ∧
      t.initialized = true ∧ t.busy = false ∧ t.fault = .none

/-- A pin-port failure during construction or initialisation (R181): the trace holds the events up to the failing call
and that call, `fault` is `IoFailure`, `initialized` stays 0 and `busy` 1, no response is given, and from then on the
block accepts nothing until a reset. -/
def Obligations.InitialisationStopsAtFailingCall : Prop :=
  ∀ cfg port inbox k info,
    let s := State.atReset cfg port inbox
    cfg.pins.nData = 4 ∨ cfg.pins.nData = 8 → cfg.pins.distinct →
    k < 38 + cfg.pins.rw.toList.length + cfg.pins.nData + 2 * cfg.pins.bl.toList.length →
    port.callsOk k → port.outcomeAt k = some info →
    ∃ t, step s = .next t ∧
      t.trace = cutAtCall k info (configureEvents cfg.pins ++ initEvents cfg (dfuncOf cfg) port.tioAt) ∧
      t.fault = .ioFailure ∧ t.initialized = false ∧ t.busy = true ∧ t.responses = [] ∧ t.blvl = none ∧
      ∀ words, step { t with inbox := words } = .next { t with inbox := words }

/-! ### Exceptions and flags, over all requests -/

/-- `IoFailure` (R181), for every request: at its first failing call it stops as `StopsAtFailingCall` says, and every
`LVL` entry the call names is unwritten. -/
def Obligations.EveryRequestStopsAtItsFailingCall : Prop :=
  ∀ (i : Instr) (s : State),
    let n := (requestEvents i s s.port.tioAt).countP Event.isCall
    StopsAtFailingCall i s n ∧
    (∀ (k : Nat) (info : PortInfo), k < n → s.port.callsOk k → s.port.outcomeAt k = some info →
      ∃ t c es, exec i s = .next t ∧ t.trace = s.trace ++ es ++ [.fail c info] ∧ ∀ p ∈ c.pins, t.lvl.read p = none)

/-- Which requests can raise `IoFailure` (R183): in no state `DELAY`, a `.GET`, an empty `PRINT`, or `BACKLIGHT.SET`
without a backlight pin; every other request does, in any state, with a pin port whose next call fails. -/
def Obligations.RequestsThatCanFail : Prop :=
  ∀ (i : Instr) (s : State),
    let quiet : Bool := match i with
      | .delay _ | .displayGet | .cursorGet | .blinkGet | .ltrGet | .rtlGet | .autoscrollGet | .backlightGet => true
      | .print text => text.isEmpty
      | .backlightSet _ => s.cfg.pins.bl.isNone
      | _ => false
    (quiet = true → ∃ t, exec i s = .next t ∧ t.fault = s.fault) ∧
    (quiet = false → ∀ info, ∃ t, exec i { s with port := { s.port with outcomes := [some info] } } = .next t ∧
      t.fault = .ioFailure)

/-- Every request ends in a next state, in every state: with one more response, and in an initialised block idle again
(R63, R81, R84). -/
def Obligations.EveryRequestAnswersOnce : Prop :=
  ∀ (i : Instr) (s : State), ∃ t w, exec i s = .next t ∧ t.responses = s.responses ++ [w] ∧
    (s.initialized = true → t.busy = false ∧ t.latches = Latches.idle ∧ t.initialized = true)

/-- Which requests write which registers, whether they end well or in a failure (R20 to R26, R29): `DCTRL` its three
setters, `EMODE` its three, `BLVL` its own; `DFUNC`, the configuration, `initialized` and the inputs none; `fault` changes
to `IoFailure` or not at all. -/
def Obligations.RegisterFrame : Prop :=
  ∀ (i : Instr) (s t : State), exec i s = .next t →
    ((∀ on, i ≠ .displaySet on ∧ i ≠ .cursorSet on ∧ i ≠ .blinkSet on) → t.dctrl = s.dctrl) ∧
    ((∀ on, i ≠ .ltrSet on ∧ i ≠ .rtlSet on ∧ i ≠ .autoscrollSet on) → t.emode = s.emode) ∧
    ((∀ v, i ≠ .backlightSet v) → t.blvl = s.blvl) ∧
    t.dfunc = s.dfunc ∧ t.cfg = s.cfg ∧ t.initialized = s.initialized ∧ t.inbox = s.inbox ∧ t.resetIn = s.resetIn ∧
    (t.fault = s.fault ∨ t.fault = .ioFailure)

/-- Which pins a request writes, whether it ends well or in a failure: none for `DELAY` and the `.GET`s; `EN` for
`PULSE`; `EN`, `RS`, `RW` and the first `width` data pins for `WRBITS`; `EN`, `RS`, `RW` and D0 to D3 for all the others.
Every other pin keeps its level (the backlight pin is not in `LVL`, and a distinct id). -/
def Obligations.PinFrame : Prop :=
  ∀ (i : Instr) (s t : State), exec i s = .next t → s.cfg.pins.distinct → ∀ p,
    let pins := s.cfg.pins
    let frame (width : Nat) : List PinId := pins.en :: pins.rs :: (pins.rw.toList ++ pins.data.take width)
    (match i with
      | .delay _ | .displayGet | .cursorGet | .blinkGet | .ltrGet | .rtlGet | .autoscrollGet | .backlightGet => True
      | .backlightSet _ => some p ≠ pins.bl
      | .pulse => p ≠ pins.en
      | .wrBits _ width _ => p ∉ frame width
      | _ => p ∉ frame 4) →
    t.lvl.read p = s.lvl.read p

/-- No step but a reset shortens or rewrites the trace, and a failed call is always the last event of its step (R12,
R62). -/
def Obligations.TraceOnlyGrows : Prop :=
  ∀ s t : State, s.resetIn = none → step s = .next t →
    ∃ es, t.trace = s.trace ++ es ∧ ∀ before e after, es = before ++ e :: after → e.isFail = true → after = []

/-- The status flags (R29, R188): `fault`, once set, is cleared by reset only; `initialized` is set by initialisation
only and cleared by reset only; a block neither idle nor under construction changes nothing. -/
def Obligations.StatusFlagsAreSticky : Prop :=
  ∀ s t : State, s.resetIn = none → step s = .next t →
    (s.fault ≠ .none → t.fault ≠ .none) ∧
    (s.initialized = true → t.initialized = true) ∧
    (t.initialized = true → s.initialized = true ∨ (s.busy = true ∧ s.fault = .none ∧ t.fault = .none)) ∧
    (phaseOf s = .dead → t = s) ∧
    (phaseOf s = .dead ↔ ¬ (s.initialized = true ∧ s.busy = false) ∧
      ¬ (s.initialized = false ∧ s.busy = true ∧ s.fault = .none))

/-- The answers of `Tio()` never decide which pin calls are made, nor a register, a level, a flag or a response (R110,
R122): two blocks alike but for the answers to come do the same at the pins, in any request and, from reset, in
construction and initialisation, whether they end well or in a failure. -/
def Obligations.AnswersNeverReachThePins : Prop :=
  (∀ (i : Instr) (s : State) (answers : List Duration) (asked : Nat),
    let s' := { s with port := { s.port with tioNext := answers, tioAsked := asked } }
    ∃ t t' es es', exec i s = .next t ∧ exec i s' = .next t' ∧
      t.trace = s.trace ++ es ∧ t'.trace = s.trace ++ es' ∧ pinCalls es = pinCalls es' ∧
      t.lvl = t'.lvl ∧ t.dctrl = t'.dctrl ∧ t.emode = t'.emode ∧ t.blvl = t'.blvl ∧
      t.fault = t'.fault ∧ t.busy = t'.busy ∧ t.responses = t'.responses) ∧
  (∀ (cfg : Config) (port : Port) (inbox : List Word) (answers : List Duration) (asked : Nat) (t : State),
    step (State.atReset cfg port inbox) = .next t →
    ∃ t', step (State.atReset cfg { port with tioNext := answers, tioAsked := asked } inbox) = .next t' ∧
      pinCalls t.trace = pinCalls t'.trace ∧
      t.lvl = t'.lvl ∧ t.dfunc = t'.dfunc ∧ t.dctrl = t'.dctrl ∧ t.emode = t'.emode ∧ t.blvl = t'.blvl ∧
      t.initialized = t'.initialized ∧ t.fault = t'.fault ∧ t.busy = t'.busy ∧ t.responses = t'.responses)

/-- Nibble pairing (R54, R205; that the LCD pairs nibbles is the spec's general knowledge G10): a request none of whose
calls fails raises `EN` an even number of times, but for `PULSE`, `WRBITS` and `SEND.RAW4`, which raise it once. -/
def Obligations.PulsesComeInPairs : Prop :=
  ∀ (i : Instr) (s t : State) (es : List Event), exec i s = .next t → t.trace = s.trace ++ es →
    es.countP Event.isFail = 0 →
    let rises := es.countP (Event.isRise s.cfg.pins.en)
    match i with
    | .pulse | .wrBits _ _ _ | .sendRaw4 _ => rises = 1
    | _ => rises % 2 = 0

/-- Sums of floors with every answer 0, no call failing and the document's figures, which R213 marks as derived: what a
pulse, a send, `CLEAR`, `HOME` and `CREATECHAR` with 8 rows add to the trace sleeps 1, 39, 2039, 2039 and 701 µs, and
the trace of initialisation sleeps 106958 µs plus `T_INIT3`. -/
def Obligations.SumsOfFloors : Prop :=
  (∀ (s : State) (t3 : Duration), s.cfg.timing = { documentTiming with tInit3 := t3 } → s.cfg.proto.glyphMax = 8 →
    let quick (asks calls : Nat) : Prop := (∀ k < asks, s.port.tioAt k = .ofUs 0) ∧ s.port.callsOk calls
    let sleeps (i : Instr) (us : Rat) : Prop := ∃ t es, exec i s = .next t ∧ t.trace = s.trace ++ es ∧ sleptUs es = us
    (quick 1 2 → sleeps .pulse 1) ∧
    (∀ byte, quick 3 6 → sleeps (.sendCmd byte) 39 ∧ sleeps (.sendData byte) 39) ∧
    (quick 4 6 → sleeps .clear 2039 ∧ sleeps .home 2039) ∧
    (∀ location glyph, glyph.length = 8 → quick 36 54 → sleeps (.createChar location glyph) 701)) ∧
  (∀ (cfg : Config) (port : Port) (inbox : List Word) (t3 : Duration),
    cfg.timing = { documentTiming with tInit3 := t3 } →
    cfg.pins.nData = 4 ∨ cfg.pins.nData = 8 → cfg.pins.distinct → (∀ k < 25, port.tioAt k = .ofUs 0) →
    port.callsOk (38 + cfg.pins.rw.toList.length + cfg.pins.nData + 2 * cfg.pins.bl.toList.length) →
    ∃ t, step (State.atReset cfg port inbox) = .next t ∧ sleptUs t.trace = 106958 + t3.us)

/-! ### Invariants of every step -/

/-- Every step keeps `LVL` canonical and equal, pin by pin, to the level last written in the trace (R28). -/
def Obligations.StepKeepsLevels : Prop := ∀ s t : State, s.LevelsInv → step s = .next t → t.LevelsInv

/-- At reset, whatever the configuration: no pin has a level and the trace is empty (R35). -/
def Obligations.LevelsHoldAtReset : Prop := ∀ cfg port inbox, (State.atReset cfg port inbox).LevelsInv

/-- Every step keeps the agreement of the status flags, the latches, the registers and the configuration (R29, R31, R120,
R180, D23). That `DFUNC` agrees in a block whose construction failed is log 12, and that an initialised block has distinct
pins log 13. -/
def Obligations.StepKeepsStatus : Prop := ∀ s t : State, s.StatusInv → step s = .next t → t.StatusInv

/-- The agreement holds at reset, whatever the configuration (R35; `DFUNC` as computed, log 12). -/
def Obligations.StatusHoldsAtReset : Prop := ∀ cfg port inbox, (State.atReset cfg port inbox).StatusInv

/-- Every step keeps `EN` last written low in an initialised block that has not failed, last written high in no block at
rest, and at no bulk write of the trace (R57, R101; R212 marks it as derived). After a failed fall `EN` is unwritten, and
the wire may be high (R101). That an initialised block has distinct pins is log 13. -/
def Obligations.StepKeepsEnableLow : Prop := ∀ s t : State, s.EnableInv → step s = .next t → t.EnableInv

/-- At reset `EN` has no level, so it is not high, and there is no bulk write (R35, R212). -/
def Obligations.EnableLowAtReset : Prop := ∀ cfg port inbox, (State.atReset cfg port inbox).EnableInv

/-- The mirror invariant (R27), with the default constants: every step keeps it, failures included, but for a step that
runs `PULSE`, `WRBITS` or `SEND.RAW4`, after which nibbles no longer pair into bytes (R54, R205), or `SEND.CMD` of a
display-control or entry-mode-set byte, which breaks it (R27, R108). Of a reset step, which may latch only a configuration
with those constants, the clause on the zero fields rests on the model's choice of 0x00 for `DCTRL` and `EMODE` (log 1);
that an initialised block has distinct pins is log 13. -/
def Obligations.StepKeepsTheMirror : Prop :=
  ∀ s t : State, s.MirrorInv →
    (∀ c, s.resetIn = some c → c.proto = defaultProto) →
    (s.initialized = true → ∀ i rest, decode s.inbox = .accepted i rest → i.canBreakMirror = false) →
    step s = .next t → t.MirrorInv

/-- The mirror invariant at reset, with the default constants. Its clause on the zero fields holds there by the model's
choice of 0x00 for `DCTRL` and `EMODE` (log 1); before initialisation it claims nothing of a mirror. -/
def Obligations.MirrorHoldsAtReset : Prop :=
  ∀ cfg port inbox, cfg.proto = defaultProto → (State.atReset cfg port inbox).MirrorInv

/-- The zero fields of `DFUNC`, `DCTRL` and `EMODE` read 0 after every step, raw requests and failures included, with the
default constants (R23, R24, R25). Of a reset step this rests on the model's choice of 0x00 for `DCTRL` and `EMODE`, which
R35 leaves unspecified there (log 1). -/
def Obligations.StepKeepsZeroFields : Prop :=
  ∀ s t : State, s.cfg.proto = defaultProto → (∀ c, s.resetIn = some c → c.proto = defaultProto) →
    s.ZeroFields → step s = .next t → t.ZeroFields
end

