-- ==== Sys2Proof/Laws/Decode.lean ====
section
/-! SUPPORT. The fields of a header word, for the round trips between words and requests. -/

set_option Elab.async false

namespace Sys2Proof

section
variable (op a b c : Byte)

theorem getLsbD_header (i : Nat) :
    (header op a b c).getLsbD i =
      if i < 8 then c.getLsbD i
      else if i < 16 then b.getLsbD (i - 8)
      else if i < 24 then a.getLsbD (i - 16)
      else op.getLsbD (i - 24) := by
  have h : (header op a b c).getLsbD i
      = BitVec.getLsbD (w := 8 + (8 + (8 + 8))) (op ++ (a ++ (b ++ c))) i := rfl
  rw [h, BitVec.getLsbD_append, BitVec.getLsbD_append, BitVec.getLsbD_append]
  grind

theorem getLsbD_headerLow (n i : Nat) :
    (headerLow op n).getLsbD i = if i < 24 then (BitVec.ofNat 24 n).getLsbD i else op.getLsbD (i - 24) := by
  have h : (headerLow op n).getLsbD i = BitVec.getLsbD (w := 8 + 24) (op ++ BitVec.ofNat 24 n) i := rfl
  rw [h, BitVec.getLsbD_append]

@[simp] theorem opField_header : opField (header op a b c) = op := by
  apply BitVec.eq_of_getLsbD_eq
  intro i hi
  simp only [opField, BitVec.getLsbD_extractLsb', getLsbD_header]
  grind

@[simp] theorem aField_header : aField (header op a b c) = a := by
  apply BitVec.eq_of_getLsbD_eq
  intro i hi
  simp only [aField, BitVec.getLsbD_extractLsb', getLsbD_header]
  grind

@[simp] theorem bField_header : bField (header op a b c) = b := by
  apply BitVec.eq_of_getLsbD_eq
  intro i hi
  simp only [bField, BitVec.getLsbD_extractLsb', getLsbD_header]
  grind

@[simp] theorem cField_header : cField (header op a b c) = c := by
  apply BitVec.eq_of_getLsbD_eq
  intro i hi
  simp only [cField, BitVec.getLsbD_extractLsb', getLsbD_header]
  grind

@[simp] theorem opField_headerLow (n : Nat) : opField (headerLow op n) = op := by
  apply BitVec.eq_of_getLsbD_eq
  intro i hi
  simp only [opField, BitVec.getLsbD_extractLsb', getLsbD_headerLow]
  grind

@[simp] theorem lowField_headerLow (n : Nat) : lowField (headerLow op n) = BitVec.ofNat 24 n := by
  apply BitVec.eq_of_getLsbD_eq
  intro i hi
  simp only [lowField, BitVec.getLsbD_extractLsb', getLsbD_headerLow, hi, decide_true, Bool.true_and, Nat.zero_add,
    if_true]

end

/-- A header word is its four fields. -/
theorem header_fields (w : Word) : header (opField w) (aField w) (bField w) (cField w) = w := by
  apply BitVec.eq_of_getLsbD_eq
  intro i hi
  rw [getLsbD_header]
  simp only [opField, aField, bField, cField, BitVec.getLsbD_extractLsb']
  grind

/-- A header word is its opcode and its low 24 bits. -/
theorem headerLow_fields (w : Word) : headerLow (opField w) (lowField w).toNat = w := by
  apply BitVec.eq_of_getLsbD_eq
  intro i hi
  rw [getLsbD_headerLow]
  simp only [opField, lowField, BitVec.getLsbD_extractLsb', BitVec.ofNat_toNat, BitVec.setWidth_eq]
  grind

/-- What the header decoder reads, the encoder writes: a whole request is well-formed and is this one word; a payload
length fits its field. -/
theorem decodeHeader_cases (h : Word) :
    (∀ i, decodeHeader h = .whole i → i.wellFormed = true ∧ encode i = [h]) ∧
    (∀ n, decodeHeader h = .print n → n < 2 ^ 24 ∧ h = headerLow 0x31 n) ∧
    (∀ l n, decodeHeader h = .createChar l n → n < 2 ^ 8 ∧ h = header 0x32 0 (BitVec.ofNat 8 n) l) := by
  have e1 := header_fields h
  have e2 := headerLow_fields h
  have hz : ∀ i : Instr, ∀ j, formatZ h i = .whole j ↔ (j = i ∧ aField h = 0 ∧ bField h = 0 ∧ cField h = 0) := by
    intro i j; clear e1 e2; unfold formatZ; split <;> simp_all; exact ⟨Eq.symm, Eq.symm⟩
  have hb : ∀ i : Byte → Instr, ∀ j, formatB h i = .whole j ↔ (j = i (cField h) ∧ aField h = 0 ∧ bField h = 0) := by
    intro i j; clear e1 e2; unfold formatB; split <;> simp_all; exact ⟨Eq.symm, Eq.symm⟩
  have hfl : ∀ c : Byte, c.extractLsb' 1 7 = 0 → BitVec.setWidth 8 (BitVec.ofBool (c.getLsbD 0)) = c := by decide
  have hf : ∀ i : Bool → Instr, ∀ j, formatF h i = .whole j → ∃ b, j = i b ∧ aField h = 0 ∧ bField h = 0 ∧ cField h = BitVec.setWidth 8 (BitVec.ofBool b) := by
    intro i j hj; unfold formatF at hj; split at hj
    · rename_i hc
      exact ⟨_, by simpa [eq_comm] using hj, hc.1, hc.2.1, (hfl _ hc.2.2).symm⟩
    · simp at hj
  have nz : ∀ i n, formatZ h i ≠ .print n := by intro i n; unfold formatZ; split <;> simp
  have nz' : ∀ i l n, formatZ h i ≠ .createChar l n := by intro i l n; unfold formatZ; split <;> simp
  have nb : ∀ i n, formatB h i ≠ .print n := by intro i n; unfold formatB; split <;> simp
  have nb' : ∀ i l n, formatB h i ≠ .createChar l n := by intro i l n; unfold formatB; split <;> simp
  have nf : ∀ i n, formatF h i ≠ .print n := by intro i n; unfold formatF; split <;> simp
  have nf' : ∀ i l n, formatF h i ≠ .createChar l n := by intro i l n; unfold formatF; split <;> simp
  unfold decodeHeader
  split <;> rename_i hop <;> (try rw [hop] at e1 e2) <;> refine ⟨?_, ?_, ?_⟩
  all_goals try simp only [hz]; try (rintro _ ⟨rfl, ha, hb, hc⟩; rw [ha, hb, hc] at e1; exact ⟨rfl, by simp [encode, encodeZ]; exact e1⟩)
  all_goals try simp only [hb]; try (rintro _ ⟨rfl, ha, hb⟩; rw [ha, hb] at e1; exact ⟨rfl, by simp [encode, encodeB]; exact e1⟩)
  all_goals try (intro j hj; obtain ⟨b, rfl, ha, hb, hc⟩ := hf _ _ hj; rw [ha, hb, hc] at e1; exact ⟨rfl, by simp [encode, encodeF]; exact e1⟩)
  all_goals try (intro n hn; first | exact absurd hn (nz _ _) | exact absurd hn (nb _ _) | exact absurd hn (nf _ _))
  all_goals try (intro l n hn; first | exact absurd hn (nz' _ _ _) | exact absurd hn (nb' _ _ _) | exact absurd hn (nf' _ _ _))
  -- remaining: T, W, RC, S, G, L, illegal
  · rintro i ⟨⟩; exact ⟨by simp [Instr.wellFormed]; exact (lowField h).isLt, by simpa [encode] using e2⟩
  · simp [formatT]
  · simp [formatT]
  · intro i hi
    unfold formatW at hi
    split at hi
    · rename_i hc
      have hm : ∀ a : Byte, a.extractLsb' 2 6 = 0 → ∀ m, modeOf (a.extractLsb' 0 2) = some m → modeBits m = a := by decide
      split at hi
      · rename_i m hmm
        cases hi
        refine ⟨by simp [Instr.wellFormed]; exact (bField h).isLt, ?_⟩
        simp [encode, hm _ hc _ hmm, e1]
      · simp at hi
    · simp at hi
  · intro n; unfold formatW; split <;> (try split) <;> simp
  · intro l n; unfold formatW; split <;> (try split) <;> simp
  · intro i hi
    unfold formatRC at hi
    split at hi
    · rename_i hc
      cases hi
      refine ⟨by simp [Instr.wellFormed]; exact ⟨(bField h).isLt, (cField h).isLt⟩, ?_⟩
      rw [hc] at e1
      simpa [encode] using e1
    · simp at hi
  · intro n; unfold formatRC; split <;> simp
  · intro l n; unfold formatRC; split <;> simp
  · simp
  · rintro n ⟨⟩; exact ⟨(lowField h).isLt, e2.symm⟩
  · simp
  · intro i; unfold formatG; split <;> simp
  · intro i; unfold formatG; split <;> simp
  · intro l n hn
    unfold formatG at hn
    split at hn
    · rename_i hc
      cases hn
      rw [hc] at e1
      exact ⟨(bField h).isLt, by simpa using e1.symm⟩
    · simp at hn
  · intro i hi
    unfold formatL at hi
    have hb1 : ∀ b : Byte, b.extractLsb' 1 7 = 0 → b.getLsbD 0 = true → b = 1 := by decide
    have hb0 : ∀ b : Byte, b.extractLsb' 1 7 = 0 → b.getLsbD 0 ≠ true → b = 0 := by decide
    split at hi
    · rename_i hc
      rw [hc.1] at e1
      split at hi
      · rename_i h1
        cases hi; rw [hb1 _ hc.2 h1] at e1; exact ⟨rfl, by simpa [encode] using e1⟩
      · rename_i h1
        split at hi
        · rename_i h2
          cases hi; rw [hb0 _ hc.2 h1] at e1; exact ⟨rfl, by simp only [encode, hfl _ h2, List.cons.injEq, and_true]; exact e1⟩
        · simp at hi
    · simp at hi
  · intro n; unfold formatL; repeat' split
    all_goals simp
  · intro l n; unfold formatL; repeat' split
    all_goals simp
  all_goals simp

end Sys2Proof
end

