-- ==== Sys2Proof/Laws/Levels.lean ====
section
/-! SUPPORT. The pin-level map: read after write, write elsewhere, and that every operation keeps the canonical form. -/

set_option Elab.async false

namespace Sys2Proof.Machine

@[simp] theorem Levels.read_nil (p : PinId) : Levels.read [] p = none := rfl

theorem Levels.read_set (l : Levels) (p q : PinId) (v : Bool) :
    (l.set p v).read q = if q = p then some v else l.read q := by
  induction l with
  | nil => simp [Levels.set, Levels.read]
  | cons x rest ih =>
    obtain ⟨r, w⟩ := x
    simp only [Levels.set]
    split
    · simp [Levels.read]
    · split
      · rename_i h; subst h
        by_cases hq : q = p <;> simp [Levels.read, hq]
      · rename_i h1 h2
        by_cases hq : q = r
        · subst hq; simp [Levels.read, Ne.symm h2]
        · simp [Levels.read, hq, ih]

theorem Levels.read_erase (l : Levels) (p q : PinId) :
    (Levels.erase l p).read q = if q = p then none else l.read q := by
  induction l with
  | nil => simp [Levels.erase, Levels.read]
  | cons x rest ih =>
    obtain ⟨r, w⟩ := x
    simp only [Levels.erase, ne_eq, decide_not] at ih
    by_cases hr : r = p
    · subst hr
      by_cases hq : q = r
      · subst hq; simpa [Levels.erase, Levels.read] using ih
      · simpa [Levels.erase, Levels.read, hq] using ih
    · by_cases hq : q = r
      · subst hq; simp [Levels.erase, Levels.read, hr]
      · simp [Levels.erase, Levels.read, hr, hq, ih]

theorem Levels.mem_set {l : Levels} {p : PinId} {v : Bool} {x : PinId × Bool} (h : x ∈ l.set p v) :
    x = (p, v) ∨ x ∈ l := by
  induction l with
  | nil => simpa [Levels.set] using h
  | cons y rest ih =>
    simp only [Levels.set] at h
    split at h
    · simpa using h
    · split at h
      · rcases List.mem_cons.mp h with h | h
        · exact .inl h
        · exact .inr (List.mem_cons_of_mem _ h)
      · rcases List.mem_cons.mp h with h | h
        · exact .inr (h ▸ List.mem_cons_self)
        · exact (ih h).imp_right (List.mem_cons_of_mem _)

theorem Levels.set_wf {l : Levels} (p : PinId) (v : Bool) (h : l.wf) : (l.set p v).wf := by
  induction l with
  | nil => simp [Levels.set, Levels.wf]
  | cons y rest ih =>
    obtain ⟨r, w⟩ := y
    have hy : ∀ x ∈ rest, r < x.1 := (List.pairwise_cons.mp h).1
    have hrest : Levels.wf rest := (List.pairwise_cons.mp h).2
    simp only [Levels.set]
    split
    · rename_i hlt
      refine List.pairwise_cons.mpr ⟨fun x hx => ?_, h⟩
      rcases List.mem_cons.mp hx with rfl | hx
      · exact hlt
      · exact Nat.lt_trans hlt (hy x hx)
    · split
      · rename_i heq
        exact List.pairwise_cons.mpr ⟨fun x hx => heq ▸ hy x hx, hrest⟩
      · rename_i h1 h2
        refine List.pairwise_cons.mpr ⟨fun x hx => ?_, ih hrest⟩
        rcases Levels.mem_set hx with rfl | hx
        · exact Nat.lt_of_le_of_ne (Nat.le_of_not_lt h1) (Ne.symm h2)
        · exact hy x hx

theorem Levels.erase_wf {l : Levels} (p : PinId) (h : l.wf) : (Levels.erase l p).wf := List.Pairwise.filter _ h

theorem Levels.update_wf {l : Levels} (m : Levels) (h : l.wf) : (l.update m).wf := by
  induction m generalizing l with
  | nil => exact h
  | cons x rest ih => exact ih (Levels.set_wf x.1 x.2 h)

theorem Levels.forget_wf {l : Levels} (ps : List PinId) (h : l.wf) : (l.forget ps).wf := by
  induction ps generalizing l with
  | nil => exact h
  | cons p rest ih => exact ih (Levels.erase_wf p h)

theorem Levels.read_none_of_wf {x : PinId × Bool} {rest : Levels} (h : Levels.wf (x :: rest)) :
    rest.read x.1 = none := by
  have hall : ∀ y ∈ rest, x.1 < y.1 := (List.pairwise_cons.mp h).1
  clear h
  induction rest with
  | nil => rfl
  | cons y r ih =>
    have hxy : x.1 ≠ y.1 := Nat.ne_of_lt (hall y (by simp))
    simpa [Levels.read, hxy] using ih (fun z hz => hall z (List.mem_cons_of_mem _ hz))

theorem Levels.read_update {m : Levels} (hm : m.wf) (l : Levels) (q : PinId) :
    (l.update m).read q = match m.read q with
      | some v => some v
      | none => l.read q := by
  induction m generalizing l with
  | nil => simp [Levels.update]
  | cons x rest ih =>
    have hnone := Levels.read_none_of_wf hm
    have := ih (List.pairwise_cons.mp hm).2 (l.set x.1 x.2)
    simp only [Levels.update, List.foldl_cons] at this ⊢
    rw [this, Levels.read_set]
    by_cases hq : q = x.1
    · subst hq; simp [hnone, Levels.read]
    · simp [Levels.read, hq]

theorem Levels.read_forget (l : Levels) (ps : List PinId) (q : PinId) :
    (l.forget ps).read q = if q ∈ ps then none else l.read q := by
  induction ps generalizing l with
  | nil => simp [Levels.forget]
  | cons p rest ih =>
    have := ih (Levels.erase l p)
    simp only [Levels.forget, List.foldl_cons] at this ⊢
    rw [this, Levels.read_erase]
    by_cases h1 : q ∈ rest <;> by_cases h2 : q = p <;> simp [h1, h2]

theorem Levels.read_none_of_not_mem {l : Levels} {p : PinId} (h : p ∉ l.map (·.1)) : l.read p = none := by
  induction l with
  | nil => rfl
  | cons x rest ih =>
    simp only [List.map_cons, List.mem_cons, not_or] at h
    simp [Levels.read, h.1, ih h.2]

/-! ### The bulk write of a frame -/

theorem Levels.foldl_set_wf {α : Type} (f : α → PinId) (g : α → Bool) (xs : List α) {m : Levels} (h : m.wf) :
    Levels.wf (xs.foldl (fun m x => m.set (f x) (g x)) m) := by
  induction xs generalizing m with
  | nil => exact h
  | cons x rest ih => exact ih (Levels.set_wf _ _ h)

theorem frameMap_wf (p : Pins) (value : Byte) (width : Nat) (mode : Mode) : (frameMap p value width mode).wf := by
  unfold frameMap
  apply Levels.foldl_set_wf
  cases p.rw with
  | none => exact Levels.set_wf _ _ List.Pairwise.nil
  | some rw => exact Levels.set_wf _ _ (Levels.set_wf _ _ List.Pairwise.nil)

/-- Reading a map after writes at distinct pins: the value of the one write at that pin, or what was there. -/
theorem Levels.read_foldl_set (g : Nat → Bool) (xs : List (PinId × Nat)) (m : Levels) (q : PinId)
    (hd : (xs.map (·.1)).Nodup) :
    Levels.read (xs.foldl (fun m x => m.set x.1 (g x.2)) m) q =
      match xs.find? (fun x => x.1 = q) with
      | some x => some (g x.2)
      | none => m.read q := by
  induction xs generalizing m with
  | nil => rfl
  | cons x rest ih =>
    simp only [List.map_cons, List.nodup_cons] at hd
    simp only [List.foldl_cons]
    rw [ih _ hd.2]
    by_cases hq : x.1 = q
    · subst hq
      have : rest.find? (fun y => y.1 = x.1) = none := by
        simp only [List.find?_eq_none, decide_eq_true_eq]
        intro y hy h
        exact hd.1 (List.mem_map.mpr ⟨y, hy, h⟩)
      simp [this, Levels.read_set]
    · have hq' : ¬ q = x.1 := fun h => hq h.symm
      simp [hq, Levels.read_set, hq']

end Sys2Proof.Machine
end

