-- ==== Sys2Proof/Laws/State.lean ====
section
/-! SUPPORT. One lemma per field per update of State, each true by rfl, so that no proof unfolds a record update. -/

set_option Elab.async false

namespace Sys2Proof.Machine

section
variable (s : State)

@[simp] theorem State.setDfunc_cfg (v : Byte) : (s.setDfunc v).cfg = s.cfg := rfl
@[simp] theorem State.setDfunc_dfunc (v : Byte) : (s.setDfunc v).dfunc = v := rfl
@[simp] theorem State.setDfunc_dctrl (v : Byte) : (s.setDfunc v).dctrl = s.dctrl := rfl
@[simp] theorem State.setDfunc_emode (v : Byte) : (s.setDfunc v).emode = s.emode := rfl
@[simp] theorem State.setDfunc_blvl (v : Byte) : (s.setDfunc v).blvl = s.blvl := rfl
@[simp] theorem State.setDfunc_lvl (v : Byte) : (s.setDfunc v).lvl = s.lvl := rfl
@[simp] theorem State.setDfunc_initialized (v : Byte) : (s.setDfunc v).initialized = s.initialized := rfl
@[simp] theorem State.setDfunc_busy (v : Byte) : (s.setDfunc v).busy = s.busy := rfl
@[simp] theorem State.setDfunc_fault (v : Byte) : (s.setDfunc v).fault = s.fault := rfl
@[simp] theorem State.setDfunc_trace (v : Byte) : (s.setDfunc v).trace = s.trace := rfl
@[simp] theorem State.setDfunc_latches (v : Byte) : (s.setDfunc v).latches = s.latches := rfl
@[simp] theorem State.setDfunc_responses (v : Byte) : (s.setDfunc v).responses = s.responses := rfl
@[simp] theorem State.setDfunc_port (v : Byte) : (s.setDfunc v).port = s.port := rfl
@[simp] theorem State.setDfunc_inbox (v : Byte) : (s.setDfunc v).inbox = s.inbox := rfl
@[simp] theorem State.setDfunc_resetIn (v : Byte) : (s.setDfunc v).resetIn = s.resetIn := rfl

@[simp] theorem State.setDctrl_cfg (v : Byte) : (s.setDctrl v).cfg = s.cfg := rfl
@[simp] theorem State.setDctrl_dfunc (v : Byte) : (s.setDctrl v).dfunc = s.dfunc := rfl
@[simp] theorem State.setDctrl_dctrl (v : Byte) : (s.setDctrl v).dctrl = v := rfl
@[simp] theorem State.setDctrl_emode (v : Byte) : (s.setDctrl v).emode = s.emode := rfl
@[simp] theorem State.setDctrl_blvl (v : Byte) : (s.setDctrl v).blvl = s.blvl := rfl
@[simp] theorem State.setDctrl_lvl (v : Byte) : (s.setDctrl v).lvl = s.lvl := rfl
@[simp] theorem State.setDctrl_initialized (v : Byte) : (s.setDctrl v).initialized = s.initialized := rfl
@[simp] theorem State.setDctrl_busy (v : Byte) : (s.setDctrl v).busy = s.busy := rfl
@[simp] theorem State.setDctrl_fault (v : Byte) : (s.setDctrl v).fault = s.fault := rfl
@[simp] theorem State.setDctrl_trace (v : Byte) : (s.setDctrl v).trace = s.trace := rfl
@[simp] theorem State.setDctrl_latches (v : Byte) : (s.setDctrl v).latches = s.latches := rfl
@[simp] theorem State.setDctrl_responses (v : Byte) : (s.setDctrl v).responses = s.responses := rfl
@[simp] theorem State.setDctrl_port (v : Byte) : (s.setDctrl v).port = s.port := rfl
@[simp] theorem State.setDctrl_inbox (v : Byte) : (s.setDctrl v).inbox = s.inbox := rfl
@[simp] theorem State.setDctrl_resetIn (v : Byte) : (s.setDctrl v).resetIn = s.resetIn := rfl

@[simp] theorem State.setEmode_cfg (v : Byte) : (s.setEmode v).cfg = s.cfg := rfl
@[simp] theorem State.setEmode_dfunc (v : Byte) : (s.setEmode v).dfunc = s.dfunc := rfl
@[simp] theorem State.setEmode_dctrl (v : Byte) : (s.setEmode v).dctrl = s.dctrl := rfl
@[simp] theorem State.setEmode_emode (v : Byte) : (s.setEmode v).emode = v := rfl
@[simp] theorem State.setEmode_blvl (v : Byte) : (s.setEmode v).blvl = s.blvl := rfl
@[simp] theorem State.setEmode_lvl (v : Byte) : (s.setEmode v).lvl = s.lvl := rfl
@[simp] theorem State.setEmode_initialized (v : Byte) : (s.setEmode v).initialized = s.initialized := rfl
@[simp] theorem State.setEmode_busy (v : Byte) : (s.setEmode v).busy = s.busy := rfl
@[simp] theorem State.setEmode_fault (v : Byte) : (s.setEmode v).fault = s.fault := rfl
@[simp] theorem State.setEmode_trace (v : Byte) : (s.setEmode v).trace = s.trace := rfl
@[simp] theorem State.setEmode_latches (v : Byte) : (s.setEmode v).latches = s.latches := rfl
@[simp] theorem State.setEmode_responses (v : Byte) : (s.setEmode v).responses = s.responses := rfl
@[simp] theorem State.setEmode_port (v : Byte) : (s.setEmode v).port = s.port := rfl
@[simp] theorem State.setEmode_inbox (v : Byte) : (s.setEmode v).inbox = s.inbox := rfl
@[simp] theorem State.setEmode_resetIn (v : Byte) : (s.setEmode v).resetIn = s.resetIn := rfl

@[simp] theorem State.setBlvl_cfg (v : Option Backlight) : (s.setBlvl v).cfg = s.cfg := rfl
@[simp] theorem State.setBlvl_dfunc (v : Option Backlight) : (s.setBlvl v).dfunc = s.dfunc := rfl
@[simp] theorem State.setBlvl_dctrl (v : Option Backlight) : (s.setBlvl v).dctrl = s.dctrl := rfl
@[simp] theorem State.setBlvl_emode (v : Option Backlight) : (s.setBlvl v).emode = s.emode := rfl
@[simp] theorem State.setBlvl_blvl (v : Option Backlight) : (s.setBlvl v).blvl = v := rfl
@[simp] theorem State.setBlvl_lvl (v : Option Backlight) : (s.setBlvl v).lvl = s.lvl := rfl
@[simp] theorem State.setBlvl_initialized (v : Option Backlight) : (s.setBlvl v).initialized = s.initialized := rfl
@[simp] theorem State.setBlvl_busy (v : Option Backlight) : (s.setBlvl v).busy = s.busy := rfl
@[simp] theorem State.setBlvl_fault (v : Option Backlight) : (s.setBlvl v).fault = s.fault := rfl
@[simp] theorem State.setBlvl_trace (v : Option Backlight) : (s.setBlvl v).trace = s.trace := rfl
@[simp] theorem State.setBlvl_latches (v : Option Backlight) : (s.setBlvl v).latches = s.latches := rfl
@[simp] theorem State.setBlvl_responses (v : Option Backlight) : (s.setBlvl v).responses = s.responses := rfl
@[simp] theorem State.setBlvl_port (v : Option Backlight) : (s.setBlvl v).port = s.port := rfl
@[simp] theorem State.setBlvl_inbox (v : Option Backlight) : (s.setBlvl v).inbox = s.inbox := rfl
@[simp] theorem State.setBlvl_resetIn (v : Option Backlight) : (s.setBlvl v).resetIn = s.resetIn := rfl

@[simp] theorem State.setLvl_cfg (v : Levels) : (s.setLvl v).cfg = s.cfg := rfl
@[simp] theorem State.setLvl_dfunc (v : Levels) : (s.setLvl v).dfunc = s.dfunc := rfl
@[simp] theorem State.setLvl_dctrl (v : Levels) : (s.setLvl v).dctrl = s.dctrl := rfl
@[simp] theorem State.setLvl_emode (v : Levels) : (s.setLvl v).emode = s.emode := rfl
@[simp] theorem State.setLvl_blvl (v : Levels) : (s.setLvl v).blvl = s.blvl := rfl
@[simp] theorem State.setLvl_lvl (v : Levels) : (s.setLvl v).lvl = v := rfl
@[simp] theorem State.setLvl_initialized (v : Levels) : (s.setLvl v).initialized = s.initialized := rfl
@[simp] theorem State.setLvl_busy (v : Levels) : (s.setLvl v).busy = s.busy := rfl
@[simp] theorem State.setLvl_fault (v : Levels) : (s.setLvl v).fault = s.fault := rfl
@[simp] theorem State.setLvl_trace (v : Levels) : (s.setLvl v).trace = s.trace := rfl
@[simp] theorem State.setLvl_latches (v : Levels) : (s.setLvl v).latches = s.latches := rfl
@[simp] theorem State.setLvl_responses (v : Levels) : (s.setLvl v).responses = s.responses := rfl
@[simp] theorem State.setLvl_port (v : Levels) : (s.setLvl v).port = s.port := rfl
@[simp] theorem State.setLvl_inbox (v : Levels) : (s.setLvl v).inbox = s.inbox := rfl
@[simp] theorem State.setLvl_resetIn (v : Levels) : (s.setLvl v).resetIn = s.resetIn := rfl

@[simp] theorem State.setInitialized_cfg (v : Bool) : (s.setInitialized v).cfg = s.cfg := rfl
@[simp] theorem State.setInitialized_dfunc (v : Bool) : (s.setInitialized v).dfunc = s.dfunc := rfl
@[simp] theorem State.setInitialized_dctrl (v : Bool) : (s.setInitialized v).dctrl = s.dctrl := rfl
@[simp] theorem State.setInitialized_emode (v : Bool) : (s.setInitialized v).emode = s.emode := rfl
@[simp] theorem State.setInitialized_blvl (v : Bool) : (s.setInitialized v).blvl = s.blvl := rfl
@[simp] theorem State.setInitialized_lvl (v : Bool) : (s.setInitialized v).lvl = s.lvl := rfl
@[simp] theorem State.setInitialized_initialized (v : Bool) : (s.setInitialized v).initialized = v := rfl
@[simp] theorem State.setInitialized_busy (v : Bool) : (s.setInitialized v).busy = s.busy := rfl
@[simp] theorem State.setInitialized_fault (v : Bool) : (s.setInitialized v).fault = s.fault := rfl
@[simp] theorem State.setInitialized_trace (v : Bool) : (s.setInitialized v).trace = s.trace := rfl
@[simp] theorem State.setInitialized_latches (v : Bool) : (s.setInitialized v).latches = s.latches := rfl
@[simp] theorem State.setInitialized_responses (v : Bool) : (s.setInitialized v).responses = s.responses := rfl
@[simp] theorem State.setInitialized_port (v : Bool) : (s.setInitialized v).port = s.port := rfl
@[simp] theorem State.setInitialized_inbox (v : Bool) : (s.setInitialized v).inbox = s.inbox := rfl
@[simp] theorem State.setInitialized_resetIn (v : Bool) : (s.setInitialized v).resetIn = s.resetIn := rfl

@[simp] theorem State.setBusy_cfg (v : Bool) : (s.setBusy v).cfg = s.cfg := rfl
@[simp] theorem State.setBusy_dfunc (v : Bool) : (s.setBusy v).dfunc = s.dfunc := rfl
@[simp] theorem State.setBusy_dctrl (v : Bool) : (s.setBusy v).dctrl = s.dctrl := rfl
@[simp] theorem State.setBusy_emode (v : Bool) : (s.setBusy v).emode = s.emode := rfl
@[simp] theorem State.setBusy_blvl (v : Bool) : (s.setBusy v).blvl = s.blvl := rfl
@[simp] theorem State.setBusy_lvl (v : Bool) : (s.setBusy v).lvl = s.lvl := rfl
@[simp] theorem State.setBusy_initialized (v : Bool) : (s.setBusy v).initialized = s.initialized := rfl
@[simp] theorem State.setBusy_busy (v : Bool) : (s.setBusy v).busy = v := rfl
@[simp] theorem State.setBusy_fault (v : Bool) : (s.setBusy v).fault = s.fault := rfl
@[simp] theorem State.setBusy_trace (v : Bool) : (s.setBusy v).trace = s.trace := rfl
@[simp] theorem State.setBusy_latches (v : Bool) : (s.setBusy v).latches = s.latches := rfl
@[simp] theorem State.setBusy_responses (v : Bool) : (s.setBusy v).responses = s.responses := rfl
@[simp] theorem State.setBusy_port (v : Bool) : (s.setBusy v).port = s.port := rfl
@[simp] theorem State.setBusy_inbox (v : Bool) : (s.setBusy v).inbox = s.inbox := rfl
@[simp] theorem State.setBusy_resetIn (v : Bool) : (s.setBusy v).resetIn = s.resetIn := rfl

@[simp] theorem State.setFault_cfg (v : FaultFlag) : (s.setFault v).cfg = s.cfg := rfl
@[simp] theorem State.setFault_dfunc (v : FaultFlag) : (s.setFault v).dfunc = s.dfunc := rfl
@[simp] theorem State.setFault_dctrl (v : FaultFlag) : (s.setFault v).dctrl = s.dctrl := rfl
@[simp] theorem State.setFault_emode (v : FaultFlag) : (s.setFault v).emode = s.emode := rfl
@[simp] theorem State.setFault_blvl (v : FaultFlag) : (s.setFault v).blvl = s.blvl := rfl
@[simp] theorem State.setFault_lvl (v : FaultFlag) : (s.setFault v).lvl = s.lvl := rfl
@[simp] theorem State.setFault_initialized (v : FaultFlag) : (s.setFault v).initialized = s.initialized := rfl
@[simp] theorem State.setFault_busy (v : FaultFlag) : (s.setFault v).busy = s.busy := rfl
@[simp] theorem State.setFault_fault (v : FaultFlag) : (s.setFault v).fault = v := rfl
@[simp] theorem State.setFault_trace (v : FaultFlag) : (s.setFault v).trace = s.trace := rfl
@[simp] theorem State.setFault_latches (v : FaultFlag) : (s.setFault v).latches = s.latches := rfl
@[simp] theorem State.setFault_responses (v : FaultFlag) : (s.setFault v).responses = s.responses := rfl
@[simp] theorem State.setFault_port (v : FaultFlag) : (s.setFault v).port = s.port := rfl
@[simp] theorem State.setFault_inbox (v : FaultFlag) : (s.setFault v).inbox = s.inbox := rfl
@[simp] theorem State.setFault_resetIn (v : FaultFlag) : (s.setFault v).resetIn = s.resetIn := rfl

@[simp] theorem State.emit_cfg (v : List Event) : (s.emit v).cfg = s.cfg := rfl
@[simp] theorem State.emit_dfunc (v : List Event) : (s.emit v).dfunc = s.dfunc := rfl
@[simp] theorem State.emit_dctrl (v : List Event) : (s.emit v).dctrl = s.dctrl := rfl
@[simp] theorem State.emit_emode (v : List Event) : (s.emit v).emode = s.emode := rfl
@[simp] theorem State.emit_blvl (v : List Event) : (s.emit v).blvl = s.blvl := rfl
@[simp] theorem State.emit_lvl (v : List Event) : (s.emit v).lvl = s.lvl := rfl
@[simp] theorem State.emit_initialized (v : List Event) : (s.emit v).initialized = s.initialized := rfl
@[simp] theorem State.emit_busy (v : List Event) : (s.emit v).busy = s.busy := rfl
@[simp] theorem State.emit_fault (v : List Event) : (s.emit v).fault = s.fault := rfl
@[simp] theorem State.emit_trace (v : List Event) : (s.emit v).trace = s.trace ++ v := rfl
@[simp] theorem State.emit_latches (v : List Event) : (s.emit v).latches = s.latches := rfl
@[simp] theorem State.emit_responses (v : List Event) : (s.emit v).responses = s.responses := rfl
@[simp] theorem State.emit_port (v : List Event) : (s.emit v).port = s.port := rfl
@[simp] theorem State.emit_inbox (v : List Event) : (s.emit v).inbox = s.inbox := rfl
@[simp] theorem State.emit_resetIn (v : List Event) : (s.emit v).resetIn = s.resetIn := rfl

@[simp] theorem State.setLatches_cfg (v : Latches) : (s.setLatches v).cfg = s.cfg := rfl
@[simp] theorem State.setLatches_dfunc (v : Latches) : (s.setLatches v).dfunc = s.dfunc := rfl
@[simp] theorem State.setLatches_dctrl (v : Latches) : (s.setLatches v).dctrl = s.dctrl := rfl
@[simp] theorem State.setLatches_emode (v : Latches) : (s.setLatches v).emode = s.emode := rfl
@[simp] theorem State.setLatches_blvl (v : Latches) : (s.setLatches v).blvl = s.blvl := rfl
@[simp] theorem State.setLatches_lvl (v : Latches) : (s.setLatches v).lvl = s.lvl := rfl
@[simp] theorem State.setLatches_initialized (v : Latches) : (s.setLatches v).initialized = s.initialized := rfl
@[simp] theorem State.setLatches_busy (v : Latches) : (s.setLatches v).busy = s.busy := rfl
@[simp] theorem State.setLatches_fault (v : Latches) : (s.setLatches v).fault = s.fault := rfl
@[simp] theorem State.setLatches_trace (v : Latches) : (s.setLatches v).trace = s.trace := rfl
@[simp] theorem State.setLatches_latches (v : Latches) : (s.setLatches v).latches = v := rfl
@[simp] theorem State.setLatches_responses (v : Latches) : (s.setLatches v).responses = s.responses := rfl
@[simp] theorem State.setLatches_port (v : Latches) : (s.setLatches v).port = s.port := rfl
@[simp] theorem State.setLatches_inbox (v : Latches) : (s.setLatches v).inbox = s.inbox := rfl
@[simp] theorem State.setLatches_resetIn (v : Latches) : (s.setLatches v).resetIn = s.resetIn := rfl

@[simp] theorem State.respond_cfg (v : Word) : (s.respond v).cfg = s.cfg := rfl
@[simp] theorem State.respond_dfunc (v : Word) : (s.respond v).dfunc = s.dfunc := rfl
@[simp] theorem State.respond_dctrl (v : Word) : (s.respond v).dctrl = s.dctrl := rfl
@[simp] theorem State.respond_emode (v : Word) : (s.respond v).emode = s.emode := rfl
@[simp] theorem State.respond_blvl (v : Word) : (s.respond v).blvl = s.blvl := rfl
@[simp] theorem State.respond_lvl (v : Word) : (s.respond v).lvl = s.lvl := rfl
@[simp] theorem State.respond_initialized (v : Word) : (s.respond v).initialized = s.initialized := rfl
@[simp] theorem State.respond_busy (v : Word) : (s.respond v).busy = s.busy := rfl
@[simp] theorem State.respond_fault (v : Word) : (s.respond v).fault = s.fault := rfl
@[simp] theorem State.respond_trace (v : Word) : (s.respond v).trace = s.trace := rfl
@[simp] theorem State.respond_latches (v : Word) : (s.respond v).latches = s.latches := rfl
@[simp] theorem State.respond_responses (v : Word) : (s.respond v).responses = s.responses ++ [v] := rfl
@[simp] theorem State.respond_port (v : Word) : (s.respond v).port = s.port := rfl
@[simp] theorem State.respond_inbox (v : Word) : (s.respond v).inbox = s.inbox := rfl
@[simp] theorem State.respond_resetIn (v : Word) : (s.respond v).resetIn = s.resetIn := rfl

@[simp] theorem State.setPort_cfg (v : Port) : (s.setPort v).cfg = s.cfg := rfl
@[simp] theorem State.setPort_dfunc (v : Port) : (s.setPort v).dfunc = s.dfunc := rfl
@[simp] theorem State.setPort_dctrl (v : Port) : (s.setPort v).dctrl = s.dctrl := rfl
@[simp] theorem State.setPort_emode (v : Port) : (s.setPort v).emode = s.emode := rfl
@[simp] theorem State.setPort_blvl (v : Port) : (s.setPort v).blvl = s.blvl := rfl
@[simp] theorem State.setPort_lvl (v : Port) : (s.setPort v).lvl = s.lvl := rfl
@[simp] theorem State.setPort_initialized (v : Port) : (s.setPort v).initialized = s.initialized := rfl
@[simp] theorem State.setPort_busy (v : Port) : (s.setPort v).busy = s.busy := rfl
@[simp] theorem State.setPort_fault (v : Port) : (s.setPort v).fault = s.fault := rfl
@[simp] theorem State.setPort_trace (v : Port) : (s.setPort v).trace = s.trace := rfl
@[simp] theorem State.setPort_latches (v : Port) : (s.setPort v).latches = s.latches := rfl
@[simp] theorem State.setPort_responses (v : Port) : (s.setPort v).responses = s.responses := rfl
@[simp] theorem State.setPort_port (v : Port) : (s.setPort v).port = v := rfl
@[simp] theorem State.setPort_inbox (v : Port) : (s.setPort v).inbox = s.inbox := rfl
@[simp] theorem State.setPort_resetIn (v : Port) : (s.setPort v).resetIn = s.resetIn := rfl

@[simp] theorem State.setInbox_cfg (v : List Word) : (s.setInbox v).cfg = s.cfg := rfl
@[simp] theorem State.setInbox_dfunc (v : List Word) : (s.setInbox v).dfunc = s.dfunc := rfl
@[simp] theorem State.setInbox_dctrl (v : List Word) : (s.setInbox v).dctrl = s.dctrl := rfl
@[simp] theorem State.setInbox_emode (v : List Word) : (s.setInbox v).emode = s.emode := rfl
@[simp] theorem State.setInbox_blvl (v : List Word) : (s.setInbox v).blvl = s.blvl := rfl
@[simp] theorem State.setInbox_lvl (v : List Word) : (s.setInbox v).lvl = s.lvl := rfl
@[simp] theorem State.setInbox_initialized (v : List Word) : (s.setInbox v).initialized = s.initialized := rfl
@[simp] theorem State.setInbox_busy (v : List Word) : (s.setInbox v).busy = s.busy := rfl
@[simp] theorem State.setInbox_fault (v : List Word) : (s.setInbox v).fault = s.fault := rfl
@[simp] theorem State.setInbox_trace (v : List Word) : (s.setInbox v).trace = s.trace := rfl
@[simp] theorem State.setInbox_latches (v : List Word) : (s.setInbox v).latches = s.latches := rfl
@[simp] theorem State.setInbox_responses (v : List Word) : (s.setInbox v).responses = s.responses := rfl
@[simp] theorem State.setInbox_port (v : List Word) : (s.setInbox v).port = s.port := rfl
@[simp] theorem State.setInbox_inbox (v : List Word) : (s.setInbox v).inbox = v := rfl
@[simp] theorem State.setInbox_resetIn (v : List Word) : (s.setInbox v).resetIn = s.resetIn := rfl

@[simp] theorem State.setResetIn_cfg (v : Option Config) : (s.setResetIn v).cfg = s.cfg := rfl
@[simp] theorem State.setResetIn_dfunc (v : Option Config) : (s.setResetIn v).dfunc = s.dfunc := rfl
@[simp] theorem State.setResetIn_dctrl (v : Option Config) : (s.setResetIn v).dctrl = s.dctrl := rfl
@[simp] theorem State.setResetIn_emode (v : Option Config) : (s.setResetIn v).emode = s.emode := rfl
@[simp] theorem State.setResetIn_blvl (v : Option Config) : (s.setResetIn v).blvl = s.blvl := rfl
@[simp] theorem State.setResetIn_lvl (v : Option Config) : (s.setResetIn v).lvl = s.lvl := rfl
@[simp] theorem State.setResetIn_initialized (v : Option Config) : (s.setResetIn v).initialized = s.initialized := rfl
@[simp] theorem State.setResetIn_busy (v : Option Config) : (s.setResetIn v).busy = s.busy := rfl
@[simp] theorem State.setResetIn_fault (v : Option Config) : (s.setResetIn v).fault = s.fault := rfl
@[simp] theorem State.setResetIn_trace (v : Option Config) : (s.setResetIn v).trace = s.trace := rfl
@[simp] theorem State.setResetIn_latches (v : Option Config) : (s.setResetIn v).latches = s.latches := rfl
@[simp] theorem State.setResetIn_responses (v : Option Config) : (s.setResetIn v).responses = s.responses := rfl
@[simp] theorem State.setResetIn_port (v : Option Config) : (s.setResetIn v).port = s.port := rfl
@[simp] theorem State.setResetIn_inbox (v : Option Config) : (s.setResetIn v).inbox = s.inbox := rfl
@[simp] theorem State.setResetIn_resetIn (v : Option Config) : (s.setResetIn v).resetIn = v := rfl

end

end Sys2Proof.Machine
end

