-- ==== Sys2Proof/Laws/Run.lean ====
section
/-! SUPPORT. The pin port's streams, and everything a run of statements can do: its result when no call fails, its result when one does, and its frame in either case. -/

set_option Elab.async false

namespace Sys2Proof.Machine

/-! ### The pin port -/

@[simp] theorem Port.tio_eq (p : Port) : p.tio = p.tioAt 0 := by
  unfold Port.tio Port.tioAt
  cases p.tioNext <;> simp

@[simp] theorem Port.outcome_eq (p : Port) : p.outcome = p.outcomeAt 0 := by
  unfold Port.outcome Port.outcomeAt
  cases p.outcomes <;> simp

theorem Port.afterTio_eq (p : Port) : p.afterTio = p.after 1 0 := by
  simp [Port.afterTio, Port.after]

theorem Port.afterCall_eq (p : Port) : p.afterCall = p.after 0 1 := by
  simp [Port.afterCall, Port.after]

@[simp] theorem Port.after_zero (p : Port) : p.after 0 0 = p := by simp [Port.after]

@[simp] theorem Port.after_after (p : Port) (a b c d : Nat) :
    (p.after a b).after c d = p.after (a + c) (b + d) := by
  simp [Port.after, Nat.add_assoc]

@[simp] theorem Port.tioAt_after (p : Port) (a b k : Nat) : (p.after a b).tioAt k = p.tioAt (k + a) := by
  simp [Port.tioAt, Port.after, Nat.add_comm, Nat.add_left_comm]

theorem Port.tioAt_after_fun (p : Port) (a b : Nat) : (p.after a b).tioAt = fun k => p.tioAt (k + a) :=
  funext (p.tioAt_after a b)

@[simp] theorem Port.outcomeAt_after (p : Port) (a b k : Nat) :
    (p.after a b).outcomeAt k = p.outcomeAt (k + b) := by
  simp [Port.outcomeAt, Port.after, Nat.add_comm, Nat.add_left_comm]

theorem Port.callsOk_mono {p : Port} {m n : Nat} (h : p.callsOk n) (hmn : m ≤ n) : p.callsOk m :=
  fun k hk => h k (Nat.lt_of_lt_of_le hk hmn)

theorem Port.callsOk_after {p : Port} {n : Nat} (a b : Nat) (h : p.callsOk (b + n)) : (p.after a b).callsOk n :=
  fun k hk => by simpa using h (k + b) (by omega)

/-! ### Replaying events on `LVL` -/

@[simp] theorem Levels.replay_nil (l : Levels) : l.replay [] = l := rfl

@[simp] theorem Levels.replay_append (l : Levels) (xs ys : List Event) :
    l.replay (xs ++ ys) = (l.replay xs).replay ys := List.foldl_append

@[simp] theorem Levels.replay_call (l : Levels) (c : PinCall) (es : List Event) :
    l.replay (.call c :: es) = (l.update c.levels).replay es := rfl

@[simp] theorem Levels.replay_fail (l : Levels) (c : PinCall) (i : PortInfo) (es : List Event) :
    l.replay (.fail c i :: es) = (l.forget c.pins).replay es := rfl

@[simp] theorem Levels.replay_tq (l : Levels) (t : Duration) (es : List Event) :
    l.replay (.tq t :: es) = l.replay es := rfl

@[simp] theorem Levels.replay_sl (l : Levels) (t : Duration) (es : List Event) :
    l.replay (.sl t :: es) = l.replay es := rfl

@[simp] theorem Levels.replay_delay (l : Levels) (d t : Duration) : l.replay (delayEvents d t) = l := by
  unfold delayEvents
  split <;> rfl

/-! ### What a statement list does when no call fails -/

/-- The queries of a statement. -/
def Stmt.asks : Stmt → Nat
  | .delay _ => 1
  | _ => 0

/-- The calls of a statement. -/
def Stmt.calls : Stmt → Nat
  | .call _ => 1
  | _ => 0

/-- The events of a statement whose call succeeds. -/
def Stmt.events (t : Nat → Duration) : Stmt → List Event
  | .call c => [.call c]
  | .delay d => delayEvents d (t 0)
  | _ => []

def stmtsAsks (b : List Stmt) : Nat := (b.map Stmt.asks).sum
def stmtsCalls (b : List Stmt) : Nat := (b.map Stmt.calls).sum

def stmtsEvents : List Stmt → (Nat → Duration) → List Event
  | [], _ => []
  | st :: rest, t => st.events t ++ stmtsEvents rest (fun k => t (k + st.asks))

/-- The registers a statement list leaves. -/
def stmtsDctrl : List Stmt → Byte → Byte
  | [], v => v
  | .setDctrl w :: rest, _ => stmtsDctrl rest w
  | _ :: rest, v => stmtsDctrl rest v

def stmtsEmode : List Stmt → Byte → Byte
  | [], v => v
  | .setEmode w :: rest, _ => stmtsEmode rest w
  | _ :: rest, v => stmtsEmode rest v

def stmtsBlvl : List Stmt → Option Backlight → Option Backlight
  | [], v => v
  | .setBlvl w :: rest, _ => stmtsBlvl rest (some w)
  | _ :: rest, v => stmtsBlvl rest v

/-- The state after a statement list none of whose calls fails, but for the latches. -/
def afterStmts (b : List Stmt) (s : State) : State :=
  { s with
    dctrl := stmtsDctrl b s.dctrl
    emode := stmtsEmode b s.emode
    blvl := stmtsBlvl b s.blvl
    lvl := s.lvl.replay (stmtsEvents b s.port.tioAt)
    trace := s.trace ++ stmtsEvents b s.port.tioAt
    port := s.port.after (stmtsAsks b) (stmtsCalls b) }

theorem Duration.shorter_zero_minus (d t : Duration) :
    Duration.shorter (.ofUs 0) (d.minus t) ↔ t.shorter d := by
  simp [Duration.shorter, Duration.minus, Duration.ofRat, Duration.ofUs]

/-- `delay(d)`: the events of R100, one query used up. -/
theorem doDelay_eq (d : Duration) (s : State) :
    ∃ l, l.req = s.latches.req ∧ doDelay d s =
      ((s.emit (delayEvents d (s.port.tioAt 0))).setPort (s.port.after 1 0)).setLatches l := by
  by_cases h : (s.port.tioAt 0).shorter d
  · refine ⟨{ s.latches with dly := .ofUs 0 }, rfl, ?_⟩
    simp [doDelay, askTio, sleepRest, Duration.shorter_zero_minus, h, delayEvents, Port.afterTio_eq,
      State.emit, State.setPort, State.setLatches]
  · refine ⟨{ s.latches with dly := .ofUs 0 }, rfl, ?_⟩
    simp [doDelay, askTio, sleepRest, Duration.shorter_zero_minus, h, delayEvents, Port.afterTio_eq,
      State.emit, State.setPort, State.setLatches]

/-- One statement whose call, if it makes one, succeeds. -/
theorem Stmt.run_ok (st : Stmt) (s : State) (h : s.port.callsOk st.calls) :
    ∃ l, l.req = s.latches.req ∧ st.run s = .done ((afterStmts [st] s).setLatches l) := by
  cases st with
  | call c =>
    have h0 : s.port.outcomeAt 0 = none := h 0 (by simp [Stmt.calls])
    refine ⟨s.latches, rfl, ?_⟩
    simp [Stmt.run, doCall, h0, afterStmts, commitCall, stmtsEvents, Stmt.events, stmtsAsks, stmtsCalls,
      Stmt.asks, Stmt.calls, stmtsDctrl, stmtsEmode, stmtsBlvl, Port.afterCall_eq,
      State.emit, State.setLvl, State.setPort, State.setLatches]
  | delay d =>
    obtain ⟨l, hreq, hl⟩ := doDelay_eq d s
    refine ⟨l, hreq, ?_⟩
    simp [Stmt.run, hl, afterStmts, stmtsEvents, Stmt.events, stmtsAsks, stmtsCalls,
      Stmt.asks, Stmt.calls, stmtsDctrl, stmtsEmode, stmtsBlvl,
      State.emit, State.setPort, State.setLatches]
  | present n =>
    exact ⟨{ s.latches with nib := some n }, rfl, by
      simp [Stmt.run, afterStmts, stmtsEvents, Stmt.events, stmtsAsks, stmtsCalls, Stmt.asks, Stmt.calls,
        stmtsDctrl, stmtsEmode, stmtsBlvl, State.setLatches]⟩
  | setDctrl v =>
    exact ⟨s.latches, rfl, by
      simp [Stmt.run, afterStmts, stmtsEvents, Stmt.events, stmtsAsks, stmtsCalls, Stmt.asks, Stmt.calls,
        stmtsDctrl, stmtsEmode, stmtsBlvl, State.setDctrl, State.setLatches]⟩
  | setEmode v =>
    exact ⟨s.latches, rfl, by
      simp [Stmt.run, afterStmts, stmtsEvents, Stmt.events, stmtsAsks, stmtsCalls, Stmt.asks, Stmt.calls,
        stmtsDctrl, stmtsEmode, stmtsBlvl, State.setEmode, State.setLatches]⟩
  | setBlvl v =>
    exact ⟨s.latches, rfl, by
      simp [Stmt.run, afterStmts, stmtsEvents, Stmt.events, stmtsAsks, stmtsCalls, Stmt.asks, Stmt.calls,
        stmtsDctrl, stmtsEmode, stmtsBlvl, State.setBlvl, State.setLatches]⟩

theorem stmtsDctrl_append (a b : List Stmt) (v : Byte) : stmtsDctrl (a ++ b) v = stmtsDctrl b (stmtsDctrl a v) := by
  induction a generalizing v with
  | nil => rfl
  | cons st rest ih => cases st <;> exact ih _

theorem stmtsEmode_append (a b : List Stmt) (v : Byte) : stmtsEmode (a ++ b) v = stmtsEmode b (stmtsEmode a v) := by
  induction a generalizing v with
  | nil => rfl
  | cons st rest ih => cases st <;> exact ih _

theorem stmtsBlvl_append (a b : List Stmt) (v : Option Backlight) :
    stmtsBlvl (a ++ b) v = stmtsBlvl b (stmtsBlvl a v) := by
  induction a generalizing v with
  | nil => rfl
  | cons st rest ih => cases st <;> exact ih _

@[simp] theorem stmtsAsks_append (a b : List Stmt) : stmtsAsks (a ++ b) = stmtsAsks a + stmtsAsks b := by
  simp [stmtsAsks]

@[simp] theorem stmtsCalls_append (a b : List Stmt) : stmtsCalls (a ++ b) = stmtsCalls a + stmtsCalls b := by
  simp [stmtsCalls]

theorem stmtsEvents_append (a b : List Stmt) (t : Nat → Duration) :
    stmtsEvents (a ++ b) t = stmtsEvents a t ++ stmtsEvents b (fun k => t (k + stmtsAsks a)) := by
  induction a generalizing t with
  | nil => simp [stmtsEvents, stmtsAsks]
  | cons st rest ih =>
    simp only [List.cons_append, stmtsEvents, ih, List.append_assoc]
    simp [stmtsAsks, Nat.add_assoc, Nat.add_comm (st.asks)]

theorem afterStmts_append (a b : List Stmt) (s : State) : afterStmts (a ++ b) s = afterStmts b (afterStmts a s) := by
  simp [afterStmts, stmtsDctrl_append, stmtsEmode_append, stmtsBlvl_append, stmtsEvents_append, Port.tioAt_after_fun]

@[simp] theorem afterStmts_setLatches (b : List Stmt) (l : Latches) (s : State) :
    afterStmts b (s.setLatches l) = (afterStmts b s).setLatches l := rfl

/-- A run none of whose calls fails: all of what it does, but for the latches. -/
theorem runStmts_ok (b : List Stmt) (s : State) (h : s.port.callsOk (stmtsCalls b)) :
    ∃ l, l.req = s.latches.req ∧ runStmts b s = .done ((afterStmts b s).setLatches l) := by
  induction b generalizing s with
  | nil => exact ⟨s.latches, rfl, by simp [runStmts, afterStmts, stmtsEvents, stmtsAsks, stmtsCalls, stmtsDctrl, stmtsEmode, stmtsBlvl, State.setLatches]⟩
  | cons st rest ih =>
    have hsum : stmtsCalls (st :: rest) = st.calls + stmtsCalls rest := by simp [stmtsCalls]
    obtain ⟨l, hreq, hl⟩ := st.run_ok s (Port.callsOk_mono h (by omega))
    have hrest : (nextStmt st ((afterStmts [st] s).setLatches l)).port.callsOk (stmtsCalls rest) := by
      have : stmtsCalls [st] = st.calls := by simp [stmtsCalls]
      simpa [nextStmt, afterStmts, this] using Port.callsOk_after (stmtsAsks [st]) st.calls (hsum ▸ h)
    obtain ⟨l', hreq', hl'⟩ := ih _ hrest
    refine ⟨l', hreq'.trans hreq, ?_⟩
    rw [show st :: rest = [st] ++ rest from rfl, afterStmts_append]
    simp only [List.singleton_append, runStmts, hl, hl']
    rfl

/-- A run whose first failing call is its `k`-th: what came before it was done, and the exception is taken. -/
theorem runStmts_fail (b : List Stmt) (s : State) (k : Nat) (info : PortInfo) (hk : k < stmtsCalls b)
    (h : s.port.callsOk k) (hf : s.port.outcomeAt k = some info) :
    ∃ pre c post l, b = pre ++ .call c :: post ∧ stmtsCalls pre = k ∧ l.req = s.latches.req ∧
      runStmts b s = .raised (takeException (.ioFailure c info)
        (((afterStmts pre s).setLatches l).setPort (s.port.after (stmtsAsks pre) (k + 1)))) := by
  induction b generalizing s k with
  | nil => simp [stmtsCalls] at hk
  | cons st rest ih =>
    have hsum : stmtsCalls (st :: rest) = st.calls + stmtsCalls rest := by simp [stmtsCalls]
    by_cases hst : st.calls ≤ k
    · obtain ⟨l, hreq, hl⟩ := st.run_ok s (Port.callsOk_mono h hst)
      have hport : (nextStmt st ((afterStmts [st] s).setLatches l)).port = s.port.after (stmtsAsks [st]) st.calls := by
        simp [nextStmt, afterStmts, stmtsCalls]
      obtain ⟨pre, c, post, l', hb, hc, hreq', hr⟩ := ih (nextStmt st ((afterStmts [st] s).setLatches l)) (k - st.calls)
        (by omega)
        (by rw [hport]; exact Port.callsOk_after _ _ (Port.callsOk_mono h (by omega)))
        (by rw [hport]; simpa [Nat.sub_add_cancel hst] using hf)
      refine ⟨st :: pre, c, post, l', by simp [hb], by simp [stmtsCalls] at hc ⊢; omega,
        hreq'.trans hreq, ?_⟩
      simp only [runStmts, hl, hr]
      rw [show st :: pre = [st] ++ pre from rfl, afterStmts_append]
      simp only [nextStmt, State.setLatches_port, State.setLatches_latches] at hport ⊢
      simp only [hport, Port.after_after, stmtsAsks_append]
      congr 3
      congr 1
      omega
    · cases st with
      | call c =>
        have hk0 : k = 0 := by simp [Stmt.calls] at hst; omega
        subst hk0
        refine ⟨[], c, rest, s.latches, rfl, rfl, rfl, ?_⟩
        simp [runStmts, Stmt.run, doCall, hf, Port.afterCall_eq, afterStmts, stmtsEvents, stmtsAsks, stmtsCalls,
          stmtsDctrl, stmtsEmode, stmtsBlvl, State.setPort, State.setLatches]
      | delay d => simp [Stmt.calls] at hst
      | present n => simp [Stmt.calls] at hst
      | setDctrl v => simp [Stmt.calls] at hst
      | setEmode v => simp [Stmt.calls] at hst
      | setBlvl v => simp [Stmt.calls] at hst

/-- Either no call of a run fails, or there is a first one that does. -/
theorem Port.callsOk_or_fail (p : Port) (n : Nat) :
    p.callsOk n ∨ ∃ k info, k < n ∧ p.callsOk k ∧ p.outcomeAt k = some info := by
  induction n with
  | zero => exact .inl (fun k hk => absurd hk (Nat.not_lt_zero k))
  | succ n ih =>
    rcases ih with h | ⟨k, info, hk, h1, h2⟩
    · cases ho : p.outcomeAt n with
      | none =>
        refine .inl (fun k hk => ?_)
        rcases Nat.lt_succ_iff_lt_or_eq.mp hk with hk | rfl
        · exact h k hk
        · exact ho
      | some info => exact .inr ⟨n, info, Nat.lt_succ_self n, h, ho⟩
    · exact .inr ⟨k, info, Nat.lt_succ_of_lt hk, h1, h2⟩

end Sys2Proof.Machine
end

