-- ==== Sys2Proof/Laws/Procedures.lean ====
section
/-! SUPPORT. The procedures of R101 to R103 and the request bodies as event sequences, and how a request ends: well, or at its first failing call. -/

set_option Elab.async false

namespace Sys2Proof.Machine

/-! ### Counts -/

@[simp] theorem countTq_delay (d t : Duration) : (delayEvents d t).countP Event.isTq = 1 := by
  unfold delayEvents; split <;> rfl

@[simp] theorem countCall_delay (d t : Duration) : (delayEvents d t).countP Event.isCall = 0 := by
  unfold delayEvents; split <;> rfl

theorem countTq_stmtsEvents (b : List Stmt) (t : Nat → Duration) :
    (stmtsEvents b t).countP Event.isTq = stmtsAsks b := by
  induction b generalizing t with
  | nil => rfl
  | cons st rest ih =>
    cases st <;> simp [stmtsEvents, Stmt.events, ih, stmtsAsks, Stmt.asks, Event.isTq]

theorem countCall_stmtsEvents (b : List Stmt) (t : Nat → Duration) :
    (stmtsEvents b t).countP Event.isCall = stmtsCalls b := by
  induction b generalizing t with
  | nil => rfl
  | cons st rest ih =>
    cases st <;> simp [stmtsEvents, Stmt.events, ih, stmtsCalls, Stmt.calls, Event.isCall, List.countP_cons, Nat.add_comm]

/-! ### The procedures -/

theorem stmtsEvents_pulse (c : Config) (t : Nat → Duration) :
    stmtsEvents (pulseEnable c) t = pulseEvents c (t 0) := by
  simp [pulseEnable, stmtsEvents, Stmt.events, Stmt.asks, pulseEvents]

theorem stmtsEvents_writeBits (c : Config) (value : Byte) (width : Nat) (mode : Mode) (t : Nat → Duration) :
    stmtsEvents (writeBits c value width mode) t = frameEvents c value width mode (t 0) := by
  simp [writeBits, stmtsEvents, Stmt.events, Stmt.asks, frameEvents, stmtsEvents_pulse]

@[simp] theorem stmtsAsks_pulse (c : Config) : stmtsAsks (pulseEnable c) = 1 := rfl
@[simp] theorem stmtsCalls_pulse (c : Config) : stmtsCalls (pulseEnable c) = 2 := rfl
@[simp] theorem stmtsAsks_writeBits (c : Config) (v : Byte) (w : Nat) (m : Mode) : stmtsAsks (writeBits c v w m) = 1 := rfl
@[simp] theorem stmtsCalls_writeBits (c : Config) (v : Byte) (w : Nat) (m : Mode) : stmtsCalls (writeBits c v w m) = 3 := rfl
@[simp] theorem stmtsAsks_raw4 (c : Config) (b : Byte) : stmtsAsks (send c b .raw4) = 2 := rfl
@[simp] theorem stmtsCalls_raw4 (c : Config) (b : Byte) : stmtsCalls (send c b .raw4) = 3 := rfl
@[simp] theorem stmtsAsks_cmd (c : Config) (b : Byte) : stmtsAsks (send c b .cmd) = 3 := rfl
@[simp] theorem stmtsCalls_cmd (c : Config) (b : Byte) : stmtsCalls (send c b .cmd) = 6 := rfl
@[simp] theorem stmtsAsks_data (c : Config) (b : Byte) : stmtsAsks (send c b .data) = 3 := rfl
@[simp] theorem stmtsCalls_data (c : Config) (b : Byte) : stmtsCalls (send c b .data) = 6 := rfl

theorem highNibble_eq (b : Byte) : (highNibble b).setWidth 8 = b >>> 4 := by
  revert b; decide

theorem lowNibble_eq (b : Byte) : (lowNibble b).setWidth 8 = b &&& 0x0F := by
  revert b; decide

theorem stmtsEvents_send (c : Config) (b : Byte) (mode : Mode) (t : Nat → Duration) :
    stmtsEvents (send c b mode) t = sendEvents c b mode t := by
  cases mode <;>
    simp [send, sendEvents, stmtsEvents_append, stmtsEvents_writeBits, stmtsEvents, Stmt.events, highNibble_eq,
      lowNibble_eq]

/-! ### The request bodies -/

/-- The statements of a request. -/
def bodyOf (i : Instr) (s : State) : List Stmt :=
  let c := s.cfg
  let p := s.cfg.proto
  match i with
  | .delay d => [.delay (.ofUs d)]
  | .pulse => pulseEnable c
  | .wrBits value width mode => writeBits c value width mode
  | .sendRaw4 byte => send c byte .raw4
  | .sendCmd byte => send c byte .cmd
  | .sendData byte => send c byte .data
  | .clear => clearBody c
  | .home => send c p.cmdHome .cmd ++ [.delay c.timing.tHomeClear]
  | .setCursor row col => send c (ddramCommand c row col) .cmd
  | .scrollL => send c (p.cmdCursorShift ||| p.fDisplayMove) .cmd
  | .scrollR => send c (p.cmdCursorShift ||| p.fDisplayMove ||| p.fMoveRight) .cmd
  | .curMoveL => send c p.cmdCursorShift .cmd
  | .curMoveR => send c (p.cmdCursorShift ||| p.fMoveRight) .cmd
  | .displaySet on => setDctrlBody s p.fDisplayOn on
  | .cursorSet on => setDctrlBody s p.fCursorOn on
  | .blinkSet on => setDctrlBody s p.fBlinkOn on
  | .ltrSet on => setEmodeBody s p.fEntryLeft on
  | .rtlSet on => setEmodeBody s p.fEntryLeft (!on)
  | .autoscrollSet on => setEmodeBody s p.fEntryShiftInc on
  | .displayGet | .cursorGet | .blinkGet | .ltrGet | .rtlGet | .autoscrollGet | .backlightGet => []
  | .write byte => send c byte .data
  | .print text => printBody c text
  | .createChar location glyph => createCharBody c location glyph
  | .backlightSet value => backlightBody c value

/-- The answer of a request that ends well. -/
def answerOf (i : Instr) (s : State) : Word :=
  match i with
  | .displayGet => responseFlag (getFlag s.dctrl s.cfg.proto.fDisplayOn)
  | .cursorGet => responseFlag (getFlag s.dctrl s.cfg.proto.fCursorOn)
  | .blinkGet => responseFlag (getFlag s.dctrl s.cfg.proto.fBlinkOn)
  | .ltrGet => responseFlag (getFlag s.emode s.cfg.proto.fEntryLeft)
  | .rtlGet => responseFlag (!getFlag s.emode s.cfg.proto.fEntryLeft)
  | .autoscrollGet => responseFlag (getFlag s.emode s.cfg.proto.fEntryShiftInc)
  | .backlightGet => responseBacklight s.blvl
  | _ => responseOk

theorem exec_eq_perform (i : Instr) (s : State) : exec i s = perform i (bodyOf i s) (answerOf i s) s := by
  cases i <;> rfl

theorem stmtsEvents_print (c : Config) (text : List Word) (t : Nat → Duration) :
    stmtsEvents (printBody c text) t = printEvents c text t := by
  induction text generalizing t with
  | nil => rfl
  | cons cp rest ih =>
    simp only [printBody, List.flatMap_cons] at ih ⊢
    rw [stmtsEvents_append, ih, stmtsEvents_send, stmtsAsks_data]
    rfl

theorem stmtsEvents_glyph (c : Config) (glyph : List Word) (t : Nat → Duration) :
    stmtsEvents (glyph.flatMap (fun g => send c (lowByte g) .data ++ [.delay c.timing.tCgData])) t
      = glyphEvents c glyph t := by
  induction glyph generalizing t with
  | nil => rfl
  | cons g rest ih =>
    rw [List.flatMap_cons, stmtsEvents_append, ih, stmtsEvents_append, stmtsEvents_send]
    simp [glyphEvents, sendWaitEvents, stmtsEvents, Stmt.events, stmtsAsks, Stmt.asks]
    rfl

theorem stmtsEvents_createChar (c : Config) (location : Byte) (glyph : List Word) (t : Nat → Duration) :
    stmtsEvents (createCharBody c location glyph) t = createCharEvents c location glyph t := by
  rw [createCharBody, stmtsEvents_append, stmtsEvents_glyph, stmtsEvents_append, stmtsEvents_send]
  simp [createCharEvents, sendWaitEvents, cgramCommand, stmtsEvents, Stmt.events, stmtsAsks, Stmt.asks]
  rfl

theorem stmtsEvents_backlight (c : Config) (v : Backlight) (t : Nat → Duration) :
    stmtsEvents (backlightBody c v) t = backlightEvents c v := by
  unfold backlightBody backlightEvents
  cases c.pins.bl <;> rfl

theorem stmtsEvents_bodyOf (i : Instr) (s : State) (t : Nat → Duration) :
    stmtsEvents (bodyOf i s) t = requestEvents i s t := by
  cases i <;>
    simp [bodyOf, requestEvents, clearBody, setDctrlBody, setEmodeBody, stmtsEvents_append, stmtsEvents_send,
      stmtsEvents_pulse, stmtsEvents_writeBits, stmtsEvents_print, stmtsEvents_createChar, stmtsEvents_backlight,
      sendWaitEvents, stmtsEvents, Stmt.events]

/-! ### Statement lists that write no register -/

/-- A statement that writes no register. -/
def Stmt.regFree : Stmt → Bool
  | .setDctrl _ | .setEmode _ | .setBlvl _ => false
  | _ => true

theorem regs_of_regFree {b : List Stmt} (h : b.all Stmt.regFree = true) (d e : Byte) (l : Option Backlight) :
    stmtsDctrl b d = d ∧ stmtsEmode b e = e ∧ stmtsBlvl b l = l := by
  induction b generalizing d e l with
  | nil => exact ⟨rfl, rfl, rfl⟩
  | cons st rest ih =>
    simp only [List.all_cons, Bool.and_eq_true] at h
    cases st <;> first | exact ih h.2 d e l | exact absurd h.1 (by simp [Stmt.regFree])

@[simp] theorem regFree_send (c : Config) (b : Byte) (mode : Mode) : (send c b mode).all Stmt.regFree = true := by
  cases mode <;> rfl

@[simp] theorem regFree_print (c : Config) (text : List Word) : (printBody c text).all Stmt.regFree = true := by
  induction text with
  | nil => rfl
  | cons cp rest ih => simp only [printBody, List.flatMap_cons, List.all_append] at ih ⊢; simp [ih]

@[simp] theorem regFree_createChar (c : Config) (l : Byte) (g : List Word) :
    (createCharBody c l g).all Stmt.regFree = true := by
  simp only [createCharBody, List.all_append, regFree_send, Bool.true_and, Bool.and_eq_true]
  refine ⟨rfl, ?_⟩
  induction g.take c.proto.glyphMax with
  | nil => rfl
  | cons x rest ih => simp only [List.flatMap_cons, List.all_append, ih]; simp [Stmt.regFree]

/-- Every request writes its registers after its last call: its body splits into a part that writes none and a part
that calls nothing (D20). -/
theorem bodyOf_split (i : Instr) (s : State) :
    ∃ a r, bodyOf i s = a ++ r ∧ a.all Stmt.regFree = true ∧ stmtsCalls r = 0 := by
  cases i
  case displaySet on => exact ⟨_, _, rfl, regFree_send _ _ _, rfl⟩
  case cursorSet on => exact ⟨_, _, rfl, regFree_send _ _ _, rfl⟩
  case blinkSet on => exact ⟨_, _, rfl, regFree_send _ _ _, rfl⟩
  case ltrSet on => exact ⟨_, _, rfl, regFree_send _ _ _, rfl⟩
  case rtlSet on => exact ⟨_, _, rfl, regFree_send _ _ _, rfl⟩
  case autoscrollSet on => exact ⟨_, _, rfl, regFree_send _ _ _, rfl⟩
  case backlightSet v =>
    simp only [bodyOf, backlightBody]
    cases s.cfg.pins.bl with
    | none => exact ⟨[], [], rfl, rfl, rfl⟩
    | some bl => exact ⟨[.call (.analog bl v)], [.setBlvl v], rfl, rfl, rfl⟩
  all_goals refine ⟨_, [], (List.append_nil _).symm, ?_, rfl⟩
  all_goals first | rfl | simp [bodyOf]

/-! ### How a request ends -/

/-- A request none of whose calls fails. -/
theorem perform_ok (i : Instr) (body : List Stmt) (answer : Word) (s : State) (h : s.port.callsOk (stmtsCalls body)) :
    perform i body answer s = .next
      { s.answered (stmtsEvents body s.port.tioAt) answer with
        dctrl := stmtsDctrl body s.dctrl
        emode := stmtsEmode body s.emode
        blvl := stmtsBlvl body s.blvl } := by
  obtain ⟨l, -, hl⟩ := runStmts_ok body (acceptRequest i s) h
  simp only [perform, hl, Run.endRequest]
  simp [State.answered, countTq_stmtsEvents, countCall_stmtsEvents, completeRequest, afterStmts, acceptRequest,
    State.respond, State.setBusy, State.setLatches]

theorem cutAtCall_stmtsEvents (pre : List Stmt) (c : PinCall) (post : List Stmt) (info : PortInfo)
    (t : Nat → Duration) :
    cutAtCall (stmtsCalls pre) info (stmtsEvents (pre ++ .call c :: post) t)
      = stmtsEvents pre t ++ [.fail c info] := by
  induction pre generalizing t with
  | nil => simp [stmtsEvents, Stmt.events, stmtsCalls, cutAtCall]
  | cons st rest ih =>
    cases st with
    | call d =>
      have : stmtsCalls (.call d :: rest) = stmtsCalls rest + 1 := by simp [stmtsCalls, Stmt.calls, Nat.add_comm]
      simp [stmtsEvents, Stmt.events, this, cutAtCall, ih]
    | delay d =>
      have : stmtsCalls (.delay d :: rest) = stmtsCalls rest := by simp [stmtsCalls, Stmt.calls]
      simp only [List.cons_append, stmtsEvents, Stmt.events, this]
      unfold delayEvents
      split <;> simp [cutAtCall, ih]
    | present n =>
      have : stmtsCalls (.present n :: rest) = stmtsCalls rest := by simp [stmtsCalls, Stmt.calls]
      simp [stmtsEvents, Stmt.events, this, ih]
    | setDctrl v =>
      have : stmtsCalls (.setDctrl v :: rest) = stmtsCalls rest := by simp [stmtsCalls, Stmt.calls]
      simp [stmtsEvents, Stmt.events, this, ih]
    | setEmode v =>
      have : stmtsCalls (.setEmode v :: rest) = stmtsCalls rest := by simp [stmtsCalls, Stmt.calls]
      simp [stmtsEvents, Stmt.events, this, ih]
    | setBlvl v =>
      have : stmtsCalls (.setBlvl v :: rest) = stmtsCalls rest := by simp [stmtsCalls, Stmt.calls]
      simp [stmtsEvents, Stmt.events, this, ih]

/-- What comes before a call lies in the part of a list after which nothing is called. -/
theorem before_call {a r pre post : List Stmt} {c : PinCall} (hr : stmtsCalls r = 0)
    (h : a ++ r = pre ++ .call c :: post) : ∃ x, a = pre ++ x := by
  rcases List.append_eq_append_iff.mp h with ⟨x, _, hx⟩ | ⟨x, hx, _⟩
  · exfalso
    have : stmtsCalls (x ++ .call c :: post) = 0 := hx ▸ hr
    simp [stmtsCalls, Stmt.calls] at this
  · exact ⟨x, hx⟩

/-- The part of a body before its `k`-th call writes no register, where the body splits as `bodyOf_split` says. -/
theorem regFree_before {a r pre post : List Stmt} {c : PinCall} (ha : a.all Stmt.regFree = true)
    (hr : stmtsCalls r = 0) (h : a ++ r = pre ++ .call c :: post) : pre.all Stmt.regFree = true := by
  obtain ⟨x, hx⟩ := before_call hr h
  rw [hx, List.all_append, Bool.and_eq_true] at ha
  exact ha.1

/-- A register holds what it held, or what some statement of the list wrote to it. -/
theorem stmtsDctrl_cases (b : List Stmt) (d : Byte) : stmtsDctrl b d = d ∨ .setDctrl (stmtsDctrl b d) ∈ b := by
  induction b generalizing d with
  | nil => exact .inl rfl
  | cons st rest ih =>
    cases st
    case setDctrl v =>
      rcases ih v with h | h
      · exact .inr (by simp [stmtsDctrl, h])
      · exact .inr (List.mem_cons_of_mem _ h)
    all_goals exact (ih d).imp_right (List.mem_cons_of_mem _)

theorem stmtsEmode_cases (b : List Stmt) (d : Byte) : stmtsEmode b d = d ∨ .setEmode (stmtsEmode b d) ∈ b := by
  induction b generalizing d with
  | nil => exact .inl rfl
  | cons st rest ih =>
    cases st
    case setEmode v =>
      rcases ih v with h | h
      · exact .inr (by simp [stmtsEmode, h])
      · exact .inr (List.mem_cons_of_mem _ h)
    all_goals exact (ih d).imp_right (List.mem_cons_of_mem _)

theorem stmtsBlvl_cases (b : List Stmt) (d : Option Backlight) :
    stmtsBlvl b d = d ∨ ∃ v, stmtsBlvl b d = some v ∧ .setBlvl v ∈ b := by
  induction b generalizing d with
  | nil => exact .inl rfl
  | cons st rest ih =>
    cases st
    case setBlvl v =>
      rcases ih (some v) with h | ⟨w, h, hm⟩
      · exact .inr ⟨v, h, List.mem_cons_self⟩
      · exact .inr ⟨w, h, List.mem_cons_of_mem _ hm⟩
    all_goals
      rcases ih d with h | ⟨w, h, hm⟩
      · exact .inl h
      · exact .inr ⟨w, h, List.mem_cons_of_mem _ hm⟩

theorem not_mem_of_regFree {b : List Stmt} (h : b.all Stmt.regFree = true) {st : Stmt} (hst : st.regFree = false) :
    st ∉ b := by
  intro hm
  simpa [hst] using List.all_eq_true.mp h st hm

/-- A request whose first failing call is its `k`-th: the events up to it, no register written, `fault` set, answer
0x02, `busy` down in an initialised block (R181, R187). -/
theorem exec_fail (i : Instr) (s : State) (k : Nat) (info : PortInfo) (hk : k < stmtsCalls (bodyOf i s))
    (h : s.port.callsOk k) (hf : s.port.outcomeAt k = some info) :
    ∃ l, exec i s = .next
      { s with
        lvl := s.lvl.replay (cutAtCall k info (requestEvents i s s.port.tioAt))
        trace := s.trace ++ cutAtCall k info (requestEvents i s s.port.tioAt)
        fault := .ioFailure
        responses := s.responses ++ [response statusIoFailure 0 0]
        busy := !s.initialized
        latches := if s.initialized then Latches.idle else l
        port := s.port.after ((cutAtCall k info (requestEvents i s s.port.tioAt)).countP Event.isTq) (k + 1) } := by
  obtain ⟨pre, c, post, l, hb, hc, hreq, hr⟩ := runStmts_fail (bodyOf i s) (acceptRequest i s) k info hk h hf
  obtain ⟨a, r, hsplit, ha, hr0⟩ := bodyOf_split i s
  obtain ⟨h1, h2, h3⟩ := regs_of_regFree (regFree_before ha hr0 (hsplit.symm.trans hb)) s.dctrl s.emode s.blvl
  have hev : cutAtCall k info (requestEvents i s s.port.tioAt) = stmtsEvents pre s.port.tioAt ++ [.fail c info] := by
    rw [← stmtsEvents_bodyOf, hb, ← hc, cutAtCall_stmtsEvents]
  have hasks : (stmtsEvents pre s.port.tioAt ++ [Event.fail c info]).countP Event.isTq = stmtsAsks pre := by
    simp [countTq_stmtsEvents, Event.isTq]
  refine ⟨l, ?_⟩
  rw [exec_eq_perform, hev, hasks]
  simp only [perform, hr, Run.endRequest, takeException]
  cases hi : s.initialized <;>
    simp [releaseAfterFailure, answerFailure, recordFailure, afterStmts, acceptRequest, hreq, hi, h1, h2, h3,
      State.emit, State.setLvl, State.setFault, State.respond, State.setBusy, State.setLatches, State.setPort]

end Sys2Proof.Machine
end

