-- ==== Sys2Proof/Laws/Init.lean ====
section
/-! SUPPORT. Construction and initialisation: the whole effect when no call fails, and what is left when one does; and the two ways a request can end, said once. -/

set_option Elab.async false

namespace Sys2Proof.Machine

/-- A request none of whose calls fails, with its events as the rules give them. -/
theorem exec_ok (i : Instr) (s : State) (h : s.port.callsOk (stmtsCalls (bodyOf i s))) :
    exec i s = .next
      { s.answered (requestEvents i s s.port.tioAt) (answerOf i s) with
        dctrl := stmtsDctrl (bodyOf i s) s.dctrl
        emode := stmtsEmode (bodyOf i s) s.emode
        blvl := stmtsBlvl (bodyOf i s) s.blvl } := by
  rw [exec_eq_perform, perform_ok i _ _ s h, stmtsEvents_bodyOf]

/-- Every request ends in a next state, well or at a first failing call. -/
theorem exec_cases (i : Instr) (s : State) :
    (s.port.callsOk (stmtsCalls (bodyOf i s)) ∧ exec i s = .next
      { s.answered (requestEvents i s s.port.tioAt) (answerOf i s) with
        dctrl := stmtsDctrl (bodyOf i s) s.dctrl
        emode := stmtsEmode (bodyOf i s) s.emode
        blvl := stmtsBlvl (bodyOf i s) s.blvl }) ∨
    ∃ k info l, k < stmtsCalls (bodyOf i s) ∧ s.port.callsOk k ∧ s.port.outcomeAt k = some info ∧
      exec i s = .next
        { s with
          lvl := s.lvl.replay (cutAtCall k info (requestEvents i s s.port.tioAt))
          trace := s.trace ++ cutAtCall k info (requestEvents i s s.port.tioAt)
          fault := .ioFailure
          responses := s.responses ++ [response statusIoFailure 0 0]
          busy := !s.initialized
          latches := if s.initialized then Latches.idle else l
          port := s.port.after ((cutAtCall k info (requestEvents i s s.port.tioAt)).countP Event.isTq) (k + 1) } := by
  rcases s.port.callsOk_or_fail (stmtsCalls (bodyOf i s)) with h | ⟨k, info, hk, h, hf⟩
  · exact .inl ⟨h, exec_ok i s h⟩
  · obtain ⟨l, he⟩ := exec_fail i s k info hk h hf
    exact .inr ⟨k, info, l, hk, h, hf, he⟩

/-! ### Construction -/

theorem stmtsEvents_configure (p : Pins) (t : Nat → Duration) :
    stmtsEvents (configureBody p) t = configureEvents p := by
  unfold configureBody configureEvents
  generalize p.rs :: (p.rw.toList ++ p.en :: (p.data ++ p.bl.toList)) = ps
  induction ps generalizing t with
  | nil => rfl
  | cons q rest ih =>
    simp only [List.map_cons, stmtsEvents, Stmt.events, ih]
    rfl

@[simp] theorem stmtsAsks_configure (p : Pins) : stmtsAsks (configureBody p) = 0 := by
  unfold configureBody
  generalize p.rs :: (p.rw.toList ++ p.en :: (p.data ++ p.bl.toList)) = ps
  induction ps with
  | nil => rfl
  | cons q rest ih => simpa [stmtsAsks, Stmt.asks] using ih

@[simp] theorem stmtsCalls_configure (p : Pins) :
    stmtsCalls (configureBody p) = 2 + p.rw.toList.length + p.nData + p.bl.toList.length := by
  have : ∀ ps : List PinId, stmtsCalls (ps.map (fun pin => Stmt.call (.configure pin false))) = ps.length := by
    intro ps
    induction ps with
    | nil => rfl
    | cons q rest ih => simp only [List.map_cons, List.length_cons, ← ih]; simp [stmtsCalls, Stmt.calls, Nat.add_comm]
  unfold configureBody
  rw [this]
  simp [Pins.nData]
  omega

theorem regFree_configure (p : Pins) : (configureBody p).all Stmt.regFree = true := by
  unfold configureBody
  generalize p.rs :: (p.rw.toList ++ p.en :: (p.data ++ p.bl.toList)) = ps
  induction ps with
  | nil => rfl
  | cons q rest ih => rw [List.map_cons, List.all_cons, ih]; rfl

@[simp] theorem stmtsAsks_delay (d : Duration) : stmtsAsks [Stmt.delay d] = 1 := rfl
@[simp] theorem stmtsCalls_delay (d : Duration) : stmtsCalls [Stmt.delay d] = 0 := rfl
@[simp] theorem stmtsAsks_setDctrl (v : Byte) : stmtsAsks [Stmt.setDctrl v] = 0 := rfl
@[simp] theorem stmtsCalls_setDctrl (v : Byte) : stmtsCalls [Stmt.setDctrl v] = 0 := rfl
@[simp] theorem stmtsAsks_setEmode (v : Byte) : stmtsAsks [Stmt.setEmode v] = 0 := rfl
@[simp] theorem stmtsCalls_setEmode (v : Byte) : stmtsCalls [Stmt.setEmode v] = 0 := rfl
@[simp] theorem stmtsEvents_delay (d : Duration) (t : Nat → Duration) :
    stmtsEvents [Stmt.delay d] t = delayEvents d (t 0) := by simp [stmtsEvents, Stmt.events]
@[simp] theorem stmtsEvents_setDctrl (v : Byte) (t : Nat → Duration) : stmtsEvents [Stmt.setDctrl v] t = [] := rfl
@[simp] theorem stmtsEvents_setEmode (v : Byte) (t : Nat → Duration) : stmtsEvents [Stmt.setEmode v] t = [] := rfl

@[simp] theorem stmtsAsks_backlight (c : Config) (v : Backlight) : stmtsAsks (backlightBody c v) = 0 := by
  unfold backlightBody; cases c.pins.bl <;> rfl

@[simp] theorem stmtsCalls_backlight (c : Config) (v : Backlight) :
    stmtsCalls (backlightBody c v) = c.pins.bl.toList.length := by
  unfold backlightBody; cases c.pins.bl <;> rfl

theorem stmtsEvents_init (c : Config) (d : Byte) (t : Nat → Duration) :
    stmtsEvents (initBody c d) t = initEvents c d t := by
  simp only [initBody, handshakeBody, setupBody, clearBody, initEvents, stmtsEvents_append, stmtsEvents_send,
    stmtsEvents_backlight, sendWaitEvents, initDctrl, initEmode, stmtsAsks_raw4, stmtsAsks_cmd,
    stmtsAsks_delay, stmtsAsks_setDctrl, stmtsAsks_setEmode, stmtsEvents_delay, stmtsEvents_setDctrl,
    stmtsEvents_setEmode, List.nil_append, List.append_assoc, Nat.add_assoc, Nat.reduceAdd, Nat.zero_add]

@[simp] theorem stmtsAsks_init (c : Config) (d : Byte) : stmtsAsks (initBody c d) = 25 := by
  simp only [initBody, handshakeBody, setupBody, clearBody, stmtsAsks_append, stmtsAsks_raw4, stmtsAsks_cmd,
    stmtsAsks_delay, stmtsAsks_setDctrl, stmtsAsks_setEmode, stmtsAsks_backlight]

@[simp] theorem stmtsCalls_init (c : Config) (d : Byte) :
    stmtsCalls (initBody c d) = 36 + c.pins.bl.toList.length := by
  simp only [initBody, handshakeBody, setupBody, clearBody, stmtsCalls_append, stmtsCalls_raw4, stmtsCalls_cmd,
    stmtsCalls_delay, stmtsCalls_setDctrl, stmtsCalls_setEmode, stmtsCalls_backlight]
  omega

/-- The statements of construction from the pin set-up on. -/
def constructBody (c : Config) (d : Byte) : List Stmt := configureBody c.pins ++ initBody c d

theorem stmtsEvents_construct (c : Config) (d : Byte) (t : Nat → Duration) :
    stmtsEvents (constructBody c d) t = configureEvents c.pins ++ initEvents c d t := by
  simp [constructBody, stmtsEvents_append, stmtsEvents_configure, stmtsEvents_init]

/-- The registers construction leaves. -/
theorem regs_construct (c : Config) (d : Byte) (dc em : Byte) (bl : Option Backlight) :
    stmtsDctrl (constructBody c d) dc = initDctrl c.proto ∧
    stmtsEmode (constructBody c d) em = initEmode c.proto ∧
    stmtsBlvl (constructBody c d) bl = if c.pins.bl.isSome then some c.blDefault else bl := by
  have hs := fun b m x y z => regs_of_regFree (regFree_send c b m) x y z
  have hc := fun x y z => regs_of_regFree (regFree_configure c.pins) x y z
  simp only [constructBody, initBody, handshakeBody, setupBody, clearBody, backlightBody]
  simp only [stmtsDctrl_append, stmtsEmode_append, stmtsBlvl_append,
    fun b m x => (hs b m x 0 none).1, fun b m x => (hs b m 0 x none).2.1, fun b m x => (hs b m 0 0 x).2.2,
    fun x => (hc x 0 none).1, fun x => (hc 0 x none).2.1, fun x => (hc 0 0 x).2.2]
  cases c.pins.bl <;> simp [stmtsDctrl, stmtsEmode, stmtsBlvl]

/-- Construction from the pin set-up on, no call failing. -/
theorem constructPins_ok (s : State) (h : s.port.callsOk (stmtsCalls (constructBody s.cfg s.dfunc))) :
    constructPins s =
      { s with
        dctrl := initDctrl s.cfg.proto
        emode := initEmode s.cfg.proto
        blvl := if s.cfg.pins.bl.isSome then some s.cfg.blDefault else s.blvl
        lvl := s.lvl.replay (configureEvents s.cfg.pins ++ initEvents s.cfg s.dfunc s.port.tioAt)
        trace := s.trace ++ (configureEvents s.cfg.pins ++ initEvents s.cfg s.dfunc s.port.tioAt)
        port := s.port.after 25 (stmtsCalls (constructBody s.cfg s.dfunc))
        initialized := true
        busy := false
        latches := Latches.idle } := by
  obtain ⟨l, -, hl⟩ := runStmts_ok (constructBody s.cfg s.dfunc) s h
  obtain ⟨h1, h2, h3⟩ := regs_construct s.cfg s.dfunc s.dctrl s.emode s.blvl
  have hasks : stmtsAsks (constructBody s.cfg s.dfunc) = 25 := by simp [constructBody]
  show (runStmts (constructBody s.cfg s.dfunc) s).endInit = _
  rw [hl]
  simp [Run.endInit, completeInit, afterStmts, stmtsEvents_construct, h1, h2, h3, hasks,
    State.setInitialized, State.setBusy, State.setLatches]

/-- The register writes of construction: `DCTRL` and `EMODE` get the values of R121, `BLVL` after the last call. -/
theorem constructBody_writes (c : Config) (d : Byte) :
    (∀ v, .setDctrl v ∈ constructBody c d → v = initDctrl c.proto) ∧
    (∀ v, .setEmode v ∈ constructBody c d → v = initEmode c.proto) ∧
    ∃ a r, constructBody c d = a ++ r ∧ stmtsCalls r = 0 ∧ ∀ v, .setBlvl v ∉ a := by
  have hs : ∀ st : Stmt, st.regFree = false → ∀ b m, st ∉ send c b m :=
    fun st h b m => not_mem_of_regFree (regFree_send c b m) h
  have hc : ∀ st : Stmt, st.regFree = false → st ∉ configureBody c.pins :=
    fun st h => not_mem_of_regFree (regFree_configure c.pins) h
  have hb : ∀ v, Stmt.setDctrl v ∉ backlightBody c c.blDefault ∧ Stmt.setEmode v ∉ backlightBody c c.blDefault := by
    intro v; unfold backlightBody; cases c.pins.bl <;> simp
  refine ⟨fun v h => ?_, fun v h => ?_, ?_⟩
  · simpa [constructBody, initBody, handshakeBody, setupBody, clearBody, hs (.setDctrl v) rfl, hc (.setDctrl v) rfl,
      (hb v).1] using h
  · simpa [constructBody, initBody, handshakeBody, setupBody, clearBody, hs (.setEmode v) rfl, hc (.setEmode v) rfl,
      (hb v).2] using h
  · refine ⟨configureBody c.pins ++ (handshakeBody c ++ (send c (c.proto.cmdFunctionSet ||| d) .cmd
      ++ (send c (c.proto.cmdDisplayControl ||| initDctrl c.proto) .cmd ++ [.setDctrl (initDctrl c.proto)])
      ++ clearBody c
      ++ (send c (c.proto.cmdEntryModeSet ||| initEmode c.proto) .cmd ++ [.setEmode (initEmode c.proto)])))
      ++ (backlightBody c c.blDefault).take 1, (backlightBody c c.blDefault).drop 1, ?_, ?_, ?_⟩
    · simp only [constructBody, initBody, setupBody, List.append_assoc, List.take_append_drop]
    · unfold backlightBody; cases c.pins.bl <;> rfl
    · intro v
      have : Stmt.setBlvl v ∉ (backlightBody c c.blDefault).take 1 := by
        unfold backlightBody; cases c.pins.bl <;> simp
      simp [handshakeBody, clearBody, hs (.setBlvl v) rfl, hc (.setBlvl v) rfl, this]

/-- The statements before the `k`-th call of a list, and that call, are determined by `k`. -/
theorem call_split_unique {a b p q : List Stmt} {c d : PinCall} (h : a ++ .call c :: p = b ++ .call d :: q)
    (hk : stmtsCalls a = stmtsCalls b) : a = b ∧ c = d := by
  have key : ∀ {a b p q : List Stmt} {c d : PinCall}, stmtsCalls a = stmtsCalls b →
      (∃ x, b = a ++ x ∧ .call c :: p = x ++ .call d :: q) → a = b ∧ c = d := by
    rintro a b p q c d hk ⟨x, rfl, h⟩
    cases x with
    | nil => simp_all
    | cons y x =>
      simp only [List.cons_append, List.cons.injEq] at h
      rw [← h.1] at hk
      simp [stmtsCalls, Stmt.calls] at hk
  rcases List.append_eq_append_iff.mp h with h | ⟨x, h1, h2⟩
  · exact key hk h
  · exact (key hk.symm ⟨x, h1, h2⟩).imp Eq.symm Eq.symm

/-- Construction from the pin set-up on of a block under construction, its `k`-th call the first to fail: all that is
left, in terms of the statements before that call. -/
theorem constructPins_fail_at (s : State) (k : Nat) (info : PortInfo) (hi : s.initialized = false)
    (hk : k < stmtsCalls (constructBody s.cfg s.dfunc)) (h : s.port.callsOk k)
    (hf : s.port.outcomeAt k = some info) :
    ∃ pre c post l, constructBody s.cfg s.dfunc = pre ++ .call c :: post ∧ stmtsCalls pre = k ∧ constructPins s =
      { s with
        dctrl := stmtsDctrl pre s.dctrl
        emode := stmtsEmode pre s.emode
        lvl := s.lvl.replay (stmtsEvents pre s.port.tioAt ++ [.fail c info])
        trace := s.trace ++ (stmtsEvents pre s.port.tioAt ++ [.fail c info])
        fault := .ioFailure
        port := s.port.after (stmtsAsks pre) (k + 1)
        responses := if s.latches.req.isSome then s.responses ++ [response statusIoFailure 0 0] else s.responses
        latches := l } := by
  obtain ⟨pre, c, post, l, hb, hc, hl, hr⟩ := runStmts_fail (constructBody s.cfg s.dfunc) s k info hk h hf
  obtain ⟨-, -, a, r, hsplit, hr0, ha⟩ := constructBody_writes s.cfg s.dfunc
  have hblvl : stmtsBlvl pre s.blvl = s.blvl := by
    obtain ⟨x, hx⟩ := before_call hr0 (hsplit.symm.trans hb)
    rcases stmtsBlvl_cases pre s.blvl with h | ⟨v, -, hm⟩
    · exact h
    · exact absurd (hx ▸ List.mem_append_left x hm) (ha v)
  refine ⟨pre, c, post, l, hb, hc, ?_⟩
  show (runStmts (constructBody s.cfg s.dfunc) s).endInit = _
  rw [hr]
  cases hreq : s.latches.req <;> simp [Run.endInit, takeException, releaseAfterFailure, answerFailure, recordFailure,
    afterStmts, hi, hl, hreq, hblvl, State.respond, State.emit, State.setLvl, State.setFault, State.setLatches, State.setPort]

/-- Construction from the pin set-up on of a block under construction, its `k`-th call the first to fail: the events
up to it, and the block is left dead (R181). -/
theorem constructPins_fail (s : State) (k : Nat) (info : PortInfo) (hi : s.initialized = false)
    (hk : k < stmtsCalls (constructBody s.cfg s.dfunc)) (h : s.port.callsOk k)
    (hf : s.port.outcomeAt k = some info) :
    ∃ dc em l p w, (dc = s.dctrl ∨ dc = initDctrl s.cfg.proto) ∧ (em = s.emode ∨ em = initEmode s.cfg.proto) ∧
      (s.latches.req = none → w = s.responses) ∧
      constructPins s =
      { s with
        dctrl := dc
        emode := em
        lvl := s.lvl.replay (cutAtCall k info (configureEvents s.cfg.pins ++ initEvents s.cfg s.dfunc s.port.tioAt))
        trace := s.trace ++ cutAtCall k info (configureEvents s.cfg.pins ++ initEvents s.cfg s.dfunc s.port.tioAt)
        fault := .ioFailure
        port := p
        responses := w
        latches := l } := by
  obtain ⟨pre, c, post, l, hb, hc, he⟩ := constructPins_fail_at s k info hi hk h hf
  have hev : cutAtCall k info (configureEvents s.cfg.pins ++ initEvents s.cfg s.dfunc s.port.tioAt)
      = stmtsEvents pre s.port.tioAt ++ [.fail c info] := by
    rw [← stmtsEvents_construct, hb, ← hc, cutAtCall_stmtsEvents]
  obtain ⟨hd, hm, -⟩ := constructBody_writes s.cfg s.dfunc
  have hpre : ∀ st ∈ pre, st ∈ constructBody s.cfg s.dfunc := fun st hst => hb ▸ List.mem_append_left _ hst
  refine ⟨_, _, _, _, _, (stmtsDctrl_cases pre s.dctrl).imp_right (fun h => hd _ (hpre _ h)),
    (stmtsEmode_cases pre s.emode).imp_right (fun h => hm _ (hpre _ h)), fun hreq => ?_, hev ▸ he⟩
  rw [hreq]; rfl

end Sys2Proof.Machine
end

