-- ==== Sys2Proof/Laws/PerInstr.lean ====
section
/-! SUPPORT. For every request: the header word the encoder writes agrees with the request's row of the opcode table, its match under its mask. -/

set_option Elab.async false

namespace Sys2Proof

theorem header_and (op a b c op' a' b' c' : Byte) :
    header op a b c &&& header op' a' b' c' = header (op &&& op') (a &&& a') (b &&& b') (c &&& c') := by
  apply BitVec.eq_of_getLsbD_eq
  intro i hi
  simp only [BitVec.getLsbD_and, getLsbD_header]
  grind

theorem headerLow_and (op : Byte) (n : Nat) : headerLow op n &&& header 255#8 0#8 0#8 0#8 = header op 0#8 0#8 0#8 := by
  apply BitVec.eq_of_getLsbD_eq
  intro i hi
  have h : ∀ j, j < 8 → BitVec.getLsbD 255#8 j = true := by decide
  simp only [BitVec.getLsbD_and, getLsbD_header, getLsbD_headerLow]
  grind

namespace Laws.TableRow

/-- The mask of the request's row in spec/opcode_table.json, in its four bytes. -/
def mask : Instr → Word
  | .delay _ => header 0xFF 0 0 0
  | .pulse => header 0xFF 0xFF 0xFF 0xFF
  | .wrBits _ _ _ => header 0xFF 0xFC 0 0
  | .sendRaw4 _ => header 0xFF 0xFF 0xFF 0
  | .sendCmd _ => header 0xFF 0xFF 0xFF 0
  | .sendData _ => header 0xFF 0xFF 0xFF 0
  | .clear => header 0xFF 0xFF 0xFF 0xFF
  | .home => header 0xFF 0xFF 0xFF 0xFF
  | .setCursor _ _ => header 0xFF 0xFF 0 0
  | .scrollL => header 0xFF 0xFF 0xFF 0xFF
  | .scrollR => header 0xFF 0xFF 0xFF 0xFF
  | .curMoveL => header 0xFF 0xFF 0xFF 0xFF
  | .curMoveR => header 0xFF 0xFF 0xFF 0xFF
  | .displaySet _ => header 0xFF 0xFF 0xFF 0xFE
  | .displayGet => header 0xFF 0xFF 0xFF 0xFF
  | .cursorSet _ => header 0xFF 0xFF 0xFF 0xFE
  | .cursorGet => header 0xFF 0xFF 0xFF 0xFF
  | .blinkSet _ => header 0xFF 0xFF 0xFF 0xFE
  | .blinkGet => header 0xFF 0xFF 0xFF 0xFF
  | .ltrSet _ => header 0xFF 0xFF 0xFF 0xFE
  | .ltrGet => header 0xFF 0xFF 0xFF 0xFF
  | .rtlSet _ => header 0xFF 0xFF 0xFF 0xFE
  | .rtlGet => header 0xFF 0xFF 0xFF 0xFF
  | .autoscrollSet _ => header 0xFF 0xFF 0xFF 0xFE
  | .autoscrollGet => header 0xFF 0xFF 0xFF 0xFF
  | .write _ => header 0xFF 0xFF 0xFF 0
  | .print _ => header 0xFF 0 0 0
  | .createChar _ _ => header 0xFF 0xFF 0 0
  | .backlightSet _ => header 0xFF 0xFF 0xFE 0
  | .backlightGet => header 0xFF 0xFF 0xFF 0xFF

/-- The match of the request's row in spec/opcode_table.json, in its four bytes. -/
def bits : Instr → Word
  | .delay _ => header 0x01 0 0 0
  | .pulse => header 0x02 0 0 0
  | .wrBits _ _ _ => header 0x03 0 0 0
  | .sendRaw4 _ => header 0x04 0 0 0
  | .sendCmd _ => header 0x05 0 0 0
  | .sendData _ => header 0x06 0 0 0
  | .clear => header 0x10 0 0 0
  | .home => header 0x11 0 0 0
  | .setCursor _ _ => header 0x12 0 0 0
  | .scrollL => header 0x13 0 0 0
  | .scrollR => header 0x14 0 0 0
  | .curMoveL => header 0x15 0 0 0
  | .curMoveR => header 0x16 0 0 0
  | .displaySet _ => header 0x20 0 0 0
  | .displayGet => header 0x21 0 0 0
  | .cursorSet _ => header 0x22 0 0 0
  | .cursorGet => header 0x23 0 0 0
  | .blinkSet _ => header 0x24 0 0 0
  | .blinkGet => header 0x25 0 0 0
  | .ltrSet _ => header 0x26 0 0 0
  | .ltrGet => header 0x27 0 0 0
  | .rtlSet _ => header 0x28 0 0 0
  | .rtlGet => header 0x29 0 0 0
  | .autoscrollSet _ => header 0x2A 0 0 0
  | .autoscrollGet => header 0x2B 0 0 0
  | .write _ => header 0x30 0 0 0
  | .print _ => header 0x31 0 0 0
  | .createChar _ _ => header 0x32 0 0 0
  | .backlightSet _ => header 0x38 0 0 0
  | .backlightGet => header 0x39 0 0 0

/-- The first word of the encoding is the row's match under the row's mask. -/
def Statement (i : Instr) : Prop := (encode i).head?.map (· &&& mask i) = some (bits i)

theorem modeBits_and (m : Mode) : modeBits m &&& 252#8 = 0#8 := by cases m <;> rfl

theorem flag_and (b : Bool) : BitVec.setWidth 8 (BitVec.ofBool b) &&& 254#8 = 0#8 := by cases b <;> rfl

theorem delay (d : Nat) : Statement (.delay d) := by
  simp [Statement, encode, mask, bits, headerLow_and]

theorem pulse : Statement (.pulse) := by
  rfl

theorem wrBits (value : Byte) (width : Nat) (mode : Mode) : Statement (.wrBits value width mode) := by
  simp [Statement, encode, mask, bits, header_and, modeBits_and]

theorem sendRaw4 (byte : Byte) : Statement (.sendRaw4 byte) := by
  simp [Statement, encode, encodeB, mask, bits, header_and]

theorem sendCmd (byte : Byte) : Statement (.sendCmd byte) := by
  simp [Statement, encode, encodeB, mask, bits, header_and]

theorem sendData (byte : Byte) : Statement (.sendData byte) := by
  simp [Statement, encode, encodeB, mask, bits, header_and]

theorem clear : Statement (.clear) := by
  rfl

theorem home : Statement (.home) := by
  rfl

theorem setCursor (row col : Nat) : Statement (.setCursor row col) := by
  simp [Statement, encode, mask, bits, header_and]

theorem scrollL : Statement (.scrollL) := by
  rfl

theorem scrollR : Statement (.scrollR) := by
  rfl

theorem curMoveL : Statement (.curMoveL) := by
  rfl

theorem curMoveR : Statement (.curMoveR) := by
  rfl

theorem displaySet (on : Bool) : Statement (.displaySet on) := by
  simp [Statement, encode, encodeF, mask, bits, header_and, flag_and]

theorem displayGet : Statement (.displayGet) := by
  rfl

theorem cursorSet (on : Bool) : Statement (.cursorSet on) := by
  simp [Statement, encode, encodeF, mask, bits, header_and, flag_and]

theorem cursorGet : Statement (.cursorGet) := by
  rfl

theorem blinkSet (on : Bool) : Statement (.blinkSet on) := by
  simp [Statement, encode, encodeF, mask, bits, header_and, flag_and]

theorem blinkGet : Statement (.blinkGet) := by
  rfl

theorem ltrSet (on : Bool) : Statement (.ltrSet on) := by
  simp [Statement, encode, encodeF, mask, bits, header_and, flag_and]

theorem ltrGet : Statement (.ltrGet) := by
  rfl

theorem rtlSet (on : Bool) : Statement (.rtlSet on) := by
  simp [Statement, encode, encodeF, mask, bits, header_and, flag_and]

theorem rtlGet : Statement (.rtlGet) := by
  rfl

theorem autoscrollSet (on : Bool) : Statement (.autoscrollSet on) := by
  simp [Statement, encode, encodeF, mask, bits, header_and, flag_and]

theorem autoscrollGet : Statement (.autoscrollGet) := by
  rfl

theorem write (byte : Byte) : Statement (.write byte) := by
  simp [Statement, encode, encodeB, mask, bits, header_and]

theorem print (text : List Word) : Statement (.print text) := by
  simp [Statement, encode, mask, bits, headerLow_and]

theorem createChar (location : Byte) (glyph : List Word) : Statement (.createChar location glyph) := by
  simp [Statement, encode, mask, bits, header_and]

theorem backlightSet (value : Backlight) : Statement (.backlightSet value) := by
  cases value <;> simp [Statement, encode, mask, bits, header_and]

theorem backlightGet : Statement (.backlightGet) := by
  rfl

end Laws.TableRow

end Sys2Proof
end

