-- ==== Sys2Proof/Laws/Step.lean ====
section
/-! SUPPORT. All that a step can do, said once, and all that construction can do. -/

set_option Elab.async false

namespace Sys2Proof.Machine

theorem step_reset {s : State} {cfg : Config} (h : s.resetIn = some cfg) :
    step s = .next (State.atReset cfg s.port s.inbox) := by
  simp [step, h]

/-- All that a step that is no reset can do, when it answers a next state: run a request, refuse an illegal word,
wait, or construct. -/
theorem step_cases {s t : State} (hr : s.resetIn = none) (h : step s = .next t) :
    (s.initialized = true ∧ s.busy = false ∧
      ∃ i rest, decode s.inbox = .accepted i rest ∧ exec i (s.setInbox rest) = .next t) ∨
    (s.initialized = true ∧ s.busy = false ∧
      ∃ why rest, decode s.inbox = .illegal why rest ∧
        t = (s.setInbox rest).respond (response statusInvalidRequest 0 0)) ∨
    t = s ∨
    (s.initialized = false ∧ s.busy = true ∧ s.fault = .none ∧ s.cfg.pins.nData ≠ 4 ∧ s.cfg.pins.nData ≠ 8 ∧
      t = s.setFault .invalidConfiguration) ∨
    (s.initialized = false ∧ s.busy = true ∧ s.fault = .none ∧ (s.cfg.pins.nData = 4 ∨ s.cfg.pins.nData = 8) ∧
      s.cfg.pins.distinct ∧ t = constructPins (s.setDfunc (dfuncOf s.cfg))) := by
  unfold step at h
  rw [hr] at h
  simp only [] at h
  cases hp : phaseOf s with
  | idle =>
    have hi : s.initialized = true ∧ s.busy = false := by
      unfold phaseOf at hp
      split at hp
      · assumption
      · split at hp <;> simp at hp
    simp only [hp] at h
    cases hd : decode s.inbox with
    | accepted i rest => simp only [hd] at h; exact .inl ⟨hi.1, hi.2, i, rest, rfl, h⟩
    | illegal why rest =>
      simp only [hd, Host.Outcome.next.injEq] at h
      exact .inr (.inl ⟨hi.1, hi.2, why, rest, rfl, h.symm⟩)
    | incomplete => simp only [hd, Host.Outcome.next.injEq] at h; exact .inr (.inr (.inl h.symm))
  | constructing =>
    have hi : s.initialized = false ∧ s.busy = true ∧ s.fault = .none := by
      unfold phaseOf at hp
      split at hp
      · simp at hp
      · split at hp
        · assumption
        · simp at hp
    simp only [hp, construct] at h
    split at h
    · rename_i hn
      simp only [Host.Outcome.next.injEq] at h
      exact .inr (.inr (.inr (.inl ⟨hi.1, hi.2.1, hi.2.2, hn.1, hn.2, h.symm⟩)))
    · rename_i hn
      split at h
      · rename_i hd
        simp only [Host.Outcome.next.injEq] at h
        exact .inr (.inr (.inr (.inr ⟨hi.1, hi.2.1, hi.2.2, by omega, hd, h.symm⟩)))
      · simp at h
  | dead => simp only [hp, Host.Outcome.next.injEq] at h; exact .inr (.inr (.inl h.symm))

/-- The step of a block at reset with 4 or 8 distinct pins is the rest of construction. -/
theorem step_atReset (cfg : Config) (port : Port) (inbox : List Word)
    (h : cfg.pins.nData = 4 ∨ cfg.pins.nData = 8) (hd : cfg.pins.distinct) :
    step (State.atReset cfg port inbox) = .next (constructPins (State.atReset cfg port inbox)) := by
  have h1 : ¬ (cfg.pins.nData ≠ 4 ∧ cfg.pins.nData ≠ 8) := by omega
  show construct (State.atReset cfg port inbox) = _
  exact (if_neg h1).trans (if_pos hd)

/-- The number of pin-port calls of construction from the pin set-up on. -/
theorem stmtsCalls_construct (c : Config) (d : Byte) :
    stmtsCalls (constructBody c d) = 38 + c.pins.rw.toList.length + c.pins.nData + 2 * c.pins.bl.toList.length := by
  simp only [constructBody, stmtsCalls_append, stmtsCalls_configure, stmtsCalls_init]
  omega

/-- All that construction from the pin set-up on can do: end well, or stop at its first failing call. -/
theorem constructPins_cases (s : State) (hi : s.initialized = false) :
    (s.port.callsOk (stmtsCalls (constructBody s.cfg s.dfunc)) ∧ constructPins s =
      { s with
        dctrl := initDctrl s.cfg.proto
        emode := initEmode s.cfg.proto
        blvl := if s.cfg.pins.bl.isSome then some s.cfg.blDefault else s.blvl
        lvl := s.lvl.replay (configureEvents s.cfg.pins ++ initEvents s.cfg s.dfunc s.port.tioAt)
        trace := s.trace ++ (configureEvents s.cfg.pins ++ initEvents s.cfg s.dfunc s.port.tioAt)
        port := s.port.after 25 (stmtsCalls (constructBody s.cfg s.dfunc))
        initialized := true
        busy := false
        latches := Latches.idle }) ∨
    ∃ k info dc em l p w, k < stmtsCalls (constructBody s.cfg s.dfunc) ∧
      (dc = s.dctrl ∨ dc = initDctrl s.cfg.proto) ∧ (em = s.emode ∨ em = initEmode s.cfg.proto) ∧
      constructPins s =
      { s with
        dctrl := dc
        emode := em
        lvl := s.lvl.replay (cutAtCall k info (configureEvents s.cfg.pins ++ initEvents s.cfg s.dfunc s.port.tioAt))
        trace := s.trace ++ cutAtCall k info (configureEvents s.cfg.pins ++ initEvents s.cfg s.dfunc s.port.tioAt)
        fault := .ioFailure
        port := p
        responses := w
        latches := l } := by
  rcases s.port.callsOk_or_fail (stmtsCalls (constructBody s.cfg s.dfunc)) with h | ⟨k, info, hk, h, hf⟩
  · exact .inl ⟨h, constructPins_ok s h⟩
  · obtain ⟨dc, em, l, p, w, h1, h2, -, h3⟩ := constructPins_fail s k info hi hk h hf
    exact .inr ⟨k, info, dc, em, l, p, w, hk, h1, h2, h3⟩

end Sys2Proof.Machine
end

