-- ==== Sys2Proof/Laws/Trace.lean ====
section
/-! SUPPORT. Where the events of a request come from, which pins they name, how `LVL` follows them, and what is left of them when a call fails. -/

set_option Elab.async false

namespace Sys2Proof.Machine

/-! ### Where an event comes from -/

theorem mem_printEvents {c : Config} {text : List Word} {t : Nat → Duration} {e : Event}
    (h : e ∈ printEvents c text t) : ∃ b t', e ∈ sendEvents c b .data t' := by
  induction text generalizing t with
  | nil => simp [printEvents] at h
  | cons x r ih =>
    simp only [printEvents, List.mem_append] at h
    rcases h with h | h
    · exact ⟨_, _, h⟩
    · exact ih h

theorem mem_glyphEvents {c : Config} {glyph : List Word} {t : Nat → Duration} {e : Event}
    (h : e ∈ glyphEvents c glyph t) : (∃ d t', e ∈ delayEvents d t') ∨ ∃ b t', e ∈ sendEvents c b .data t' := by
  induction glyph generalizing t with
  | nil => simp [glyphEvents] at h
  | cons x r ih =>
    simp only [glyphEvents, sendWaitEvents, List.mem_append] at h
    rcases h with (h | h) | h
    · exact .inr ⟨_, _, h⟩
    · exact .inl ⟨_, _, h⟩
    · exact ih h

/-- Every event of a request belongs to a wait, a send, the pulse of `PULSE`, the frame of `WRBITS`, or is the analog
write of `BACKLIGHT.SET`. -/
theorem mem_requestEvents {i : Instr} {s : State} {t : Nat → Duration} {e : Event} (h : e ∈ requestEvents i s t) :
    (∃ d t', e ∈ delayEvents d t') ∨ (∃ b mode t', e ∈ sendEvents s.cfg b mode t') ∨
    (i = .pulse ∧ ∃ t', e ∈ pulseEvents s.cfg t') ∨
    (∃ v w mode t', i = .wrBits v w mode ∧ e ∈ frameEvents s.cfg v w mode t') ∨
    (∃ v bl, s.cfg.pins.bl = some bl ∧ i = .backlightSet v ∧ e = .call (.analog bl v)) := by
  cases i <;> simp only [requestEvents, sendWaitEvents, List.mem_append] at h <;>
    first
    | exact .inr (.inl ⟨_, _, _, h⟩)
    | exact .inl ⟨_, _, h⟩
    | (rcases h with h | h; exacts [.inr (.inl ⟨_, _, _, h⟩), .inl ⟨_, _, h⟩])
    | skip
  case pulse => exact .inr (.inr (.inl ⟨rfl, _, h⟩))
  case wrBits v w mode => exact .inr (.inr (.inr (.inl ⟨v, w, mode, _, rfl, h⟩)))
  case print text => obtain ⟨b, t', h⟩ := mem_printEvents h; exact .inr (.inl ⟨_, _, _, h⟩)
  case createChar l g =>
    simp only [createCharEvents, sendWaitEvents, List.mem_append] at h
    rcases h with (h | h) | h
    · exact .inr (.inl ⟨_, _, _, h⟩)
    · exact .inl ⟨_, _, h⟩
    · rcases mem_glyphEvents h with h | ⟨b, t', h⟩
      · exact .inl h
      · exact .inr (.inl ⟨_, _, _, h⟩)
  case backlightSet v =>
    unfold backlightEvents at h
    cases hb : s.cfg.pins.bl with
    | none => simp [hb] at h
    | some bl =>
      simp only [hb, List.mem_singleton] at h
      exact .inr (.inr (.inr (.inr ⟨v, bl, rfl, rfl, h⟩)))
  all_goals simp at h

theorem bulk_not_mem_delay (m : Levels) (d t : Duration) : Event.call (.bulk m) ∉ delayEvents d t := by
  unfold delayEvents; split <;> simp

theorem bulk_mem_frame {c : Config} {v : Byte} {w : Nat} {mode : Mode} {t : Duration} {m : Levels}
    (h : Event.call (.bulk m) ∈ frameEvents c v w mode t) : m = frameMap c.pins v w mode := by
  simp only [frameEvents, pulseEvents, List.mem_cons, List.mem_append, bulk_not_mem_delay, Event.call.injEq,
    PinCall.bulk.injEq] at h
  simpa using h

theorem bulk_mem_send {c : Config} {b : Byte} {mode : Mode} {t : Nat → Duration} {m : Levels}
    (h : Event.call (.bulk m) ∈ sendEvents c b mode t) : ∃ v : Byte, m = frameMap c.pins v 4 mode := by
  unfold sendEvents at h
  split at h
  · simp only [List.mem_append, bulk_not_mem_delay, or_false] at h
    exact ⟨_, bulk_mem_frame h⟩
  · simp only [List.mem_append, bulk_not_mem_delay, or_false] at h
    rcases h with h | h <;> exact ⟨_, bulk_mem_frame h⟩

/-- Every bulk write of a request is that of a nibble frame. -/
theorem bulk_mem_request {i : Instr} {s : State} {t : Nat → Duration} {m : Levels}
    (h : Event.call (.bulk m) ∈ requestEvents i s t) : ∃ v w mode, m = frameMap s.cfg.pins v w mode := by
  rcases mem_requestEvents h with ⟨d, t', h⟩ | ⟨b, mode, t', h⟩ | ⟨rfl, t', h⟩ | ⟨v, w, mode, t', rfl, h⟩ |
    ⟨v, bl, hb, rfl, he⟩
  · exact absurd h (bulk_not_mem_delay _ _ _)
  · obtain ⟨v, h⟩ := bulk_mem_send h; exact ⟨v, 4, mode, h⟩
  · simp only [pulseEvents, List.mem_cons, List.mem_append, bulk_not_mem_delay] at h; simp at h
  · exact ⟨v, w, mode, bulk_mem_frame h⟩
  · cases he

/-- Every bulk write of construction is that of a four-bit frame in RAW4 or CMD mode. -/
theorem bulk_mem_construct {c : Config} {d : Byte} {t : Nat → Duration} {m : Levels}
    (h : Event.call (.bulk m) ∈ configureEvents c.pins ++ initEvents c d t) :
    ∃ v mode, mode ≠ .data ∧ m = frameMap c.pins v 4 mode := by
  have ncf : Event.call (.bulk m) ∉ configureEvents c.pins := by unfold configureEvents; simp
  have nb : Event.call (.bulk m) ∉ backlightEvents c c.blDefault := by
    unfold backlightEvents; cases c.pins.bl <;> simp
  simp only [initEvents, sendWaitEvents, List.mem_append, bulk_not_mem_delay, ncf, nb, or_false, false_or] at h
  rcases h with ((((((h | h) | h) | h) | h) | h) | h) | h
  all_goals obtain ⟨v, hv⟩ := bulk_mem_send h; exact ⟨v, _, by simp, hv⟩

/-! ### Which pins events name -/

/-- The pins an event names. -/
def Event.pins : Event → List PinId
  | .call c => c.pins
  | .fail c _ => c.pins
  | .tq _ => []
  | .sl _ => []

theorem Levels.read_update_of_not_mem {p : PinId} (m l : Levels) (h : p ∉ m.map (·.1)) :
    (l.update m).read p = l.read p := by
  induction m generalizing l with
  | nil => rfl
  | cons x r ih =>
    simp only [List.map_cons, List.mem_cons, not_or] at h
    show ((l.set x.1 x.2).update r).read p = _
    rw [ih _ h.2, Levels.read_set, if_neg h.1]

/-- A pin no event names keeps its level. -/
theorem Levels.read_replay_of_not_mem {p : PinId} (l : Levels) (es : List Event) (h : ∀ e ∈ es, p ∉ e.pins) :
    (l.replay es).read p = l.read p := by
  induction es generalizing l with
  | nil => rfl
  | cons e r ih =>
    have ih' := fun l => ih l (fun m hm => h m (List.mem_cons_of_mem _ hm))
    have h0 := h e (by simp)
    cases e with
    | call c =>
      rw [Levels.replay_call, ih']
      apply Levels.read_update_of_not_mem
      cases c <;> simp_all [PinCall.levels, Event.pins, PinCall.pins]
    | tq t => exact ih' l
    | sl t => exact ih' l
    | fail c i => rw [Levels.replay_fail, ih', Levels.read_forget]; exact if_neg h0

/-! ### `LVL` follows the trace -/

theorem Levels.replay_wf {l : Levels} (es : List Event) (h : l.wf) : (l.replay es).wf := by
  induction es generalizing l with
  | nil => exact h
  | cons e r ih =>
    cases e with
    | call c => exact ih (Levels.update_wf _ h)
    | tq t => exact ih h
    | sl t => exact ih h
    | fail c i => exact ih (Levels.forget_wf _ h)

/-- Each pin's level after a sequence of events, by `levelStep` alone. -/
theorem Levels.read_replay (p : PinId) (l : Levels) (es : List Event)
    (h : ∀ m, Event.call (.bulk m) ∈ es → m.wf) : (l.replay es).read p = es.foldl (levelStep p) (l.read p) := by
  induction es generalizing l with
  | nil => rfl
  | cons e r ih =>
    have ih' := fun l => ih l (fun m hm => h m (List.mem_cons_of_mem _ hm))
    cases e with
    | call c =>
      rw [Levels.replay_call, ih', List.foldl_cons]
      congr 1
      cases c with
      | configure q b => simp [PinCall.levels, Levels.update, levelStep]
      | write q v => simp [PinCall.levels, Levels.update, levelStep, Levels.read_set, eq_comm]
      | bulk m =>
        simp only [PinCall.levels, levelStep]
        exact (Levels.read_update (h m (by simp)) ..).trans (by cases m.read p <;> rfl)
      | analog q a => simp [PinCall.levels, Levels.update, levelStep]
    | tq t => exact ih' l
    | sl t => exact ih' l
    | fail c i => rw [Levels.replay_fail, ih', List.foldl_cons, Levels.read_forget]; rfl

/-! ### What is left of a sequence when a call fails -/

/-- The events up to the `k`-th call, and that call, failed. -/
theorem cutAtCall_split (k : Nat) (info : PortInfo) (es : List Event) (h : k < es.countP Event.isCall) :
    ∃ pre c post, es = pre ++ .call c :: post ∧ cutAtCall k info es = pre ++ [.fail c info] ∧
      pre.countP Event.isCall = k := by
  induction es generalizing k with
  | nil => simp at h
  | cons e r ih =>
    cases e with
    | call c =>
      cases k with
      | zero => exact ⟨[], c, r, rfl, rfl, rfl⟩
      | succ k =>
        obtain ⟨pre, c', post, h1, h2, h3⟩ := ih k (by simpa [List.countP_cons, Event.isCall] using h)
        exact ⟨.call c :: pre, c', post, by rw [h1]; rfl, by rw [cutAtCall, h2]; rfl,
          by simp [List.countP_cons, Event.isCall, h3]⟩
    | tq t =>
      obtain ⟨pre, c', post, h1, h2, h3⟩ := ih k (by simpa [Event.isCall] using h)
      exact ⟨.tq t :: pre, c', post, by rw [h1]; rfl, by rw [cutAtCall, h2]; rfl, by simp [Event.isCall, h3]⟩
    | sl t =>
      obtain ⟨pre, c', post, h1, h2, h3⟩ := ih k (by simpa [Event.isCall] using h)
      exact ⟨.sl t :: pre, c', post, by rw [h1]; rfl, by rw [cutAtCall, h2]; rfl, by simp [Event.isCall, h3]⟩
    | fail c i =>
      obtain ⟨pre, c', post, h1, h2, h3⟩ := ih k (by simpa [Event.isCall] using h)
      exact ⟨.fail c i :: pre, c', post, by rw [h1]; rfl, by rw [cutAtCall, h2]; rfl, by simp [Event.isCall, h3]⟩

theorem cutAtCall_append (k : Nat) (info : PortInfo) (a b : List Event) : cutAtCall k info (a ++ b) =
    if k < a.countP Event.isCall then cutAtCall k info a
    else a ++ cutAtCall (k - a.countP Event.isCall) info b := by
  induction a generalizing k with
  | nil => simp
  | cons e r ih =>
    cases e with
    | call c =>
      cases k with
      | zero => simp [cutAtCall, Event.isCall]
      | succ k => simp [cutAtCall, ih, Event.isCall, List.countP_cons]; split <;> rfl
    | tq t => simp [cutAtCall, ih, Event.isCall]; split <;> rfl
    | sl t => simp [cutAtCall, ih, Event.isCall]; split <;> rfl
    | fail c i => simp [cutAtCall, ih, Event.isCall]; split <;> rfl

/-- The calls of a request, in every state and with every answer, are those of its statements. -/
theorem countCall_request (i : Instr) (s : State) (t : Nat → Duration) :
    (requestEvents i s t).countP Event.isCall = stmtsCalls (bodyOf i s) := by
  rw [← stmtsEvents_bodyOf, countCall_stmtsEvents]

end Sys2Proof.Machine
end

