-- ==== Sys2Proof/Tests/Slice0.lean ====
section
/-! SUPPORT. Tests from the spec's vectors (files 95 and 96), ill-formed terms the checks refuse, and a witness for the hypotheses of every obligation. -/

set_option Elab.async false

namespace Sys2Proof.Machine.Tests

/-! ### Ill-formed terms, one for each check of `Instr.wellFormed` -/

theorem test_delay_operand_of_25_bits_is_refused : (Instr.delay (2 ^ 24)).wellFormed = false := by decide
theorem test_wrbits_width_of_9_bits_is_refused : (Instr.wrBits 0 256 .cmd).wellFormed = false := by decide
theorem test_setcursor_row_of_9_bits_is_refused : (Instr.setCursor 256 0).wellFormed = false := by decide
theorem test_setcursor_col_of_9_bits_is_refused : (Instr.setCursor 0 256).wellFormed = false := by decide
theorem test_print_of_2_pow_24_code_points_is_refused :
    (Instr.print (List.replicate (2 ^ 24) 0x41)).wellFormed = false := by
  simp only [Instr.wellFormed, List.length_replicate]; decide
theorem test_createchar_of_256_rows_is_refused : (Instr.createChar 0 (List.replicate 256 0)).wellFormed = false := by
  simp only [Instr.wellFormed, List.length_replicate]; decide

/-! ### Decoding: words written out from file 30's encodings, one for each request (V28) -/

theorem test_decode_primitives :
    decodeTableWord 32 0x01001194 = some (.delay 4500) ∧
    decodeTableWord 32 0x02000000 = some .pulse ∧
    decodeTableWord 32 0x0302040A = some (.wrBits 0x0A 4 .data) ∧
    decodeTableWord 32 0x030101FF = some (.wrBits 0xFF 1 .cmd) ∧
    decodeTableWord 32 0x030008A5 = some (.wrBits 0xA5 8 .raw4) ∧
    decodeTableWord 32 0x04000003 = some (.sendRaw4 0x03) ∧
    decodeTableWord 32 0x05000028 = some (.sendCmd 0x28) ∧
    decodeTableWord 32 0x060000A5 = some (.sendData 0xA5) := by decide

theorem test_decode_display_commands :
    decodeTableWord 32 0x10000000 = some .clear ∧
    decodeTableWord 32 0x11000000 = some .home ∧
    decodeTableWord 32 0x12000105 = some (.setCursor 1 5) ∧
    decodeTableWord 32 0x1200FFFF = some (.setCursor 255 255) ∧
    decodeTableWord 32 0x13000000 = some .scrollL ∧
    decodeTableWord 32 0x14000000 = some .scrollR ∧
    decodeTableWord 32 0x15000000 = some .curMoveL ∧
    decodeTableWord 32 0x16000000 = some .curMoveR := by decide

theorem test_decode_mode_registers :
    decodeTableWord 32 0x20000001 = some (.displaySet true) ∧
    decodeTableWord 32 0x21000000 = some .displayGet ∧
    decodeTableWord 32 0x22000000 = some (.cursorSet false) ∧
    decodeTableWord 32 0x23000000 = some .cursorGet ∧
    decodeTableWord 32 0x24000001 = some (.blinkSet true) ∧
    decodeTableWord 32 0x25000000 = some .blinkGet ∧
    decodeTableWord 32 0x26000001 = some (.ltrSet true) ∧
    decodeTableWord 32 0x27000000 = some .ltrGet ∧
    decodeTableWord 32 0x28000001 = some (.rtlSet true) ∧
    decodeTableWord 32 0x29000000 = some .rtlGet ∧
    decodeTableWord 32 0x2A000000 = some (.autoscrollSet false) ∧
    decodeTableWord 32 0x2B000000 = some .autoscrollGet := by decide

theorem test_decode_data_and_backlight :
    decodeTableWord 32 0x30000041 = some (.write 0x41) ∧
    decode [0x31000002, 0x48, 0x49, 0x99] = .accepted (.print [0x48, 0x49]) [0x99] ∧
    decode [0x32000209, 0x0E, 0x1F] = .accepted (.createChar 9 [0x0E, 0x1F]) [] ∧
    decodeTableWord 32 0x38000180 = some (.backlightSet (.int 128)) ∧
    decodeTableWord 32 0x38000001 = some (.backlightSet (.bool true)) ∧
    decodeTableWord 32 0x39000000 = some .backlightGet := by decide

/-- Payload words above the table's 32 bits read as zeros. -/
theorem test_decode_payload_above_the_table_word :
    decodeTableWord 32 0x31000002 = some (.print [0, 0]) ∧
    decodeTableWord 64 0x4831000001 = some (.print [0x48]) := by decide

/-- The sixteen illegal header words of V27. -/
theorem test_illegal_words :
    ([0x00000000, 0x07000000, 0x17000000, 0x2C000000, 0x33000000, 0xFF000000, 0x10000001, 0x02010000, 0x06000141,
      0x22000002, 0x03030400, 0x03040400, 0x12010000, 0x38000002, 0x38000280, 0x32010000]
      : List Nat).map (decodeTableWord 32) = List.replicate 16 none := by decide

/-- The words of the vectors, from the encoder. -/
theorem test_encode_words :
    encode (.wrBits 0x0A 4 .data) = [0x0302040A] ∧ encode (.setCursor 1 5) = [0x12000105] ∧
    encode (.createChar 9 [0x0E, 0x1F]) = [0x32000209, 0x0E, 0x1F] ∧ encode (.backlightSet (.int 128)) = [0x38000180] := by
  decide

/-! ### A small state: the default configuration of file 95, just initialised, with scripted answers -/

/-- RS 0, EN 1, D0 to D3 2 to 5; no RW, no BL (file 95 section 0). -/
def pins4 : Pins := { bootPins with bl := none }

/-- RS 0, EN 1, RW 7, D0 to D7 2 to 6 and 8 to 10, BL 11. -/
def pins8 : Pins where
  rs   := 0
  en   := 1
  rw   := some 7
  data := [2, 3, 4, 5, 6, 8, 9, 10]
  bl   := some 11

/-- A configuration of file 95, `T_INIT3` 150 and `BL_DEFAULT` true. -/
def cfgOf (p : Pins) (lastCol : Fin 255) (lastRow : Fin 4) : Config where
  pins      := p
  geom      := ⟨lastCol, lastRow, .dots5x8⟩
  timing    := { documentTiming with tInit3 := .ofUs 150 }
  proto     := defaultProto
  blDefault := .bool true

/-- A pin port with these answers, all of whose next 60 calls succeed. -/
def portOf (answers : List Nat) : Port := ⟨answers.map .ofUs, 0, List.replicate 60 none, 0⟩

/-- A pin port whose call number `k` is the first to fail. -/
def failingPort (k : Nat) (answers : List Nat) : Port := ⟨answers.map .ofUs, 0, List.replicate k none ++ [some 9], 0⟩

/-- A block just initialised. -/
def ready (c : Config) (p : Port) : State :=
  { State.atReset c p [] with
    dctrl := 0x07, emode := 0x02, initialized := true, busy := false, latches := Latches.idle }

/-- The block of most vectors. -/
def block (answers : List Nat) : State := ready (cfgOf pins4 15 1) (portOf answers)

/-- The step answers a next state with this property. -/
def nextIs (r : Result) (p : State → Bool) : Bool :=
  match r with
  | .next t => p t
  | .fault _ => false
  | .refused _ => false

theorem next_of_nextIs {r : Result} {p : State → Bool} (h : nextIs r p = true) : ∃ t, r = .next t ∧ p t = true := by
  cases r with
  | next t => exact ⟨t, rfl, h⟩
  | fault f => cases f
  | refused _ => cases h

/-- What the request adds to the trace, its response, and `DCTRL` and `EMODE` after it. -/
def gives (r : Result) (trace : List Event) (answer : Word) (dctrl emode : Byte) : Bool :=
  nextIs r (fun t => decide (t.trace = trace) && decide (t.responses = [answer]) && decide (t.dctrl = dctrl)
    && decide (t.emode = emode))

def tq (n : Nat) : Event := .tq (.ofUs n)
def sl (n : Nat) : Event := .sl (.ofUs n)
def w1 (p : PinId) (v : Bool) : Event := .call (.write p v)

/-- One frame of the default configuration, every answer 0, its levels in the order RS, D0, D1, D2, D3. -/
def frame (rs d0 d1 d2 d3 : Bool) : List Event :=
  [.call (.bulk [(0, rs), (2, d0), (3, d1), (4, d2), (5, d3)]), w1 1 true, tq 0, sl 1, w1 1 false]

/-! ### One or two vectors for each request -/

/-- V1, below the floor and at it. -/
theorem test_delay :
    gives (exec (.delay 2000) (block [50])) [tq 50, sl 1950] 0 7 2 = true ∧
    gives (exec (.delay 2000) (block [2000])) [tq 2000] 0 7 2 = true := by decide +kernel

/-- V2. -/
theorem test_pulse :
    gives (exec .pulse (block [0])) [w1 1 true, tq 0, sl 1, w1 1 false] 0 7 2 = true ∧
    gives (exec .pulse (block [1])) [w1 1 true, tq 1, w1 1 false] 0 7 2 = true := by decide +kernel

/-- V3, widths 0, 1 and 8 on four pins. -/
theorem test_wrBits_four_pins :
    gives (exec (.wrBits 0xFF 0 .data) (block [1])) [.call (.bulk [(0, true)]), w1 1 true, tq 1, w1 1 false] 0 7 2 = true ∧
    gives (exec (.wrBits 0xFF 1 .cmd) (block [1]))
      [.call (.bulk [(0, false), (2, true)]), w1 1 true, tq 1, w1 1 false] 0 7 2 = true ∧
    gives (exec (.wrBits 0xA5 8 .raw4) (block [0])) (frame false true false true false) 0 7 2 = true := by decide +kernel

/-- V4, eight pins and RW. -/
theorem test_wrBits_eight_pins :
    gives (exec (.wrBits 0xA5 8 .data) (ready (cfgOf pins8 15 1) (portOf [1])))
      [.call (.bulk [(0, true), (2, true), (3, false), (4, true), (5, false), (6, false), (7, false), (8, true),
        (9, false), (10, true)]), w1 1 true, tq 1, w1 1 false] 0 7 2 = true := by decide +kernel

/-- V5: bits 7:4 are ignored. -/
theorem test_sendRaw4 :
    gives (exec (.sendRaw4 0xF2) (block [0, 0])) (frame false false true false false ++ [tq 0, sl 37]) 0 7 2 = true := by
  decide +kernel

/-- V6: the mirror is broken, no register follows. V9: each wait has its own answer. -/
theorem test_sendCmd :
    gives (exec (.sendCmd 0x0C) (block [0, 0, 0]))
      (frame false false false false false ++ frame false false false true true ++ [tq 0, sl 37]) 0 7 2 = true ∧
    gives (exec (.sendCmd 0x01) (block [0, 5, 20]))
      (frame false false false false false ++ [.call (.bulk [(0, false), (2, true), (3, false), (4, false), (5, false)]),
        w1 1 true, tq 5, w1 1 false, tq 20, sl 17]) 0 7 2 = true := by decide +kernel

/-- S3: `SEND.DATA 0xA5`. -/
theorem test_sendData :
    gives (exec (.sendData 0xA5) (block [0, 0, 0]))
      (frame true false true false true ++ frame true true false true false ++ [tq 0, sl 37]) 0 7 2 = true := by
  decide +kernel

/-- S9, `t = 0`. -/
theorem test_clear :
    gives (exec .clear (block [0, 0, 0, 0]))
      (frame false false false false false ++ frame false true false false false ++ [tq 0, sl 37, tq 0, sl 2000])
      0 7 2 = true := by decide +kernel

/-- V10. -/
theorem test_home :
    gives (exec .home (block [0, 0, 0, 0]))
      (frame false false false false false ++ frame false false true false false ++ [tq 0, sl 37, tq 0, sl 2000])
      0 7 2 = true := by decide +kernel

/-- V11: `SETCURSOR 2, 3` on 20 by 4 sends 0x97; a row out of range sends the last row's byte 0xD9 (S5). -/
theorem test_setCursor :
    gives (exec (.setCursor 2 3) (ready (cfgOf pins4 19 3) (portOf [0, 0, 0])))
      (frame false true false false true ++ frame false true true true false ++ [tq 0, sl 37]) 0 7 2 = true ∧
    gives (exec (.setCursor 255 5) (ready (cfgOf pins4 19 3) (portOf [0, 0, 0])))
      (frame false true false true true ++ frame false true false false true ++ [tq 0, sl 37]) 0 7 2 = true := by
  decide +kernel

/-- V11, its corner cases: the command byte by geometry, row and column. -/
theorem test_setCursor_bytes :
    ddramCommand (cfgOf pins4 15 1) 1 255 = 0xBF ∧ ddramCommand (cfgOf pins4 19 3) 3 255 = 0xD3 ∧
    ddramCommand (cfgOf pins4 15 3) 255 255 = 0xCF ∧ ddramCommand (cfgOf pins4 15 3) 2 0 = 0x90 ∧
    ddramCommand (cfgOf pins4 19 3) 2 0 = 0x94 ∧ ddramCommand (cfgOf pins4 15 0) 7 0 = 0x80 ∧
    ddramCommand (cfgOf pins4 15 1) 0 128 = 0x80 := by decide

/-- V12: frames 0x1, 0x8. -/
theorem test_scrollL :
    gives (exec .scrollL (block [0, 0, 0]))
      (frame false true false false false ++ frame false false false false true ++ [tq 0, sl 37]) 0 7 2 = true := by
  decide +kernel

/-- V12: frames 0x1, 0xC. -/
theorem test_scrollR :
    gives (exec .scrollR (block [0, 0, 0]))
      (frame false true false false false ++ frame false false false true true ++ [tq 0, sl 37]) 0 7 2 = true := by
  decide +kernel

/-- V12: frames 0x1, 0x0. -/
theorem test_curMoveL :
    gives (exec .curMoveL (block [0, 0, 0]))
      (frame false true false false false ++ frame false false false false false ++ [tq 0, sl 37]) 0 7 2 = true := by
  decide +kernel

/-- V12: frames 0x1, 0x4. -/
theorem test_curMoveR :
    gives (exec .curMoveR (block [0, 0, 0]))
      (frame false true false false false ++ frame false false false true false ++ [tq 0, sl 37]) 0 7 2 = true := by
  decide +kernel

/-- V16: byte 0x0B. -/
theorem test_displaySet :
    gives (exec (.displaySet false) (block [0, 0, 0]))
      (frame false false false false false ++ frame false true true false true ++ [tq 0, sl 37]) 0 3 2 = true := by
  decide +kernel

/-- V13: byte 0x0D. -/
theorem test_cursorSet :
    gives (exec (.cursorSet false) (block [0, 0, 0]))
      (frame false false false false false ++ frame false true false true true ++ [tq 0, sl 37]) 0 5 2 = true := by
  decide +kernel

/-- V15: nothing changes, byte 0x0F goes out. -/
theorem test_blinkSet :
    gives (exec (.blinkSet true) (block [0, 0, 0]))
      (frame false false false false false ++ frame false true true true true ++ [tq 0, sl 37]) 0 7 2 = true := by
  decide +kernel

/-- V14: byte 0x04. -/
theorem test_ltrSet :
    gives (exec (.ltrSet false) (block [0, 0, 0]))
      (frame false false false false false ++ frame false false false true false ++ [tq 0, sl 37]) 0 7 0 = true := by
  decide +kernel

/-- S7: `RTL.SET 1` sends 0x04. -/
theorem test_rtlSet :
    gives (exec (.rtlSet true) (block [0, 0, 0]))
      (frame false false false false false ++ frame false false false true false ++ [tq 0, sl 37]) 0 7 0 = true := by
  decide +kernel

/-- V14: byte 0x07. -/
theorem test_autoscrollSet :
    gives (exec (.autoscrollSet true) (block [0, 0, 0]))
      (frame false false false false false ++ frame false true true true false ++ [tq 0, sl 37]) 0 7 3 = true := by
  decide +kernel

/-- V17: all getters after initialisation. -/
theorem test_getters :
    gives (exec .displayGet (block [])) [] 1 7 2 = true ∧ gives (exec .cursorGet (block [])) [] 1 7 2 = true ∧
    gives (exec .blinkGet (block [])) [] 1 7 2 = true ∧ gives (exec .ltrGet (block [])) [] 1 7 2 = true ∧
    gives (exec .rtlGet (block [])) [] 0 7 2 = true ∧ gives (exec .autoscrollGet (block [])) [] 0 7 2 = true := by
  decide +kernel

/-- The other answers of the getters, from `DCTRL` 0 and `EMODE` 1 (V13, V14). -/
theorem test_getters_other_values :
    let s : State := { block [] with dctrl := 0, emode := 1 }
    gives (exec .displayGet s) [] 0 0 1 = true ∧ gives (exec .cursorGet s) [] 0 0 1 = true ∧
    gives (exec .blinkGet s) [] 0 0 1 = true ∧ gives (exec .ltrGet s) [] 0 0 1 = true ∧
    gives (exec .rtlGet s) [] 1 0 1 = true ∧ gives (exec .autoscrollGet s) [] 1 0 1 = true := by decide +kernel

/-- V18. -/
theorem test_write :
    gives (exec (.write 0x41) (block [0, 0, 0]))
      (frame true false false true false ++ frame true true false false false ++ [tq 0, sl 37]) 0 7 2 = true := by
  decide +kernel

/-- V19: an empty text, and 0x263A sent as 0x3A. -/
theorem test_print :
    gives (exec (.print []) (block [])) [] 0 7 2 = true ∧
    gives (exec (.print [0x263A]) (block [0, 0, 0]))
      (frame true true true false false ++ frame true false true false true ++ [tq 0, sl 37]) 0 7 2 = true := by
  decide +kernel

/-- V20: no element, the address command and its wait; ten elements, 18 bulk writes. -/
theorem test_createChar :
    gives (exec (.createChar 255 []) (block [0, 0, 0, 0]))
      (frame false true true true false ++ frame false false false false true ++ [tq 0, sl 37, tq 0, sl 30]) 0 7 2 = true ∧
    nextIs (exec (.createChar 3 (List.replicate 10 1)) (block (List.replicate 36 0)))
      (fun t => t.trace.countP Event.isWb == 18 && t.trace.countP Event.isTq == 36) = true := by decide +kernel

/-- V21, with a backlight pin and without. -/
theorem test_backlightSet :
    nextIs (exec (.backlightSet (.int 128)) (ready (cfgOf pins8 15 1) (portOf [])))
      (fun t => decide (t.trace = [.call (.analog 11 (.int 128))] ∧ t.blvl = some (.int 128) ∧ t.responses = [0])) = true ∧
    nextIs (exec (.backlightSet (.int 128)) (block []))
      (fun t => decide (t.trace = [] ∧ t.blvl = none ∧ t.responses = [0])) = true := by decide +kernel

/-- V17, V21: kinds 1, 2 and 0. -/
theorem test_backlightGet :
    gives (exec .backlightGet { block [] with blvl := some (.bool true) }) [] 0x101 7 2 = true ∧
    gives (exec .backlightGet { block [] with blvl := some (.int 255) }) [] 0x2FF 7 2 = true ∧
    gives (exec .backlightGet (block [])) [] 0 7 2 = true := by decide +kernel

/-! ### Construction, exceptions, steps -/

/-- V22: initialisation with eight pins, RW and BL. -/
theorem test_initialisation :
    nextIs (step (State.atReset (cfgOf pins8 15 3) (portOf (List.replicate 25 0)) []))
      (fun t => decide (t.dfunc = 0x08 ∧ t.dctrl = 0x07 ∧ t.emode = 0x02 ∧ t.blvl = some (.bool true) ∧
        t.initialized = true ∧ t.busy = false ∧ t.trace.length = 12 + 12 + 24 + 1 + 25 + 25 ∧
        sleptUs t.trace = 107108)) = true := by decide +kernel

/-- V26: the 27th pin call fails during initialisation. -/
theorem test_initialisation_fails :
    nextIs (step (State.atReset (cfgOf pins4 15 1) (failingPort 26 (List.replicate 25 0)) []))
      (fun t => decide (t.trace.length = 59 ∧ t.trace.getLast? = some (.fail (.write 1 false) 9) ∧
        t.initialized = false ∧ t.busy = true ∧ t.fault = .ioFailure ∧ t.responses = [])) = true := by decide +kernel

/-- V24: five data pins. -/
theorem test_invalid_configuration :
    nextIs (step (State.atReset (cfgOf { pins4 with data := [2, 3, 4, 5, 6] } 15 1) (portOf []) []))
      (fun t => decide (t.trace = [] ∧ t.initialized = false ∧ t.busy = true ∧ t.fault = .invalidConfiguration)) = true := by
  decide +kernel

/-- V25, its second row: the second pin call of `CURSOR.SET 0` fails. -/
theorem test_setter_fails :
    nextIs (exec (.cursorSet false) { ready (cfgOf pins4 15 1) (failingPort 1 [0, 0, 0]) with lvl := [(0, false), (1, false)] })
      (fun t => decide (t.trace = [.call (.bulk [(0, false), (2, false), (3, false), (4, false), (5, false)]),
          .fail (.write 1 true) 9] ∧ t.responses = [0x02000000] ∧ t.dctrl = 0x07 ∧ t.fault = .ioFailure ∧
        t.busy = false ∧ t.lvl = [(0, false), (2, false), (3, false), (4, false), (5, false)])) = true := by decide +kernel

/-- V27: an illegal word is refused and only it is taken. -/
theorem test_step_refuses_an_illegal_word :
    nextIs (step { block [] with inbox := [0x10000001, 0x39000000] })
      (fun t => decide (t.responses = [0x03000000] ∧ t.inbox = [0x39000000] ∧ t.trace = [] ∧ t.fault = .none)) = true := by
  decide +kernel

/-- `withFetchWord` makes the next step run exactly that request, from the state after reset. -/
theorem test_withFetchWord_runs_the_request :
    nextIs (step (State.reset.withFetchWord 32 0x39000000))
      (fun t => decide (t.responses = [0x00000000] ∧ t.inbox = [] ∧ t.trace = [])) = true := by decide +kernel

/-- Two roles on one pin id: the one refusal (U11). -/
theorem test_duplicate_pins_are_refused :
    step (State.atReset (cfgOf { pins4 with en := 0 } 15 1) (portOf []) []) = .refused .duplicatePinIds := rfl

/-! ### Witnesses: for every obligation, states and operands that meet its hypotheses -/

/-- A scripted port all of whose `n` calls succeed. -/
theorem okPort_callsOk (n : Nat) : (Port.mk [] 0 (List.replicate n none) 0).callsOk n := by
  intro k hk
  simp [Port.outcomeAt, hk]

/-- A scripted port whose `k`-th call is the first to fail, for every `k`. -/
theorem failingPort_fails (k : Nat) (answers : List Nat) :
    (failingPort k answers).callsOk k ∧ (failingPort k answers).outcomeAt k = some 9 := by
  constructor
  · intro j hj
    simp [failingPort, Port.outcomeAt, List.getElem?_append, hj]
  · simp [failingPort, Port.outcomeAt]

/-- The hypotheses of `StopsAtFailingCall i s n`, for any number of calls that is not 0: a first and a last failing call. -/
theorem witness_StopsAtFailingCall (n : Nat) (h : 0 < n) : ∀ k, k = 0 ∨ k = n - 1 →
    let s := ready (cfgOf pins8 15 1) (failingPort k [])
    k < n ∧ s.port.callsOk k ∧ s.port.outcomeAt k = some 9 ∧ s.initialized = true :=
  fun k hk => ⟨by omega, (failingPort_fails k []).1, (failingPort_fails k []).2, rfl⟩

/-- The largest operands of every request that has a range. -/
theorem witness_DecodeOfEncodeIsTheRequest :
    (Instr.delay (2 ^ 24 - 1)).wellFormed = true ∧ (Instr.wrBits 0xFF 255 .data).wellFormed = true ∧
    (Instr.setCursor 255 255).wellFormed = true ∧ (Instr.print [0x48]).wellFormed = true ∧
    (Instr.createChar 0xFF (List.replicate 255 0)).wellFormed = true ∧ Instr.pulse.wellFormed = true := by
  simp only [Instr.wellFormed, List.length_replicate]; decide

theorem witness_AcceptedWordsAreTheEncoding : decode [0x31000001, 0x48, 7] = .accepted (.print [0x48]) [7] := by decide

theorem witness_StepRunsTheDecodedRequest :
    let s : State := { block [0] with inbox := encode (.print [0x48]) ++ [0x39000000] }
    (Instr.print [0x48]).wellFormed = true ∧ s.resetIn = none ∧ s.initialized = true ∧ s.busy = false ∧
      s.inbox = encode (.print [0x48]) ++ [0x39000000] := by decide

theorem witness_MissingPayloadIsAwaited :
    let s : State := { block [] with inbox := [0x31000002, 0x48] }
    s.resetIn = none ∧ s.initialized = true ∧ s.busy = false ∧ s.inbox = [0x31000002, 0x48] ∧
      (∀ why, decodeHeader 0x31000002 ≠ .illegal why) ∧ ([0x48] : List Word).length < payloadWords 0x31000002 ∧
      (block []).inbox = [] := by
  refine ⟨rfl, rfl, rfl, rfl, fun why => ?_, by decide, rfl⟩
  cases why <;> decide

theorem witness_IllegalWordIsRefusedWithoutEffect :
    let s : State := { block [] with inbox := [0x03030400, 5] }
    s.resetIn = none ∧ s.initialized = true ∧ s.busy = false ∧ s.inbox = [0x03030400, 5] ∧
      decodeHeader 0x03030400 = .illegal .reservedMode := by decide

/-- Below the floor, at it and above it. -/
theorem witness_TimingEnforcer :
    ((block [36]).port.tioAt 0).us < (Duration.ofUs 37).us ∧ (Duration.ofUs 37).us ≤ ((block [37]).port.tioAt 0).us ∧
    (Duration.ofUs 37).us ≤ ((block [38]).port.tioAt 0).us := by decide +kernel

theorem witness_DelayRule : (2 ^ 24 - 1 : Nat) < 2 ^ 24 ∧ (0 : Nat) < 2 ^ 24 := by decide

theorem witness_PulseRule : (block []).port.callsOk 2 ∧ (2 : PinId) ≠ (block []).cfg.pins.en := by decide

/-- Four pins and eight with RW; a driven pin, an undriven one, a pin that is none of the frame's. -/
theorem witness_BulkWriteCarriesTheFrame :
    pins4.distinct ∧ pins8.distinct ∧ pins8.rw = some 7 ∧ pins8.data[3]? = some 5 ∧ pins8.data[4]? = some 6 ∧
    (11 ≠ pins8.rs ∧ some 11 ≠ pins8.rw ∧ 11 ∉ pins8.data) := by decide

theorem witness_WrBitsRule : (255 : Nat) < 2 ^ 8 ∧ (block []).port.callsOk 3 := by decide

theorem witness_SendRules : (block []).port.callsOk 3 ∧ (block []).port.callsOk 6 := by decide

theorem witness_EventCounts : (block []).port.callsOk 2 ∧ (block []).port.callsOk 3 ∧ (block []).port.callsOk 6 := by decide

theorem witness_ClearAndHomeRules : (block []).port.callsOk 6 := by decide

/-- The first row out of range, and the largest. -/
theorem witness_CursorAddress :
    (cfgOf pins4 15 3).geom.rows ≤ 4 ∧ (cfgOf pins4 15 3).geom.rows ≤ 255 ∧ (cfgOf pins4 15 0).geom.rows ≤ 1 := by decide

theorem witness_SetCursorRule :
    (255 : Nat) < 2 ^ 8 ∧ (block []).port.callsOk 6 ∧ (block []).initialized = true ∧ (block []).cfg.geom.rows ≤ 2 := by
  decide

theorem witness_ShiftRules : (block []).port.callsOk 6 ∧ (block []).cfg.proto = defaultProto := by decide

theorem witness_DisplayControlSetters : (block []).port.callsOk 6 := by decide

theorem witness_EntryModeSetters : (block []).port.callsOk 6 := by decide

theorem witness_SetThenGet : (block []).cfg.proto = defaultProto ∧ (block []).port.callsOk 6 := by decide

theorem witness_RequestEqualities : (block []).initialized = true ∧ (block []).port.callsOk (6 * (2 + 1)) := by decide

theorem witness_WriteRule : (block []).port.callsOk 6 := by decide

theorem witness_PrintRule :
    ([0x48, 0x49] : List Word).length < 2 ^ 24 ∧ (block []).port.callsOk (6 * 2) ∧ (block []).port.callsOk (6 * 0) := by
  decide

/-- No row, eight rows, more than eight. -/
theorem witness_CreateCharRule :
    (List.replicate 255 (0 : Word)).length < 2 ^ 8 ∧ (block []).port.callsOk (6 + 6 * min 0 8) ∧
    (block []).port.callsOk (6 + 6 * min 8 (block []).cfg.proto.glyphMax) ∧
    (block []).port.callsOk (6 + 6 * min 255 (block []).cfg.proto.glyphMax) := by
  rw [List.length_replicate]; decide

theorem witness_GlyphLocationsWrap :
    (block []).cfg.proto = defaultProto ∧ (1 : Byte).toNat % 8 = (9 : Byte).toNat % 8 ∧
    (7 : Byte).toNat % 8 = (255 : Byte).toNat % 8 := by decide

theorem witness_BacklightSetRule :
    let s := ready (cfgOf pins8 15 1) (portOf [])
    s.cfg.pins.bl = some 11 ∧ s.port.callsOk 1 ∧ (block []).cfg.pins.bl = none := by decide

theorem witness_ResetDiscardsEverything :
    let s : State := { block [] with resetIn := some (cfgOf pins8 15 1) }
    s.resetIn = some (cfgOf pins8 15 1) := by decide +kernel

/-- Four, two and one rows, both fonts. -/
theorem witness_DfuncValue :
    1 < (cfgOf pins4 15 3).geom.rows ∧ 1 < (cfgOf pins4 15 1).geom.rows ∧ (cfgOf pins4 15 0).geom.rows = 1 ∧
    (cfgOf pins4 15 0).geom.charSize = .dots5x8 ∧
    (let c : Config := { cfgOf pins4 15 0 with geom := ⟨15, 0, .dots5x10⟩ }
     c.geom.rows = 1 ∧ c.geom.charSize = .dots5x10 ∧ c.proto = defaultProto) := by decide

/-- Three, five, seven and nine data pins. -/
theorem witness_InvalidConfigurationKillsTheBlock :
    ∀ n ∈ [0, 3, 5, 7, 9],
      let s := State.atReset (cfgOf { pins4 with data := List.replicate n 2 } 15 1) (portOf []) []
      s.resetIn = none ∧ s.initialized = false ∧ s.busy = true ∧ s.fault = .none ∧ s.cfg.pins.nData ≠ 4 ∧
        s.cfg.pins.nData ≠ 8 := by decide

/-- Four pins alone, and eight with RW and BL, each with its number of calls. -/
theorem witness_InitialisationCompletes :
    (pins4.nData = 4 ∧ pins4.distinct ∧
      (portOf []).callsOk (38 + pins4.rw.toList.length + pins4.nData + 2 * pins4.bl.toList.length)) ∧
    (pins8.nData = 8 ∧ pins8.distinct ∧
      (portOf []).callsOk (38 + pins8.rw.toList.length + pins8.nData + 2 * pins8.bl.toList.length)) := by decide

theorem witness_InitialisationTraceShape :
    (pins4.nData = 4 ∧ pins4.distinct ∧
      (portOf []).callsOk (38 + pins4.rw.toList.length + pins4.nData + 2 * pins4.bl.toList.length)) ∧
    (pins8.nData = 8 ∧ pins8.distinct ∧
      (portOf []).callsOk (38 + pins8.rw.toList.length + pins8.nData + 2 * pins8.bl.toList.length)) := by decide

theorem witness_ValuesAfterInitialisation :
    (cfgOf pins8 15 1).proto = defaultProto ∧ (pins8.nData = 4 ∨ pins8.nData = 8) ∧ pins8.distinct ∧
    (portOf []).callsOk (38 + pins8.rw.toList.length + pins8.nData + 2 * pins8.bl.toList.length) ∧
    pins8.rw = some 7 ∧ pins8.data[3]? = some 5 ∧ pins8.data[4]? = some 6 := by decide

/-- The first call of construction and the last one. -/
theorem witness_InitialisationStopsAtFailingCall : ∀ k, k = 0 ∨ k = 48 →
    (pins8.nData = 4 ∨ pins8.nData = 8) ∧ pins8.distinct ∧
    k < 38 + pins8.rw.toList.length + pins8.nData + 2 * pins8.bl.toList.length ∧
    (failingPort k []).callsOk k ∧ (failingPort k []).outcomeAt k = some 9 := by
  intro k hk
  refine ⟨by decide, by decide, ?_, failingPort_fails k []⟩
  rcases hk with rfl | rfl <;> decide

theorem witness_EveryRequestStopsAtItsFailingCall :
    let s := ready (cfgOf pins4 15 1) (failingPort 5 [0, 0, 0])
    5 < (requestEvents .curMoveL s s.port.tioAt).countP Event.isCall ∧ s.port.callsOk 5 ∧
      s.port.outcomeAt 5 = some 9 := by decide +kernel

/-- Requests on both sides of the line. -/
theorem witness_RequestsThatCanFail :
    ([] : List Word).isEmpty = true ∧ ([0x48] : List Word).isEmpty = false ∧ (cfgOf pins4 15 1).pins.bl.isNone = true ∧
    (cfgOf pins8 15 1).pins.bl.isNone = false := by decide

theorem witness_EveryRequestAnswersOnce : (block []).initialized = true := by decide

/-- A request that ends well and one that fails, neither a setter. -/
theorem witness_RegisterFrame :
    (∃ t, exec .clear (block []) = .next t) ∧ (∃ t, exec .clear (ready (cfgOf pins4 15 1) (failingPort 2 [])) = .next t) ∧
    (∀ on, Instr.clear ≠ .displaySet on ∧ Instr.clear ≠ .cursorSet on ∧ Instr.clear ≠ .blinkSet on) ∧
    (∀ on, Instr.clear ≠ .ltrSet on ∧ Instr.clear ≠ .rtlSet on ∧ Instr.clear ≠ .autoscrollSet on) ∧
    (∀ v, Instr.clear ≠ .backlightSet v) :=
  ⟨⟨_, rfl⟩, ⟨_, rfl⟩, fun _ => by simp, fun _ => by simp, fun _ => by simp⟩

/-- Four requests and pins outside what each may write. -/
theorem witness_PinFrame :
    let s := ready (cfgOf pins8 15 1) (portOf [])
    (∃ t, exec (.wrBits 0xFF 6 .cmd) s = .next t) ∧ (∃ t, exec .pulse s = .next t) ∧ (∃ t, exec .clear s = .next t) ∧
    (∃ t, exec (.backlightSet (.int 1)) s = .next t) ∧
    s.cfg.pins.distinct ∧ 9 ∉ s.cfg.pins.en :: s.cfg.pins.rs :: (s.cfg.pins.rw.toList ++ s.cfg.pins.data.take 6) ∧
    0 ≠ s.cfg.pins.en ∧ 6 ∉ s.cfg.pins.en :: s.cfg.pins.rs :: (s.cfg.pins.rw.toList ++ s.cfg.pins.data.take 4) ∧
    some 1 ≠ s.cfg.pins.bl :=
  ⟨⟨_, rfl⟩, ⟨_, rfl⟩, ⟨_, rfl⟩, ⟨_, rfl⟩, by decide, by decide, by decide, by decide, by decide⟩

/-- A step that runs a request, and the step of construction. -/
theorem witness_TraceOnlyGrows :
    (∃ t, step { block [] with inbox := [0x10000000] } = .next t) ∧
    (∃ t, step (State.atReset (cfgOf pins4 15 1) (portOf []) []) = .next t) ∧ (block []).resetIn = none :=
  ⟨⟨_, rfl⟩, ⟨_, rfl⟩, rfl⟩

/-- A failed block that still runs requests, an initialised one, a block about to initialise, and two dead ones: one whose
construction failed, and one that is both initialised and busy. -/
theorem witness_StatusFlagsAreSticky :
    (let s : State := { block [] with fault := .ioFailure, inbox := [0x39000000] }
     s.resetIn = none ∧ s.fault ≠ .none ∧ s.initialized = true ∧ ∃ t, step s = .next t) ∧
    (∃ t, step (State.atReset (cfgOf pins4 15 1) (portOf (List.replicate 25 0)) []) = .next t ∧ t.initialized = true) ∧
    (let s : State := { State.atReset (cfgOf pins4 15 1) (portOf []) [] with fault := .ioFailure }
     s.fault ≠ .none ∧ s.resetIn = none ∧ phaseOf s = .dead ∧ ∃ t, step s = .next t) ∧
    (let s : State := { block [] with busy := true, inbox := [0x10000000] }
     s.resetIn = none ∧ phaseOf s = .dead ∧ ∃ t, step s = .next t) :=
  ⟨⟨rfl, by decide, rfl, _, rfl⟩, next_of_nextIs (p := fun t => t.initialized) (by decide +kernel),
    ⟨by decide, rfl, by decide, _, rfl⟩, rfl, by decide, _, rfl⟩

/-- Construction that ends well, that fails at its ninth call, and that the pin count forbids. -/
theorem witness_AnswersNeverReachThePins :
    (∃ t, step (State.atReset (cfgOf pins8 15 1) (portOf []) []) = .next t) ∧
    (∃ t, step (State.atReset (cfgOf pins4 15 1) (failingPort 8 []) []) = .next t) ∧
    (∃ t, step (State.atReset (cfgOf { pins4 with data := [2, 3] } 15 1) (portOf []) []) = .next t) :=
  ⟨⟨_, rfl⟩, ⟨_, rfl⟩, ⟨_, rfl⟩⟩

/-- `HOME` and `PULSE`, every call and every answer scripted: what they add to the trace holds no failed call. -/
theorem witness_PulsesComeInPairs :
    (∃ t, exec .home (block [0, 0, 0, 0]) = .next t ∧ decide (t.trace = (block []).trace ++ t.trace ∧
      t.trace.countP Event.isFail = 0 ∧ t.trace.length = 14) = true) ∧
    (∃ t, exec .pulse (block [1]) = .next t ∧ decide (t.trace = (block []).trace ++ t.trace ∧
      t.trace.countP Event.isFail = 0 ∧ t.trace.length = 3) = true) :=
  ⟨next_of_nextIs (by decide +kernel), next_of_nextIs (by decide +kernel)⟩

/-- Every answer 0, every call good: the requests of the sums, and initialisation. -/
theorem witness_SumsOfFloors :
    let s := block (List.replicate 36 0)
    (s.cfg.timing = { documentTiming with tInit3 := .ofUs 150 } ∧ s.cfg.proto.glyphMax = 8 ∧
      (∀ k < 36, s.port.tioAt k = .ofUs 0) ∧ s.port.callsOk 54 ∧ (List.replicate 8 (0x1F : Word)).length = 8) ∧
    ((cfgOf pins8 15 1).timing = { documentTiming with tInit3 := .ofUs 150 } ∧ pins8.nData = 8 ∧ pins8.distinct ∧
      s.port.callsOk (38 + pins8.rw.toList.length + pins8.nData + 2 * pins8.bl.toList.length)) := by
  exact ⟨⟨rfl, rfl, by decide +kernel, by decide, rfl⟩, rfl, by decide, by decide, by decide⟩

/-- An initialised block that has written one pin, about to run `CLEAR`. -/
theorem witness_StepKeepsLevels :
    let s : State := { block [] with trace := [w1 1 false], lvl := [(1, false)], inbox := [0x10000000] }
    s.LevelsInv ∧ ∃ t, step s = .next t := by
  refine ⟨⟨by decide, fun p => ?_⟩, _, rfl⟩
  show (if p = 1 then some false else none) = (if 1 = p then some false else none)
  simp only [eq_comm]

theorem witness_StepKeepsStatus :
    let s : State := { block [] with inbox := [0x10000000] }
    s.StatusInv ∧ ∃ t, step s = .next t := by
  refine ⟨⟨fun _ => rfl, rfl, fun _ => .inl rfl, fun _ => by decide, by decide, fun _ => rfl, ?_, ?_⟩, _, rfl⟩
  · intro h; exact absurd h (by decide)
  · intro h; exact absurd h (by decide)

/-- A block that has sent one nibble frame, about to send more. -/
theorem witness_StepKeepsEnableLow :
    let s : State := { block [] with trace := frame false true false false false, inbox := [0x10000000] }
    s.EnableInv ∧ ∃ t, step s = .next t := by
  refine ⟨⟨fun _ => by decide, fun _ _ => by decide, by decide, ?_⟩, _, rfl⟩
  intro before m after h
  match before, h with
  | [], _ => decide
  | [_], h => simp [frame, w1] at h
  | [_, _], h => simp [frame, tq] at h
  | [_, _, _], h => simp [frame, sl] at h
  | [_, _, _, _], h => simp [frame, w1] at h
  | _ :: _ :: _ :: _ :: _ :: rest, h => simp [frame] at h

/-- `SEND.CMD` on both sides of the line: 0x0F and 0x04 can break the mirror, 0x10 and 0x03 cannot. -/
theorem test_canBreakMirror :
    (Instr.sendCmd 0x0F).canBreakMirror = true ∧ (Instr.sendCmd 0x04).canBreakMirror = true ∧
    (Instr.sendCmd 0x10).canBreakMirror = false ∧ (Instr.sendCmd 0x03).canBreakMirror = false := by decide

/-- A block that has sent the display-control and entry-mode commands of initialisation, about to run `CURSOR.SET 0`. -/
theorem witness_StepKeepsTheMirror :
    let s : State := { block [] with
      trace := frame false false false false false ++ frame false true true true true
        ++ frame false false false false false ++ frame false false true true false
      inbox := [0x22000000] }
    s.MirrorInv ∧ (∀ c, s.resetIn = some c → c.proto = defaultProto) ∧
      (s.initialized = true → ∀ i rest, decode s.inbox = .accepted i rest → i.canBreakMirror = false) ∧
      ∃ t, step s = .next t := by
  refine ⟨⟨rfl, ⟨by decide, by decide, by decide⟩, fun _ => by decide, ?_, fun _ _ => by decide, fun _ _ => by decide,
    fun _ _ => by decide⟩, ?_, ?_, _, rfl⟩
  · intro h; exact absurd h (by decide)
  · intro c h; exact absurd h (by simp [block, ready, State.atReset])
  · intro _ i rest h
    have : decode [0x22000000] = .accepted (.cursorSet false) [] := by decide
    simp only [this, Decoded.accepted.injEq] at h
    rw [← h.1]; rfl

theorem witness_MirrorHoldsAtReset : (cfgOf pins4 15 1).proto = defaultProto := rfl

theorem witness_StepKeepsZeroFields :
    let s : State := { block [] with inbox := [0x22000000] }
    s.cfg.proto = defaultProto ∧ (∀ c, s.resetIn = some c → c.proto = defaultProto) ∧ s.ZeroFields ∧
      ∃ t, step s = .next t :=
  ⟨rfl, fun c h => absurd h (by simp [block, ready, State.atReset]), ⟨by decide, by decide, by decide⟩, _, rfl⟩

end Sys2Proof.Machine.Tests
end

/-! The trace is extended by every step but a reset, and a failed call ends what is added (R12, R62). -/

namespace Sys2Proof.Machine

/-- A failed call can only be the last of these events. -/
def FailOnlyLast (es : List Event) : Prop :=
  ∀ before e after, es = before ++ e :: after → e.isFail = true → after = []

/-- The trace of `t` is that of `s` and further events, of which only the last can be a failed call. -/
def State.TraceGrows (s t : State) : Prop :=
  ∃ es, t.trace = s.trace ++ es ∧ FailOnlyLast es

/-! ### Sequences in which a failed call comes last -/

theorem failOnlyLast_of_forall_not_fail {es : List Event} (h : ∀ e ∈ es, e.isFail = false) : FailOnlyLast es := by
  rintro before e after rfl hfail
  exact absurd hfail (by simp [h e (by simp)])

theorem failOnlyLast_concat {es : List Event} (last : Event) (h : ∀ e ∈ es, e.isFail = false) :
    FailOnlyLast (es ++ [last]) := by
  intro before e after heq hfail
  rcases List.eq_nil_or_concat' after with hnil | ⟨after', x, rfl⟩
  · exact hnil
  · have hes : es = before ++ e :: after' :=
      (List.append_inj' (heq.trans (List.append_assoc before (e :: after') [x]).symm) rfl).1
    exact absurd hfail (by simp [h e (by simp [hes])])

theorem failOnlyLast_cutAtCall {k : Nat} {info : PortInfo} {es : List Event} (hk : k < es.countP Event.isCall)
    (h : ∀ e ∈ es, e.isFail = false) : FailOnlyLast (cutAtCall k info es) := by
  obtain ⟨pre, c, post, hes, hcut, -⟩ := cutAtCall_split k info es hk
  rw [hcut]
  exact failOnlyLast_concat _ fun e he => h e (hes ▸ List.mem_append_left _ he)

/-! ### Statements whose calls succeed produce no failed call -/

theorem Stmt.isFail_of_mem_events {st : Stmt} {t : Nat → Duration} {e : Event} (h : e ∈ st.events t) :
    e.isFail = false := by
  cases st with
  | call c => rw [List.mem_singleton.mp h]; rfl
  | delay d =>
    simp only [Stmt.events, delayEvents, List.mem_cons] at h
    rcases h with rfl | h
    · rfl
    · split at h
      · rw [List.mem_singleton.mp h]; rfl
      · exact absurd h List.not_mem_nil
  | present _ | setDctrl _ | setEmode _ | setBlvl _ => exact absurd h List.not_mem_nil

theorem isFail_of_mem_stmtsEvents {b : List Stmt} {t : Nat → Duration} {e : Event} (h : e ∈ stmtsEvents b t) :
    e.isFail = false := by
  induction b generalizing t with
  | nil => exact absurd h List.not_mem_nil
  | cons st rest ih =>
    rcases List.mem_append.mp h with h | h
    · exact Stmt.isFail_of_mem_events h
    · exact ih h

theorem failOnlyLast_stmtsEvents (b : List Stmt) (t : Nat → Duration) : FailOnlyLast (stmtsEvents b t) :=
  failOnlyLast_of_forall_not_fail fun _ => isFail_of_mem_stmtsEvents

theorem failOnlyLast_cutAtCall_stmtsEvents {k : Nat} {b : List Stmt} (info : PortInfo) (t : Nat → Duration)
    (hk : k < stmtsCalls b) : FailOnlyLast (cutAtCall k info (stmtsEvents b t)) :=
  failOnlyLast_cutAtCall (by rwa [countCall_stmtsEvents]) fun _ => isFail_of_mem_stmtsEvents

/-! ### Requests, construction and steps -/

theorem State.traceGrows_of_trace_eq {s t : State} (h : t.trace = s.trace) : s.TraceGrows t :=
  ⟨[], by rw [h, List.append_nil], failOnlyLast_of_forall_not_fail fun _ he => absurd he List.not_mem_nil⟩

theorem exec_traceGrows {i : Instr} {s t : State} (h : exec i s = .next t) : s.TraceGrows t := by
  rcases exec_cases i s with ⟨-, hexec⟩ | ⟨k, info, l, hk, -, -, hexec⟩
  all_goals
    rw [hexec, Host.Outcome.next.injEq] at h
    subst h
    rw [← stmtsEvents_bodyOf]
  · exact ⟨_, rfl, failOnlyLast_stmtsEvents _ _⟩
  · exact ⟨_, rfl, failOnlyLast_cutAtCall_stmtsEvents info _ hk⟩

theorem constructPins_traceGrows {s : State} (hi : s.initialized = false) : s.TraceGrows (constructPins s) := by
  rcases constructPins_cases s hi with ⟨-, hend⟩ | ⟨k, info, dc, em, l, p, w, hk, -, -, hend⟩
  all_goals rw [hend, ← stmtsEvents_construct]
  · exact ⟨_, rfl, failOnlyLast_stmtsEvents _ _⟩
  · exact ⟨_, rfl, failOnlyLast_cutAtCall_stmtsEvents info _ hk⟩

theorem step_traceGrows {s t : State} (hr : s.resetIn = none) (h : step s = .next t) : s.TraceGrows t := by
  rcases step_cases hr h with ⟨-, -, i, rest, -, hexec⟩ | ⟨-, -, -, rest, -, rfl⟩ | rfl | ⟨-, -, -, -, -, rfl⟩ |
    ⟨hi, -, -, -, -, rfl⟩
  · exact exec_traceGrows (s := s.setInbox rest) hexec
  · exact State.traceGrows_of_trace_eq rfl
  · exact State.traceGrows_of_trace_eq rfl
  · exact State.traceGrows_of_trace_eq rfl
  · exact constructPins_traceGrows (s := s.setDfunc (dfuncOf s.cfg)) hi

/-- Settles O44: each way a step can end adds the events of statements that all succeed, those events cut at their
first failing call, or nothing. -/
theorem traceOnlyGrows : Obligations.TraceOnlyGrows :=
  fun _ _ => step_traceGrows

end Sys2Proof.Machine

/-! What a request writes and what it leaves: its registers, its pins, the events it adds; and what every step keeps of
the registers, the flags and `LVL` (R20 to R35, R188). -/

namespace Sys2Proof.Machine

/-! ### The two ways a request can end -/

/-- The state request `i` leaves when none of its calls fails. -/
def requestDone (i : Instr) (s : State) : State :=
  { s.answered (requestEvents i s s.port.tioAt) (answerOf i s) with
    dctrl := stmtsDctrl (bodyOf i s) s.dctrl
    emode := stmtsEmode (bodyOf i s) s.emode
    blvl := stmtsBlvl (bodyOf i s) s.blvl }

/-- The state request `i` leaves when its `k`-th call is the first to fail; `l` are the latches of a block that is not
initialised (R181). -/
def requestFailed (i : Instr) (s : State) (k : Nat) (info : PortInfo) (l : Latches) : State :=
  { s with
    lvl := s.lvl.replay (cutAtCall k info (requestEvents i s s.port.tioAt))
    trace := s.trace ++ cutAtCall k info (requestEvents i s s.port.tioAt)
    fault := .ioFailure
    responses := s.responses ++ [response statusIoFailure 0 0]
    busy := !s.initialized
    latches := if s.initialized then Latches.idle else l
    port := s.port.after ((cutAtCall k info (requestEvents i s s.port.tioAt)).countP Event.isTq) (k + 1) }

theorem exec_next_cases {i : Instr} {s t : State} (h : exec i s = .next t) :
    t = requestDone i s ∨ ∃ k info l, k < (requestEvents i s s.port.tioAt).countP Event.isCall ∧
      t = requestFailed i s k info l := by
  rcases exec_cases i s with ⟨-, hexec⟩ | ⟨k, info, l, hk, -, -, hexec⟩
  all_goals
    rw [hexec, Host.Outcome.next.injEq] at h
    subst h
  · exact .inl rfl
  · exact .inr ⟨k, info, l, by rwa [countCall_request], rfl⟩

/-! ### Which registers a request writes -/

section
variable (c : Config) (b : Byte) (mode : Mode)

@[simp] theorem stmtsDctrl_send (d : Byte) : stmtsDctrl (send c b mode) d = d :=
  (regs_of_regFree (regFree_send c b mode) d 0 none).1

@[simp] theorem stmtsEmode_send (e : Byte) : stmtsEmode (send c b mode) e = e :=
  (regs_of_regFree (regFree_send c b mode) 0 e none).2.1

@[simp] theorem stmtsBlvl_send (l : Option Backlight) : stmtsBlvl (send c b mode) l = l :=
  (regs_of_regFree (regFree_send c b mode) 0 0 l).2.2

end

section
variable (s : State) (f : Byte) (on : Bool)

@[simp] theorem stmtsDctrl_setDctrlBody (d : Byte) : stmtsDctrl (setDctrlBody s f on) d = setFlag s.dctrl f on := by
  simp [setDctrlBody, stmtsDctrl_append, stmtsDctrl]

@[simp] theorem stmtsEmode_setDctrlBody (e : Byte) : stmtsEmode (setDctrlBody s f on) e = e := by
  simp [setDctrlBody, stmtsEmode_append, stmtsEmode]

@[simp] theorem stmtsBlvl_setDctrlBody (l : Option Backlight) : stmtsBlvl (setDctrlBody s f on) l = l := by
  simp [setDctrlBody, stmtsBlvl_append, stmtsBlvl]

@[simp] theorem stmtsDctrl_setEmodeBody (d : Byte) : stmtsDctrl (setEmodeBody s f on) d = d := by
  simp [setEmodeBody, stmtsDctrl_append, stmtsDctrl]

@[simp] theorem stmtsEmode_setEmodeBody (e : Byte) : stmtsEmode (setEmodeBody s f on) e = setFlag s.emode f on := by
  simp [setEmodeBody, stmtsEmode_append, stmtsEmode]

@[simp] theorem stmtsBlvl_setEmodeBody (l : Option Backlight) : stmtsBlvl (setEmodeBody s f on) l = l := by
  simp [setEmodeBody, stmtsBlvl_append, stmtsBlvl]

end

section
variable (c : Config) (v : Backlight)

@[simp] theorem stmtsDctrl_backlightBody (d : Byte) : stmtsDctrl (backlightBody c v) d = d := by
  unfold backlightBody; cases c.pins.bl <;> rfl

@[simp] theorem stmtsEmode_backlightBody (e : Byte) : stmtsEmode (backlightBody c v) e = e := by
  unfold backlightBody; cases c.pins.bl <;> rfl

theorem stmtsBlvl_backlightBody_of_none (h : c.pins.bl = none) (l : Option Backlight) :
    stmtsBlvl (backlightBody c v) l = l := by
  rw [backlightBody, h]; rfl

end

/-- A request sets a flag of `DCTRL` (R140, R142, R144). -/
def SetsDctrl (i : Instr) : Prop := ∃ on, i = .displaySet on ∨ i = .cursorSet on ∨ i = .blinkSet on

/-- A request sets a flag of `EMODE` (R146, R148, R150). -/
def SetsEmode (i : Instr) : Prop := ∃ on, i = .ltrSet on ∨ i = .rtlSet on ∨ i = .autoscrollSet on

/-- The body of a request is `set_flag` on `DCTRL`, `set_flag` on `EMODE`, a backlight set, or writes no register. -/
theorem bodyOf_cases (i : Instr) (s : State) :
    (SetsDctrl i ∧ ∃ f on, f ∈ [s.cfg.proto.fDisplayOn, s.cfg.proto.fCursorOn, s.cfg.proto.fBlinkOn] ∧
      bodyOf i s = setDctrlBody s f on) ∨
    (SetsEmode i ∧ ∃ f on, f ∈ [s.cfg.proto.fEntryLeft, s.cfg.proto.fEntryShiftInc] ∧
      bodyOf i s = setEmodeBody s f on) ∨
    (∃ v, i = .backlightSet v ∧ bodyOf i s = backlightBody s.cfg v) ∨
    (bodyOf i s).all Stmt.regFree = true := by
  cases i
  case displaySet on => exact .inl ⟨⟨on, .inl rfl⟩, _, on, by simp, rfl⟩
  case cursorSet on => exact .inl ⟨⟨on, .inr (.inl rfl)⟩, _, on, by simp, rfl⟩
  case blinkSet on => exact .inl ⟨⟨on, .inr (.inr rfl)⟩, _, on, by simp, rfl⟩
  case ltrSet on => exact .inr (.inl ⟨⟨on, .inl rfl⟩, _, on, by simp, rfl⟩)
  case rtlSet on => exact .inr (.inl ⟨⟨on, .inr (.inl rfl)⟩, _, !on, by simp, rfl⟩)
  case autoscrollSet on => exact .inr (.inl ⟨⟨on, .inr (.inr rfl)⟩, _, on, by simp, rfl⟩)
  case backlightSet v => exact .inr (.inr (.inl ⟨v, rfl, rfl⟩))
  all_goals
    refine .inr (.inr (.inr ?_))
    simp [bodyOf, clearBody, pulseEnable, writeBits, Stmt.regFree]

theorem stmtsDctrl_bodyOf {i : Instr} (h : ¬ SetsDctrl i) (s : State) (d : Byte) : stmtsDctrl (bodyOf i s) d = d := by
  rcases bodyOf_cases i s with ⟨hset, -⟩ | ⟨-, f, on, -, hb⟩ | ⟨v, -, hb⟩ | hfree
  · exact absurd hset h
  · simp [hb]
  · simp [hb]
  · exact (regs_of_regFree hfree d 0 none).1

theorem stmtsEmode_bodyOf {i : Instr} (h : ¬ SetsEmode i) (s : State) (e : Byte) : stmtsEmode (bodyOf i s) e = e := by
  rcases bodyOf_cases i s with ⟨-, f, on, -, hb⟩ | ⟨hset, -⟩ | ⟨v, -, hb⟩ | hfree
  · simp [hb]
  · exact absurd hset h
  · simp [hb]
  · exact (regs_of_regFree hfree 0 e none).2.1

theorem stmtsBlvl_bodyOf {i : Instr} {s : State} (h : (∀ v, i ≠ .backlightSet v) ∨ s.cfg.pins.bl = none)
    (l : Option Backlight) : stmtsBlvl (bodyOf i s) l = l := by
  rcases bodyOf_cases i s with ⟨-, f, on, -, hb⟩ | ⟨-, f, on, -, hb⟩ | ⟨v, hi, hb⟩ | hfree
  · simp [hb]
  · simp [hb]
  · rcases h with h | hnone
    · exact absurd hi (h v)
    · rw [hb, stmtsBlvl_backlightBody_of_none _ _ hnone]
  · exact (regs_of_regFree hfree 0 0 l).2.2

/-- Settles O42: a request that fails writes no register, and one that ends well writes those its body sets. -/
theorem registerFrame : Obligations.RegisterFrame := by
  intro i s t h
  have hd : (∀ on, i ≠ .displaySet on ∧ i ≠ .cursorSet on ∧ i ≠ .blinkSet on) → ¬ SetsDctrl i := by
    rintro hi ⟨on, ho⟩
    have := hi on
    tauto
  have he : (∀ on, i ≠ .ltrSet on ∧ i ≠ .rtlSet on ∧ i ≠ .autoscrollSet on) → ¬ SetsEmode i := by
    rintro hi ⟨on, ho⟩
    have := hi on
    tauto
  rcases exec_next_cases h with rfl | ⟨k, info, l, -, rfl⟩
  · exact ⟨fun hi => stmtsDctrl_bodyOf (hd hi) s _, fun hi => stmtsEmode_bodyOf (he hi) s _,
      fun hi => stmtsBlvl_bodyOf (.inl hi) _, rfl, rfl, rfl, rfl, rfl, .inl rfl⟩
  · exact ⟨fun _ => rfl, fun _ => rfl, fun _ => rfl, rfl, rfl, rfl, rfl, rfl, .inr rfl⟩

/-! ### The events of a step, whole or cut at a failing call -/

/-- Every event of `es` is one of `full`, or a call of `full` that failed. -/
def DrawnFrom (es full : List Event) : Prop :=
  ∀ e ∈ es, e ∈ full ∨ ∃ c info, .call c ∈ full ∧ e = .fail c info

theorem DrawnFrom.refl (es : List Event) : DrawnFrom es es := fun _ he => .inl he

theorem drawnFrom_cutAtCall {k : Nat} (info : PortInfo) {es : List Event} (hk : k < es.countP Event.isCall) :
    DrawnFrom (cutAtCall k info es) es := by
  obtain ⟨pre, c, post, hes, hcut, -⟩ := cutAtCall_split k info es hk
  intro e he
  rw [hcut, List.mem_append, List.mem_singleton] at he
  rcases he with he | rfl
  · exact .inl (hes ▸ List.mem_append_left _ he)
  · exact .inr ⟨c, info, by simp [hes], rfl⟩

theorem DrawnFrom.bulk_mem {es full : List Event} (h : DrawnFrom es full) {m : Levels}
    (hm : .call (.bulk m) ∈ es) : .call (.bulk m) ∈ full := by
  rcases h _ hm with hm | ⟨c, info, -, he⟩
  · exact hm
  · cases he

theorem DrawnFrom.not_mem_pins {es full : List Event} (h : DrawnFrom es full) {p : PinId}
    (hp : ∀ e ∈ full, p ∉ e.pins) : ∀ e ∈ es, p ∉ e.pins := by
  intro e he
  rcases h e he with he | ⟨c, info, hc, rfl⟩
  · exact hp e he
  · exact hp (.call c) hc

/-- `t` has the events of `es` added to the trace of `s`, and its `LVL` follows them. -/
structure State.Adds (s t : State) (es : List Event) : Prop where
  trace : t.trace = s.trace ++ es
  lvl   : t.lvl = s.lvl.replay es

theorem State.Adds.nil {s t : State} (htrace : t.trace = s.trace) (hlvl : t.lvl = s.lvl) : s.Adds t [] :=
  ⟨by rw [htrace, List.append_nil], hlvl⟩

theorem exec_adds {i : Instr} {s t : State} (h : exec i s = .next t) :
    ∃ es, s.Adds t es ∧ DrawnFrom es (requestEvents i s s.port.tioAt) := by
  rcases exec_next_cases h with rfl | ⟨k, info, l, hk, rfl⟩
  · exact ⟨_, ⟨rfl, rfl⟩, .refl _⟩
  · exact ⟨_, ⟨rfl, rfl⟩, drawnFrom_cutAtCall info hk⟩

theorem constructPins_adds {s : State} (hi : s.initialized = false) :
    ∃ es, s.Adds (constructPins s) es ∧
      DrawnFrom es (configureEvents s.cfg.pins ++ initEvents s.cfg s.dfunc s.port.tioAt) := by
  rcases constructPins_cases s hi with ⟨-, hend⟩ | ⟨k, info, dc, em, l, p, w, hk, -, -, hend⟩
  all_goals rw [hend]
  · exact ⟨_, ⟨rfl, rfl⟩, .refl _⟩
  · refine ⟨_, ⟨rfl, rfl⟩, drawnFrom_cutAtCall info ?_⟩
    rwa [← stmtsEvents_construct, countCall_stmtsEvents]

/-- A step that is no reset adds events to the trace, its bulk writes are those of nibble frames, and `LVL` follows. -/
theorem step_adds {s t : State} (hr : s.resetIn = none) (h : step s = .next t) :
    ∃ es, s.Adds t es ∧ ∀ m, .call (.bulk m) ∈ es → ∃ v w mode, m = frameMap s.cfg.pins v w mode := by
  rcases step_cases hr h with ⟨-, -, i, rest, -, hexec⟩ | ⟨-, -, -, rest, -, rfl⟩ | rfl | ⟨-, -, -, -, -, rfl⟩ |
    ⟨hi, -, -, -, -, rfl⟩
  · obtain ⟨es, hadds, hes⟩ := exec_adds hexec
    exact ⟨es, ⟨hadds.trace, hadds.lvl⟩, fun m hm => bulk_mem_request (hes.bulk_mem hm)⟩
  · exact ⟨[], .nil rfl rfl, by simp⟩
  · exact ⟨[], .nil rfl rfl, by simp⟩
  · exact ⟨[], .nil rfl rfl, by simp⟩
  · obtain ⟨es, hadds, hes⟩ := constructPins_adds (s := s.setDfunc (dfuncOf s.cfg)) hi
    refine ⟨es, ⟨hadds.trace, hadds.lvl⟩, fun m hm => ?_⟩
    obtain ⟨v, mode, -, hm⟩ := bulk_mem_construct (hes.bulk_mem hm)
    exact ⟨v, 4, mode, hm⟩

/-! ### `LVL` and the trace -/

theorem lastLevel_append (p : PinId) (a b : List Event) :
    lastLevel p (a ++ b) = b.foldl (levelStep p) (lastLevel p a) := List.foldl_append

theorem levelsInv_of_adds {s t : State} {es : List Event} (h : s.LevelsInv) (hadds : s.Adds t es)
    (hbulk : ∀ m, .call (.bulk m) ∈ es → m.wf) : t.LevelsInv := by
  obtain ⟨hwf, hread⟩ := h
  refine ⟨hadds.lvl ▸ Levels.replay_wf es hwf, fun p => ?_⟩
  rw [hadds.lvl, hadds.trace, lastLevel_append, Levels.read_replay p _ _ hbulk, hread]

/-- Settles O50: no pin is listed and no event has happened. -/
theorem levelsHoldAtReset : Obligations.LevelsHoldAtReset :=
  fun _ _ _ => ⟨List.Pairwise.nil, fun _ => rfl⟩

/-- Settles O49: a step that is no reset replays on `LVL` the events it adds, and its bulk writes are canonical. -/
theorem stepKeepsLevels : Obligations.StepKeepsLevels := by
  intro s t hs h
  cases hr : s.resetIn with
  | some cfg =>
    rw [step_reset hr, Host.Outcome.next.injEq] at h
    exact h ▸ levelsHoldAtReset cfg s.port s.inbox
  | none =>
    obtain ⟨es, hadds, hbulk⟩ := step_adds hr h
    refine levelsInv_of_adds hs hadds fun m hm => ?_
    obtain ⟨v, w, mode, rfl⟩ := hbulk m hm
    exact frameMap_wf _ _ _ _

/-! ### Which pins a request names -/

/-- The pins of a nibble frame of `width` bits and its pulse (R101, R102). -/
def framePins (p : Pins) (width : Nat) : List PinId := p.en :: p.rs :: (p.rw.toList ++ p.data.take width)

/-- The pins a request's calls name. -/
def pinsOf (p : Pins) : Instr → List PinId
  | .delay _ | .displayGet | .cursorGet | .blinkGet | .ltrGet | .rtlGet | .autoscrollGet | .backlightGet => []
  | .backlightSet _ => p.bl.toList
  | .pulse => [p.en]
  | .wrBits _ width _ => framePins p width
  | _ => framePins p 4

theorem Levels.fst_mem_foldl_set {xs : List (PinId × Nat)} {g : Nat → Bool} {m : Levels} {q : PinId}
    (h : q ∈ (xs.foldl (fun m x => Levels.set m x.1 (g x.2)) m).map (·.1)) :
    q ∈ xs.map (·.1) ∨ q ∈ m.map (·.1) := by
  induction xs generalizing m with
  | nil => exact .inr h
  | cons x rest ih =>
    rcases ih h with h | h
    · exact .inl (List.mem_cons_of_mem _ h)
    · obtain ⟨y, hy, rfl⟩ := List.mem_map.mp h
      rcases Levels.mem_set hy with rfl | hy
      · exact .inl List.mem_cons_self
      · exact .inr (List.mem_map_of_mem hy)

theorem fst_drivenPins (p : Pins) (width : Nat) : (drivenPins p width).map (·.1) = p.data.take width :=
  List.zipIdx_map_fst ..

theorem fst_mem_frameMap {p : Pins} {value : Byte} {width : Nat} {mode : Mode} {q : PinId}
    (h : q ∈ (frameMap p value width mode).map (·.1)) : q ∈ framePins p width := by
  rcases Levels.fst_mem_foldl_set h with h | h
  · rw [fst_drivenPins] at h
    simp [framePins, h]
  · cases hrw : p.rw with
    | none => simp_all [framePins, Levels.set]
    | some rw =>
      simp only [hrw] at h
      obtain ⟨y, hy, rfl⟩ := List.mem_map.mp h
      rcases Levels.mem_set hy with rfl | hy
      · simp [framePins, hrw]
      · simp_all [framePins, Levels.set]

theorem pins_of_mem_delay {d t : Duration} {e : Event} (h : e ∈ delayEvents d t) : e.pins = [] := by
  unfold delayEvents at h
  split at h
  · simp only [List.mem_cons, List.not_mem_nil, or_false] at h
    rcases h with rfl | rfl <;> rfl
  · rw [List.mem_singleton.mp h]; rfl

section
variable {c : Config} {e : Event} {q : PinId}

theorem pins_of_mem_pulse {t : Duration} (h : e ∈ pulseEvents c t) (hq : q ∈ e.pins) : q = c.pins.en := by
  simp only [pulseEvents, List.mem_cons, List.mem_append, List.not_mem_nil, or_false] at h
  rcases h with rfl | h | rfl
  · exact List.mem_singleton.mp hq
  · simp [pins_of_mem_delay h] at hq
  · exact List.mem_singleton.mp hq

theorem pins_of_mem_frame {v : Byte} {w : Nat} {mode : Mode} {t : Duration} (h : e ∈ frameEvents c v w mode t)
    (hq : q ∈ e.pins) : q ∈ framePins c.pins w := by
  rcases List.mem_cons.mp h with rfl | h
  · exact fst_mem_frameMap hq
  · simp [framePins, pins_of_mem_pulse h hq]

theorem pins_of_mem_send {b : Byte} {mode : Mode} {t : Nat → Duration} (h : e ∈ sendEvents c b mode t)
    (hq : q ∈ e.pins) : q ∈ framePins c.pins 4 := by
  have hdelay : ∀ d t', e ∉ delayEvents d t' := fun d t' he => by simp [pins_of_mem_delay he] at hq
  unfold sendEvents at h
  split at h <;> simp only [List.mem_append, hdelay, or_false] at h
  · exact pins_of_mem_frame h hq
  · rcases h with h | h <;> exact pins_of_mem_frame h hq

end

/-- Every pin an event of a request names is one of the request's pins. -/
theorem pins_of_mem_request {i : Instr} {s : State} {t : Nat → Duration} {e : Event} {q : PinId}
    (h : e ∈ requestEvents i s t) (hq : q ∈ e.pins) : q ∈ pinsOf s.cfg.pins i := by
  have hdelay : ∀ d t', e ∉ delayEvents d t' := fun d t' he => by simp [pins_of_mem_delay he] at hq
  cases i
  case delay d => exact absurd h (hdelay _ _)
  case pulse => exact List.mem_singleton.mpr (pins_of_mem_pulse h hq)
  case wrBits v w mode => exact pins_of_mem_frame h hq
  case backlightSet v =>
    simp only [requestEvents, backlightEvents] at h
    split at h
    · rename_i bl hbl
      rw [List.mem_singleton.mp h] at hq
      simpa [pinsOf, hbl, Event.pins, PinCall.pins] using hq
    · exact absurd h List.not_mem_nil
  case displayGet | cursorGet | blinkGet | ltrGet | rtlGet | autoscrollGet | backlightGet =>
    exact absurd h List.not_mem_nil
  all_goals
    rcases mem_requestEvents h with ⟨d, t', h⟩ | ⟨b, mode, t', h⟩ | ⟨hi, -⟩ | ⟨v, w, mode, t', hi, -⟩ |
      ⟨v, bl, -, hi, -⟩
    · exact absurd h (hdelay _ _)
    · exact pins_of_mem_send h hq
    all_goals cases hi

/-- Settles O43: the events a request adds, cut or whole, name no pin but the request's, and any other pin keeps its
level under them. -/
theorem pinFrame : Obligations.PinFrame := by
  intro i s t h _ p pins frame hp
  obtain ⟨es, hadds, hes⟩ := exec_adds h
  have hnot : p ∉ pinsOf pins i := by
    cases i
    case delay | displayGet | cursorGet | blinkGet | ltrGet | rtlGet | autoscrollGet | backlightGet =>
      exact List.not_mem_nil
    case pulse => exact fun hmem => hp (List.mem_singleton.mp hmem)
    case backlightSet v => exact fun hmem => hp (Option.mem_toList.mp hmem).symm
    all_goals exact hp
  rw [hadds.lvl]
  exact Levels.read_replay_of_not_mem _ _ (hes.not_mem_pins fun e he hq => hnot (pins_of_mem_request he hq))

/-! ### The status flags -/

theorem phaseOf_eq_dead_iff (s : State) : phaseOf s = .dead ↔
    ¬ (s.initialized = true ∧ s.busy = false) ∧
      ¬ (s.initialized = false ∧ s.busy = true ∧ s.fault = .none) := by
  unfold phaseOf
  split
  · simp_all
  · split <;> simp_all

theorem step_of_dead {s : State} (hr : s.resetIn = none) (hp : phaseOf s = .dead) : step s = .next s := by
  simp [step, hr, hp]

/-- A request keeps `initialized`, and `fault` holds what it held or `IoFailure`. -/
theorem exec_flags {i : Instr} {s t : State} (h : exec i s = .next t) :
    t.initialized = s.initialized ∧ (t.fault = s.fault ∨ t.fault = .ioFailure) := by
  obtain ⟨-, -, -, -, -, hinit, -, -, hfault⟩ := registerFrame i s t h
  exact ⟨hinit, hfault⟩

/-- Construction from the pin set-up on ends initialised with `fault` as it was, or not initialised and failed. -/
theorem constructPins_flags {s : State} (hi : s.initialized = false) :
    ((constructPins s).initialized = true ∧ (constructPins s).fault = s.fault) ∨
    ((constructPins s).initialized = false ∧ (constructPins s).fault = .ioFailure) := by
  rcases constructPins_cases s hi with ⟨-, hend⟩ | ⟨k, info, dc, em, l, p, w, -, -, -, hend⟩
  all_goals rw [hend]
  · exact .inl ⟨rfl, rfl⟩
  · exact .inr ⟨hi, rfl⟩

/-- Settles O45: a request and an illegal word leave `initialized` up, the pin count check only sets `fault`, and
construction raises `initialized` only where it sets no `fault`. -/
theorem statusFlagsAreSticky : Obligations.StatusFlagsAreSticky := by
  intro s t hr h
  suffices hflags : (s.fault ≠ .none → t.fault ≠ .none) ∧ (s.initialized = true → t.initialized = true) ∧
      (t.initialized = true → s.initialized = true ∨ (s.busy = true ∧ s.fault = .none ∧ t.fault = .none)) by
    obtain ⟨hfault, hinit, hset⟩ := hflags
    refine ⟨hfault, hinit, hset, fun hp => ?_, phaseOf_eq_dead_iff s⟩
    rw [step_of_dead hr hp, Host.Outcome.next.injEq] at h
    exact h.symm
  rcases step_cases hr h with ⟨hi, -, i, rest, -, hexec⟩ | ⟨hi, -, -, rest, -, rfl⟩ | rfl | ⟨hi, -, -, -, -, rfl⟩ |
    ⟨hi, hb, hf, -, -, rfl⟩
  · obtain ⟨hinit, hfault⟩ := exec_flags hexec
    refine ⟨fun hs => ?_, fun _ => hinit.trans hi, fun _ => .inl hi⟩
    rcases hfault with hfault | hfault <;> rw [hfault]
    · exact hs
    · nofun
  · exact ⟨id, id, .inl⟩
  · exact ⟨id, id, .inl⟩
  · exact ⟨fun _ => nofun, id, .inl⟩
  · refine ⟨fun hs => absurd hf hs, fun h => absurd (hi.symm.trans h) nofun, fun ht => .inr ⟨hb, hf, ?_⟩⟩
    rcases constructPins_flags (s := s.setDfunc (dfuncOf s.cfg)) hi with ⟨-, hfault⟩ | ⟨hinit, -⟩
    · exact hfault.trans hf
    · exact absurd (hinit.symm.trans ht) nofun

/-! ### The state at reset -/

/-- Settles O31: every clause is the value `State.atReset` gives the field. -/
theorem valuesAtReset : Obligations.ValuesAtReset :=
  ⟨fun _ _ _ => ⟨rfl, rfl, rfl, fun _ => rfl, rfl, rfl, rfl, rfl, rfl⟩, rfl⟩

/-- Settles O54: the trace at reset is empty. -/
theorem enableLowAtReset : Obligations.EnableLowAtReset := by
  intro cfg port inbox
  refine ⟨nofun, nofun, nofun, fun before m after heq => ?_⟩
  exact absurd heq (List.append_ne_nil_of_right_ne_nil _ (List.cons_ne_nil _ _)).symm

/-- Settles O52: the block is busy and not initialised, `BLVL` is `none` and the trace empty. -/
theorem statusHoldsAtReset : Obligations.StatusHoldsAtReset :=
  fun _ _ _ => ⟨nofun, rfl, nofun, nofun, rfl, fun _ => rfl, fun _ _ => rfl, nofun⟩

section
variable {c : Config}

theorem dfuncOf_of_rows (h : 1 < c.geom.rows) : dfuncOf c = c.proto.f2Line := by
  simp [dfuncOf, h, Nat.ne_of_gt h]

theorem dfuncOf_of_tall (h : c.geom.rows = 1) (hc : c.geom.charSize = .dots5x10) :
    dfuncOf c = c.proto.f5x10Dots := by
  simp [dfuncOf, h, hc]

theorem dfuncOf_of_short (h : c.geom.rows = 1) (hc : c.geom.charSize = .dots5x8) : dfuncOf c = 0 := by
  simp [dfuncOf, h, hc]

/-- The three values of `DFUNC` with the default constants. -/
theorem dfuncOf_mem (h : c.proto = defaultProto) : dfuncOf c ∈ [0x00, 0x04, 0x08] := by
  rcases Nat.lt_or_ge 1 c.geom.rows with hrows | hrows
  · rw [dfuncOf_of_rows hrows, h]; decide
  · have hone : c.geom.rows = 1 := Nat.le_antisymm hrows (Nat.le_add_left 1 _)
    cases hc : c.geom.charSize with
    | dots5x8 => rw [dfuncOf_of_short hone hc]; decide
    | dots5x10 => rw [dfuncOf_of_tall hone hc, h]; decide

theorem dfuncOf_and (h : c.proto = defaultProto) : dfuncOf c &&& 0xF3 = 0 :=
  (by decide : ∀ v ∈ [0x00, 0x04, 0x08], v &&& 0xF3 = (0 : Byte)) _ (dfuncOf_mem h)

end

/-- Settles O33, by the number of rows and the font. -/
theorem dfuncValue : Obligations.DfuncValue :=
  fun _ => ⟨dfuncOf_of_rows, dfuncOf_of_tall, dfuncOf_of_short, fun h => ⟨dfuncOf_and h, dfuncOf_mem h⟩⟩

/-! ### The status invariant -/

theorem exec_keeps_status {i : Instr} {s t : State} (hs : s.StatusInv) (hi : s.initialized = true)
    (h : exec i s = .next t) : t.StatusInv := by
  have hb : s.busy = false := by simpa [hi] using hs.notBoth
  have hvalid : s.fault ≠ .invalidConfiguration := fun hf => by simpa [hb] using (hs.untouched hf).2
  rcases exec_next_cases h with rfl | ⟨k, info, l, -, rfl⟩
  · exact {
      idleLatches := fun _ => rfl
      notBoth := hi
      pinCount := hs.pinCount
      pinsDistinct := hs.pinsDistinct
      dfuncFixed := hs.dfuncFixed
      noBacklight := fun hbl => (stmtsBlvl_bodyOf (i := i) (s := s) (.inr hbl) _).trans (hs.noBacklight hbl)
      fresh := fun hni => absurd (hi.symm.trans hni) nofun
      untouched := fun hf => absurd hf hvalid }
  · exact {
      idleLatches := fun _ => if_pos hi
      notBoth := by simp [requestFailed]
      pinCount := hs.pinCount
      pinsDistinct := hs.pinsDistinct
      dfuncFixed := hs.dfuncFixed
      noBacklight := hs.noBacklight
      fresh := fun hni => absurd (hi.symm.trans hni) nofun
      untouched := nofun }

theorem constructPins_keeps_status {s : State} (hs : s.StatusInv) (hi : s.initialized = false)
    (hf : s.fault = .none) (hn : s.cfg.pins.nData = 4 ∨ s.cfg.pins.nData = 8) (hd : s.cfg.pins.distinct) :
    (constructPins s).StatusInv := by
  have hb : s.busy = true := by simpa [hi] using hs.notBoth
  rcases constructPins_cases s hi with ⟨-, hend⟩ | ⟨k, info, dc, em, l, p, w, -, -, -, hend⟩
  all_goals rw [hend]
  · exact {
      idleLatches := fun _ => rfl
      notBoth := rfl
      pinCount := fun _ => hn
      pinsDistinct := fun _ => hd
      dfuncFixed := hs.dfuncFixed
      noBacklight := fun hbl => (if_neg (by simp [show s.cfg.pins.bl = none from hbl])).trans (hs.noBacklight hbl)
      fresh := nofun
      untouched := fun h => absurd (hf.symm.trans h) nofun }
  · exact {
      idleLatches := fun h => absurd (hb.symm.trans h) nofun
      notBoth := hs.notBoth
      pinCount := fun h => absurd (hi.symm.trans h) nofun
      pinsDistinct := fun h => absurd (hi.symm.trans h) nofun
      dfuncFixed := hs.dfuncFixed
      noBacklight := hs.noBacklight
      fresh := nofun
      untouched := nofun }

/-- Settles O51: a reset by `statusHoldsAtReset`, a request and construction by what they leave, an illegal word and
waiting touch none of the fields, and a wrong pin count sets `fault` before anything has happened. -/
theorem stepKeepsStatus : Obligations.StepKeepsStatus := by
  intro s t hs h
  cases hr : s.resetIn with
  | some cfg =>
    rw [step_reset hr, Host.Outcome.next.injEq] at h
    exact h ▸ statusHoldsAtReset cfg s.port s.inbox
  | none =>
    rcases step_cases hr h with ⟨hi, -, i, rest, -, hexec⟩ | ⟨-, -, -, rest, -, rfl⟩ | rfl | ⟨hi, hb, hf, -, -, rfl⟩ |
      ⟨hi, -, hf, hn, hd, rfl⟩
    · exact exec_keeps_status (s := s.setInbox rest) { hs with } hi hexec
    · exact { hs with }
    · exact hs
    · exact { hs with fresh := nofun, untouched := fun _ => ⟨hs.fresh hi hf, hb⟩ }
    · have hs' : (s.setDfunc (dfuncOf s.cfg)).StatusInv := { hs with dfuncFixed := rfl }
      exact constructPins_keeps_status hs' hi hf hn hd

end Sys2Proof.Machine

/-! The mirror (R27): the command bytes a trace shows, and that `DCTRL` and `EMODE` follow the last of their kind. -/

namespace Sys2Proof.Machine

/-! ### What the bulk write of a frame says of RS and of the data pins (R70, R102) -/

theorem data_nodup {p : Pins} (h : p.distinct) : p.data.Nodup := by
  have hdigital := (List.nodup_append.mp h).1
  exact (List.nodup_append.mp (List.nodup_cons.mp (List.nodup_cons.mp hdigital).2).2).2.1

theorem rs_not_mem {p : Pins} (h : p.distinct) : p.rs ∉ p.rw.toList ++ p.data := by
  have hdigital := (List.nodup_append.mp h).1
  exact fun hmem => (List.nodup_cons.mp hdigital).1 (List.mem_cons_of_mem _ hmem)

theorem nodup_fst_drivenPins {p : Pins} (h : p.distinct) (width : Nat) : ((drivenPins p width).map (·.1)).Nodup := by
  rw [fst_drivenPins]
  exact (List.take_sublist _ _).nodup (data_nodup h)

theorem find?_fst_of_mem {xs : List (PinId × Nat)} (hd : (xs.map (·.1)).Nodup) {x : PinId × Nat} (hx : x ∈ xs) :
    xs.find? (fun y => y.1 = x.1) = some x := by
  induction xs with
  | nil => exact absurd hx List.not_mem_nil
  | cons y rest ih =>
    obtain ⟨hy, hrest⟩ := List.nodup_cons.mp hd
    rcases List.mem_cons.mp hx with rfl | hx
    · simp
    · have hne : y.1 ≠ x.1 := fun heq => hy (List.mem_map.mpr ⟨x, hx, heq.symm⟩)
      simpa [hne] using ih hrest hx

theorem read_frameMap_rs {p : Pins} (h : p.distinct) (value : Byte) (width : Nat) (mode : Mode) :
    (frameMap p value width mode).read p.rs = some (rsLevel mode) := by
  have hrs := rs_not_mem h
  have hnone : (drivenPins p width).find? (fun x => x.1 = p.rs) = none := by
    refine List.find?_eq_none.mpr fun x hx heq => hrs (List.mem_append_right _ ?_)
    have hmem : x.1 ∈ p.data.take width := fst_drivenPins p width ▸ List.mem_map_of_mem hx
    exact of_decide_eq_true heq ▸ List.mem_of_mem_take hmem
  rw [frameMap, Levels.read_foldl_set _ _ _ _ (nodup_fst_drivenPins h width), hnone]
  cases hrw : p.rw with
  | none => simp [Levels.read_set]
  | some rw =>
    have hne : p.rs ≠ rw := by simp_all
    simp [Levels.read_set, hne]

theorem read_frameMap_data {p : Pins} (h : p.distinct) (value : Byte) {width i : Nat} (mode : Mode) (hi : i < width)
    {pin : PinId} (hpin : p.data[i]? = some pin) :
    (frameMap p value width mode).read pin = some (value.getLsbD i) := by
  have hmem : (pin, i) ∈ drivenPins p width := by
    rw [drivenPins, List.mk_mem_zipIdx_iff_getElem?, List.getElem?_take_of_lt hi, hpin]
  rw [frameMap, Levels.read_foldl_set _ _ _ _ (nodup_fst_drivenPins h width),
    find?_fst_of_mem (nodup_fst_drivenPins h width) hmem]

theorem ofBool_getLsbD_eq_lowNibble (v : Byte) :
    BitVec.ofBool (v.getLsbD 3) ++ (BitVec.ofBool (v.getLsbD 2) ++ (BitVec.ofBool (v.getLsbD 1) ++
      BitVec.ofBool (v.getLsbD 0))) = lowNibble v := by
  revert v; decide

/-- A four-bit frame puts the low nibble of its value on D3 to D0. -/
theorem nibbleOn_frameMap {p : Pins} (h : p.distinct) (hn : 4 ≤ p.nData) (value : Byte) (mode : Mode) :
    nibbleOn p (frameMap p value 4 mode) = lowNibble value := by
  have hbit : ∀ i < 4, ∃ pin, p.data[i]? = some pin ∧ (frameMap p value 4 mode).read pin = some (value.getLsbD i) :=
    fun i hi => ⟨_, List.getElem?_eq_getElem (Nat.lt_of_lt_of_le hi hn),
      read_frameMap_data h value mode hi (List.getElem?_eq_getElem (Nat.lt_of_lt_of_le hi hn))⟩
  obtain ⟨d0, h0, r0⟩ := hbit 0 (by decide)
  obtain ⟨d1, h1, r1⟩ := hbit 1 (by decide)
  obtain ⟨d2, h2, r2⟩ := hbit 2 (by decide)
  obtain ⟨d3, h3, r3⟩ := hbit 3 (by decide)
  simp [nibbleOn, h0, h1, h2, h3, r0, r1, r2, r3, ← ofBool_getLsbD_eq_lowNibble]

/-! ### The frames of the procedures -/

theorem lowNibble_and (b : Byte) : lowNibble (b &&& 0x0F) = lowNibble b := by
  revert b; decide

theorem lowNibble_shift (b : Byte) : lowNibble (b >>> 4) = highNibble b := by
  revert b; decide

@[simp] theorem frames_append (p : Pins) (a b : List Event) : frames p (a ++ b) = frames p a ++ frames p b :=
  List.filterMap_append

@[simp] theorem frames_delay (p : Pins) (d t : Duration) : frames p (delayEvents d t) = [] := by
  unfold delayEvents; split <;> rfl

@[simp] theorem frames_configure (p q : Pins) : frames p (configureEvents q) = [] := by
  simp [frames, configureEvents]

@[simp] theorem frames_backlight (p : Pins) (c : Config) (v : Backlight) : frames p (backlightEvents c v) = [] := by
  unfold backlightEvents; cases c.pins.bl <;> rfl

@[simp] theorem frames_pulse (p : Pins) (c : Config) (t : Duration) : frames p (pulseEvents c t) = [] := by
  have hcons : pulseEvents c t = [.call (.write c.pins.en true)] ++ (delayEvents c.timing.tEnHold t ++
    [.call (.write c.pins.en false)]) := rfl
  rw [hcons, frames_append, frames_append, frames_delay]; rfl

/-- Four data pins at least, all pins distinct: what a frame needs to carry a nibble (R5, R55). -/
structure CarriesNibbles (p : Pins) : Prop where
  distinct : p.distinct
  four     : 4 ≤ p.nData

section
variable {c : Config} (hp : CarriesNibbles c.pins)
include hp

theorem frames_frame (v : Byte) (mode : Mode) (t : Duration) :
    frames c.pins (frameEvents c v 4 mode t) = [(rsLevel mode, lowNibble v)] := by
  have hcons : frameEvents c v 4 mode t = [.call (.bulk (frameMap c.pins v 4 mode))] ++ pulseEvents c t := rfl
  rw [hcons, frames_append, frames_pulse]
  simp [frames, read_frameMap_rs hp.distinct, nibbleOn_frameMap hp.distinct hp.four]

theorem frames_send_raw4 (b : Byte) (t : Nat → Duration) :
    frames c.pins (sendEvents c b .raw4 t) = [(false, lowNibble b)] := by
  simp only [sendEvents, if_true, frames_append, frames_frame hp, frames_delay, rsLevel, lowNibble_and,
    List.append_nil]

theorem frames_send_byte (b : Byte) {mode : Mode} (hmode : mode ≠ .raw4) (t : Nat → Duration) :
    frames c.pins (sendEvents c b mode t) = [(rsLevel mode, highNibble b), (rsLevel mode, lowNibble b)] := by
  simp only [sendEvents, if_neg hmode, frames_append, frames_frame hp, frames_delay, lowNibble_shift, lowNibble_and,
    List.append_nil]
  rfl

end

/-! ### The command bytes of a sequence of events -/

theorem pairBytes_append : ∀ {a : List (Bool × Nibble)}, a.length % 2 = 0 → ∀ b,
    pairBytes (a ++ b) = pairBytes a ++ pairBytes b
  | [], _, _ => rfl
  | [_], h, _ => absurd h (by simp)
  | x :: y :: rest, h, b => by
    have hrest : rest.length % 2 = 0 := by simp only [List.length_cons] at h; omega
    simp [pairBytes, pairBytes_append hrest b]

theorem highNibble_append_lowNibble (b : Byte) : highNibble b ++ lowNibble b = b := by
  revert b; decide

/-- The frames of `es` pair into whole bytes, of which `bs` are the commands, in order. -/
structure SendsCommands (p : Pins) (es : List Event) (bs : List Byte) : Prop where
  paired   : (frames p es).length % 2 = 0
  commands : commandsSent p es = bs

theorem SendsCommands.append {p : Pins} {a b : List Event} {x y : List Byte} (ha : SendsCommands p a x)
    (hb : SendsCommands p b y) : SendsCommands p (a ++ b) (x ++ y) := by
  refine ⟨?_, ?_⟩
  · have hpaired := ha.paired
    have hpaired' := hb.paired
    rw [frames_append, List.length_append]
    omega
  · rw [← ha.commands, ← hb.commands, commandsSent, frames_append, pairBytes_append ha.paired, List.filterMap_append]
    rfl

theorem sendsCommands_of_frames_nil {p : Pins} {es : List Event} (h : frames p es = []) : SendsCommands p es [] :=
  ⟨by rw [h]; rfl, by rw [commandsSent, h]; rfl⟩

section
variable {c : Config} (hp : CarriesNibbles c.pins) (b : Byte) (t : Nat → Duration)
include hp

theorem sendsCommands_send_cmd : SendsCommands c.pins (sendEvents c b .cmd t) [b] := by
  have hframes := frames_send_byte hp b (mode := .cmd) nofun t
  exact ⟨by simp [hframes],
    by simp [commandsSent, hframes, pairBytes, rsLevel, highNibble_append_lowNibble]⟩

theorem sendsCommands_send_data : SendsCommands c.pins (sendEvents c b .data t) [] := by
  have hframes := frames_send_byte hp b (mode := .data) nofun t
  exact ⟨by simp [hframes], by simp [commandsSent, hframes, pairBytes, rsLevel]⟩

end

/-- The commands the LCD reads off the initialisation sequence: the four handshake nibbles make two (R121). -/
def initCommands (p : Proto) (dfunc : Byte) : List Byte :=
  [p.nibInit8Bit ++ p.nibInit8Bit, p.nibInit8Bit ++ p.nibInit4Bit, p.cmdFunctionSet ||| dfunc,
    p.cmdDisplayControl ||| initDctrl p, p.cmdClear, p.cmdEntryModeSet ||| initEmode p]

theorem sendsCommands_of_four_nibbles {p : Pins} {es : List Event} {n₀ n₁ n₂ n₃ : Nibble}
    (h : frames p es = [(false, n₀), (false, n₁), (false, n₂), (false, n₃)]) :
    SendsCommands p es [n₀ ++ n₁, n₂ ++ n₃] :=
  ⟨by simp [h], by simp [commandsSent, h, pairBytes]⟩

theorem sendsCommands_init {c : Config} (hp : CarriesNibbles c.pins) (dfunc : Byte) (t : Nat → Duration) :
    SendsCommands c.pins (initEvents c dfunc t) (initCommands c.proto dfunc) := by
  have hcmd := fun b t => sendsCommands_send_cmd hp b t
  have hdelay := fun d t => sendsCommands_of_frames_nil (frames_delay c.pins d t)
  have hbacklight := sendsCommands_of_frames_nil (frames_backlight c.pins c c.blDefault)
  have hnib : ∀ n : Nibble, lowNibble (n.setWidth 8) = n := by decide
  refine (((((sendsCommands_of_four_nibbles ?_).append (hcmd _ _)).append (hcmd _ _)).append
    ((hcmd _ _).append (hdelay _ _))).append (hcmd _ _)).append hbacklight
  simp only [frames_append, frames_delay, frames_send_raw4 hp, hnib, List.append_nil, List.nil_append,
    List.cons_append]

/-! ### Commands that leave the mirror alone -/

/-- A command that is neither display control nor entry mode set, so that `SEND.CMD` may send it (R27, R108). -/
def Quiet (b : Byte) : Prop := (Instr.sendCmd b).canBreakMirror = false

theorem quiet_or_of_high (x : Byte) : Quiet (0x80 ||| x) ∧ Quiet (0x40 ||| x) := by
  unfold Quiet; revert x; decide

theorem quiet_ddramCommand {c : Config} (h : c.proto = defaultProto) (row col : Nat) :
    Quiet (ddramCommand c row col) := by
  rw [ddramCommand, h, BitVec.ofNat_or]
  exact (quiet_or_of_high _).1

theorem quiet_cgramCommand {c : Config} (h : c.proto = defaultProto) (location : Byte) :
    Quiet (cgramCommand c location) := by
  rw [cgramCommand, h]
  exact (quiet_or_of_high _).2

/-- Whole bytes go out, and no command among them is display control or entry mode set. -/
def SendsQuietly (p : Pins) (es : List Event) : Prop := ∃ bs, SendsCommands p es bs ∧ ∀ b ∈ bs, Quiet b

theorem SendsQuietly.append {p : Pins} {a b : List Event} (ha : SendsQuietly p a) (hb : SendsQuietly p b) :
    SendsQuietly p (a ++ b) := by
  obtain ⟨x, hx, hxq⟩ := ha
  obtain ⟨y, hy, hyq⟩ := hb
  exact ⟨x ++ y, hx.append hy, fun v hv => (List.mem_append.mp hv).elim (hxq v) (hyq v)⟩

theorem sendsQuietly_of_frames_nil {p : Pins} {es : List Event} (h : frames p es = []) : SendsQuietly p es :=
  ⟨[], sendsCommands_of_frames_nil h, by simp⟩

theorem sendsQuietly_delay (p : Pins) (d t : Duration) : SendsQuietly p (delayEvents d t) :=
  sendsQuietly_of_frames_nil (frames_delay p d t)

section
variable {c : Config} (hp : CarriesNibbles c.pins)
include hp

theorem sendsQuietly_cmd {b : Byte} (hb : Quiet b) (t : Nat → Duration) :
    SendsQuietly c.pins (sendEvents c b .cmd t) :=
  ⟨[b], sendsCommands_send_cmd hp b t, fun _ hv => List.mem_singleton.mp hv ▸ hb⟩

theorem sendsQuietly_data (b : Byte) (t : Nat → Duration) : SendsQuietly c.pins (sendEvents c b .data t) :=
  ⟨[], sendsCommands_send_data hp b t, by simp⟩

theorem sendsQuietly_print (text : List Word) (t : Nat → Duration) : SendsQuietly c.pins (printEvents c text t) := by
  induction text generalizing t with
  | nil => exact sendsQuietly_of_frames_nil rfl
  | cons cp rest ih => exact (sendsQuietly_data hp _ _).append (ih _)

theorem sendsQuietly_glyph (glyph : List Word) (t : Nat → Duration) :
    SendsQuietly c.pins (glyphEvents c glyph t) := by
  induction glyph generalizing t with
  | nil => exact sendsQuietly_of_frames_nil rfl
  | cons g rest ih => exact ((sendsQuietly_data hp _ _).append (sendsQuietly_delay _ _ _)).append (ih _)

end

/-- A request that cannot break the mirror and writes no register sends no command the mirror would have to follow. -/
theorem sendsQuietly_request {i : Instr} {s : State} (hp : CarriesNibbles s.cfg.pins)
    (hproto : s.cfg.proto = defaultProto) (hi : i.canBreakMirror = false)
    (hfree : (bodyOf i s).all Stmt.regFree = true) (t : Nat → Duration) :
    SendsQuietly s.cfg.pins (requestEvents i s t) := by
  have hconst : ∀ {b : Byte} t', Quiet b → SendsQuietly s.cfg.pins (sendEvents s.cfg b .cmd t') :=
    fun t' hb => sendsQuietly_cmd hp hb t'
  have hwait : ∀ {b : Byte} d, Quiet b → SendsQuietly s.cfg.pins (sendWaitEvents s.cfg b .cmd d t) :=
    fun d hb => (hconst t hb).append (sendsQuietly_delay _ _ _)
  cases i
  case pulse | wrBits | sendRaw4 => cases hi
  case displaySet | cursorSet | blinkSet | ltrSet | rtlSet | autoscrollSet =>
    simp [bodyOf, setDctrlBody, setEmodeBody, Stmt.regFree] at hfree
  case delay d => exact sendsQuietly_delay _ _ _
  case displayGet | cursorGet | blinkGet | ltrGet | rtlGet | autoscrollGet | backlightGet =>
    exact sendsQuietly_of_frames_nil rfl
  case backlightSet v => exact sendsQuietly_of_frames_nil (frames_backlight _ _ _)
  case sendCmd b => exact hconst t hi
  case sendData b => exact sendsQuietly_data hp _ _
  case write b => exact sendsQuietly_data hp _ _
  case print text => exact sendsQuietly_print hp _ _
  case setCursor row col => exact hconst t (quiet_ddramCommand hproto _ _)
  case createChar location glyph =>
    exact (hwait _ (quiet_cgramCommand hproto location)).append (sendsQuietly_glyph hp _ _)
  case clear => exact hwait _ (by rw [hproto]; rfl)
  case home => exact hwait _ (by rw [hproto]; rfl)
  case scrollL | scrollR | curMoveL | curMoveR => exact hconst t (by rw [hproto]; rfl)

/-! ### The last command of each kind -/

theorem lastDisplayControl_append (a b : List Byte) :
    lastDisplayControl (a ++ b) = (lastDisplayControl b).or (lastDisplayControl a) := by
  rw [lastDisplayControl, List.filter_append, List.getLast?_append]; rfl

theorem lastEntryMode_append (a b : List Byte) :
    lastEntryMode (a ++ b) = (lastEntryMode b).or (lastEntryMode a) := by
  rw [lastEntryMode, List.filter_append, List.getLast?_append]; rfl

theorem lastDisplayControl_of_quiet {bs : List Byte} (h : ∀ b ∈ bs, Quiet b) : lastDisplayControl bs = none := by
  rw [lastDisplayControl, List.filter_eq_nil_iff.mpr fun b hb =>
    Bool.eq_false_iff.mp (Bool.or_eq_false_iff.mp (h b hb)).1]
  rfl

theorem lastEntryMode_of_quiet {bs : List Byte} (h : ∀ b ∈ bs, Quiet b) : lastEntryMode bs = none := by
  rw [lastEntryMode, List.filter_eq_nil_iff.mpr fun b hb =>
    Bool.eq_false_iff.mp (Bool.or_eq_false_iff.mp (h b hb)).2]
  rfl

/-- A register value whose zero fields are 0 makes a command of its own kind and of no other. -/
theorem last_displayControl_command : ∀ v : Byte, v &&& 0xF8 = 0 →
    lastDisplayControl [0x08 ||| v] = some (0x08 ||| v) ∧ lastEntryMode [0x08 ||| v] = none := by decide

theorem last_entryMode_command : ∀ v : Byte, v &&& 0xFC = 0 →
    lastDisplayControl [0x04 ||| v] = none ∧ lastEntryMode [0x04 ||| v] = some (0x04 ||| v) := by decide

/-! ### The mirror of a trace -/

/-- The trace `es` holds whole bytes, and the last command of each kind carries the register. -/
structure Mirrors (p : Pins) (es : List Event) (dctrl emode : Byte) : Prop where
  paired  : (frames p es).length % 2 = 0
  display : lastDisplayControl (commandsSent p es) = some (0x08 ||| dctrl)
  entry   : lastEntryMode (commandsSent p es) = some (0x04 ||| emode)

theorem State.MirrorInv.mirrors {s : State} (h : s.MirrorInv) (hi : s.initialized = true) (hf : s.fault = .none) :
    Mirrors s.cfg.pins s.trace s.dctrl s.emode := ⟨h.paired hi hf, h.display hi hf, h.entry hi hf⟩

section
variable {p : Pins} {es es' : List Event} {d e : Byte} (h : Mirrors p es d e)
include h

theorem Mirrors.sendsCommands : SendsCommands p es (commandsSent p es) := ⟨h.paired, rfl⟩

theorem Mirrors.append_quiet (hq : SendsQuietly p es') : Mirrors p (es ++ es') d e := by
  obtain ⟨bs, hbs, hquiet⟩ := hq
  obtain ⟨hpaired, hcommands⟩ := h.sendsCommands.append hbs
  refine ⟨hpaired, ?_, ?_⟩
  · rw [hcommands, lastDisplayControl_append, lastDisplayControl_of_quiet hquiet, h.display]; rfl
  · rw [hcommands, lastEntryMode_append, lastEntryMode_of_quiet hquiet, h.entry]; rfl

theorem Mirrors.append_display {v : Byte} (hs : SendsCommands p es' [0x08 ||| v]) (hv : v &&& 0xF8 = 0) :
    Mirrors p (es ++ es') v e := by
  obtain ⟨hpaired, hcommands⟩ := h.sendsCommands.append hs
  obtain ⟨hdisplay, hentry⟩ := last_displayControl_command v hv
  refine ⟨hpaired, ?_, ?_⟩
  · rw [hcommands, lastDisplayControl_append, hdisplay]; rfl
  · rw [hcommands, lastEntryMode_append, hentry, h.entry]; rfl

theorem Mirrors.append_entry {v : Byte} (hs : SendsCommands p es' [0x04 ||| v]) (hv : v &&& 0xFC = 0) :
    Mirrors p (es ++ es') d v := by
  obtain ⟨hpaired, hcommands⟩ := h.sendsCommands.append hs
  obtain ⟨hdisplay, hentry⟩ := last_entryMode_command v hv
  refine ⟨hpaired, ?_, ?_⟩
  · rw [hcommands, lastDisplayControl_append, hdisplay, h.display]; rfl
  · rw [hcommands, lastEntryMode_append, hentry]; rfl

end

/-- Construction leaves `DCTRL` and `EMODE` as the commands of steps 5 and 7 say (R121). -/
theorem mirrors_construct {c : Config} (hp : CarriesNibbles c.pins) (hproto : c.proto = defaultProto)
    {dfunc : Byte} (hd : dfunc = dfuncOf c) (t : Nat → Duration) :
    Mirrors c.pins (configureEvents c.pins ++ initEvents c dfunc t) (initDctrl c.proto) (initEmode c.proto) := by
  obtain ⟨hpaired, hcommands⟩ :=
    (sendsCommands_of_frames_nil (frames_configure c.pins c.pins)).append (sendsCommands_init hp dfunc t)
  have hlast : ∀ v ∈ [0x00, 0x04, 0x08],
      lastDisplayControl (initCommands defaultProto v) = some (0x08 ||| initDctrl defaultProto) ∧
      lastEntryMode (initCommands defaultProto v) = some (0x04 ||| initEmode defaultProto) := by decide
  obtain ⟨hdisplay, hentry⟩ := hlast dfunc (hd ▸ dfuncOf_mem hproto)
  refine ⟨hpaired, ?_, ?_⟩
  · rw [hcommands, hproto]; exact hdisplay
  · rw [hcommands, hproto]; exact hentry

/-! ### The zero fields of `DCTRL` and `EMODE` (R24, R25) -/

theorem setFlag_and {r f m : Byte} (hr : r &&& m = 0) (hf : f &&& m = 0) (on : Bool) : setFlag r f on &&& m = 0 := by
  cases on with
  | true =>
    show (r ||| f) &&& m = 0
    rw [BitVec.and_or_distrib_right, hr, hf]; rfl
  | false =>
    show r &&& ~~~f &&& m = 0
    rw [BitVec.and_assoc, BitVec.and_comm (~~~f), ← BitVec.and_assoc, hr]
    exact BitVec.zero_and

section
variable {s : State} (hproto : s.cfg.proto = defaultProto) (on : Bool)
include hproto

theorem setFlag_dctrl_and {f : Byte} (hz : s.dctrl &&& 0xF8 = 0)
    (hf : f ∈ [s.cfg.proto.fDisplayOn, s.cfg.proto.fCursorOn, s.cfg.proto.fBlinkOn]) :
    setFlag s.dctrl f on &&& 0xF8 = 0 := by
  rw [hproto] at hf
  exact setFlag_and hz ((by decide : ∀ f ∈ [defaultProto.fDisplayOn, defaultProto.fCursorOn, defaultProto.fBlinkOn],
    f &&& 0xF8 = 0) f hf) on

theorem setFlag_emode_and {f : Byte} (hz : s.emode &&& 0xFC = 0)
    (hf : f ∈ [s.cfg.proto.fEntryLeft, s.cfg.proto.fEntryShiftInc]) :
    setFlag s.emode f on &&& 0xFC = 0 := by
  rw [hproto] at hf
  exact setFlag_and hz ((by decide : ∀ f ∈ [defaultProto.fEntryLeft, defaultProto.fEntryShiftInc],
    f &&& 0xFC = 0) f hf) on

/-- A request that ends well keeps the zero fields. -/
theorem zeroFields_requestDone (hz : s.ZeroFields) (i : Instr) : (requestDone i s).ZeroFields := by
  obtain ⟨hdfunc, hdctrl, hemode⟩ := hz
  refine ⟨hdfunc, ?_, ?_⟩
  · show stmtsDctrl (bodyOf i s) s.dctrl &&& 0xF8 = 0
    rcases bodyOf_cases i s with ⟨-, f, on, hf, hb⟩ | ⟨-, f, on, -, hb⟩ | ⟨v, -, hb⟩ | hfree
    · rw [hb, stmtsDctrl_setDctrlBody]; exact setFlag_dctrl_and hproto on hdctrl hf
    · rwa [hb, stmtsDctrl_setEmodeBody]
    · rwa [hb, stmtsDctrl_backlightBody]
    · rwa [(regs_of_regFree hfree _ 0 none).1]
  · show stmtsEmode (bodyOf i s) s.emode &&& 0xFC = 0
    rcases bodyOf_cases i s with ⟨-, f, on, -, hb⟩ | ⟨-, f, on, hf, hb⟩ | ⟨v, -, hb⟩ | hfree
    · rwa [hb, stmtsEmode_setDctrlBody]
    · rw [hb, stmtsEmode_setEmodeBody]; exact setFlag_emode_and hproto on hemode hf
    · rwa [hb, stmtsEmode_backlightBody]
    · rwa [(regs_of_regFree hfree 0 _ none).2.1]

end

/-! ### Every step keeps the mirror -/

theorem stmtsEvents_setDctrlBody (s : State) (f : Byte) (on : Bool) (t : Nat → Duration) :
    stmtsEvents (setDctrlBody s f on) t =
      sendEvents s.cfg (s.cfg.proto.cmdDisplayControl ||| setFlag s.dctrl f on) .cmd t := by
  rw [setDctrlBody, stmtsEvents_append, stmtsEvents_send, stmtsEvents_setDctrl, List.append_nil]

theorem stmtsEvents_setEmodeBody (s : State) (f : Byte) (on : Bool) (t : Nat → Duration) :
    stmtsEvents (setEmodeBody s f on) t =
      sendEvents s.cfg (s.cfg.proto.cmdEntryModeSet ||| setFlag s.emode f on) .cmd t := by
  rw [setEmodeBody, stmtsEvents_append, stmtsEvents_send, stmtsEvents_setEmode, List.append_nil]

/-- A request that cannot break the mirror and ends well keeps it. -/
theorem mirrors_request {i : Instr} {s : State} (h : Mirrors s.cfg.pins s.trace s.dctrl s.emode)
    (hp : CarriesNibbles s.cfg.pins) (hproto : s.cfg.proto = defaultProto) (hz : s.ZeroFields)
    (hi : i.canBreakMirror = false) (t : Nat → Duration) :
    Mirrors s.cfg.pins (s.trace ++ requestEvents i s t) (stmtsDctrl (bodyOf i s) s.dctrl)
      (stmtsEmode (bodyOf i s) s.emode) := by
  rcases bodyOf_cases i s with ⟨-, f, on, hf, hb⟩ | ⟨-, f, on, hf, hb⟩ | ⟨v, rfl, hb⟩ | hfree
  · rw [← stmtsEvents_bodyOf, hb, stmtsEvents_setDctrlBody, stmtsDctrl_setDctrlBody, stmtsEmode_setDctrlBody]
    refine h.append_display ?_ (setFlag_dctrl_and hproto on hz.dctrl hf)
    have hsend := sendsCommands_send_cmd hp (s.cfg.proto.cmdDisplayControl ||| setFlag s.dctrl f on) t
    rwa [show s.cfg.proto.cmdDisplayControl = 0x08 by rw [hproto]; rfl] at hsend ⊢
  · rw [← stmtsEvents_bodyOf, hb, stmtsEvents_setEmodeBody, stmtsDctrl_setEmodeBody, stmtsEmode_setEmodeBody]
    refine h.append_entry ?_ (setFlag_emode_and hproto on hz.emode hf)
    have hsend := sendsCommands_send_cmd hp (s.cfg.proto.cmdEntryModeSet ||| setFlag s.emode f on) t
    rwa [show s.cfg.proto.cmdEntryModeSet = 0x04 by rw [hproto]; rfl] at hsend ⊢
  · rw [hb, stmtsDctrl_backlightBody, stmtsEmode_backlightBody]
    exact h.append_quiet (sendsQuietly_of_frames_nil (frames_backlight _ _ _))
  · obtain ⟨hdctrl, hemode, -⟩ := regs_of_regFree hfree s.dctrl s.emode none
    rw [hdctrl, hemode]
    exact h.append_quiet (sendsQuietly_request hp hproto hi hfree t)

theorem mirrorInv_atReset {cfg : Config} (h : cfg.proto = defaultProto) (port : Port) (inbox : List Word) :
    (State.atReset cfg port inbox).MirrorInv where
  constants := h
  zero := ⟨dfuncOf_and h, BitVec.zero_and, BitVec.zero_and⟩
  pins := nofun
  fresh := fun _ _ => ⟨rfl, rfl⟩
  paired := nofun
  display := nofun
  entry := nofun

theorem exec_keeps_mirror {i : Instr} {s t : State} (hs : s.MirrorInv) (hinit : s.initialized = true)
    (hi : i.canBreakMirror = false) (h : exec i s = .next t) : t.MirrorInv := by
  obtain ⟨hdistinct, hfour⟩ := hs.pins hinit
  rcases exec_next_cases h with rfl | ⟨k, info, l, -, rfl⟩
  · have hmirrors : s.fault = .none → Mirrors s.cfg.pins (requestDone i s).trace (requestDone i s).dctrl
        (requestDone i s).emode := fun hf =>
      mirrors_request (hs.mirrors hinit hf) ⟨hdistinct, hfour⟩ hs.constants hs.zero hi _
    exact {
      constants := hs.constants
      zero := zeroFields_requestDone hs.constants hs.zero i
      pins := hs.pins
      fresh := fun hni => absurd (hinit.symm.trans hni) nofun
      paired := fun _ hf => (hmirrors hf).paired
      display := fun _ hf => (hmirrors hf).display
      entry := fun _ hf => (hmirrors hf).entry }
  · exact {
      constants := hs.constants
      zero := { hs.zero with }
      pins := hs.pins
      fresh := nofun
      paired := nofun
      display := nofun
      entry := nofun }

theorem constructPins_keeps_mirror {s : State} (hs : s.MirrorInv) (hinit : s.initialized = false)
    (hf : s.fault = .none) (hp : CarriesNibbles s.cfg.pins) : (constructPins s).MirrorInv := by
  obtain ⟨htrace, hdfunc⟩ := hs.fresh hinit hf
  have hdctrl : initDctrl s.cfg.proto &&& 0xF8 = 0 := by rw [hs.constants]; rfl
  have hemode : initEmode s.cfg.proto &&& 0xFC = 0 := by rw [hs.constants]; rfl
  rcases constructPins_cases s hinit with ⟨-, hend⟩ | ⟨k, info, dc, em, l, p, w, -, hdc, hem, hend⟩
  all_goals rw [hend]
  · have hmirrors := mirrors_construct hp hs.constants hdfunc s.port.tioAt
    rw [← List.nil_append (configureEvents _ ++ _), ← htrace] at hmirrors
    exact {
      constants := hs.constants
      zero := ⟨hs.zero.dfunc, hdctrl, hemode⟩
      pins := fun _ => ⟨hp.distinct, hp.four⟩
      fresh := nofun
      paired := fun _ _ => hmirrors.paired
      display := fun _ _ => hmirrors.display
      entry := fun _ _ => hmirrors.entry }
  · have hdc' : dc &&& 0xF8 = 0 := by rcases hdc with rfl | rfl; exacts [hs.zero.dctrl, hdctrl]
    have hem' : em &&& 0xFC = 0 := by rcases hem with rfl | rfl; exacts [hs.zero.emode, hemode]
    exact {
      constants := hs.constants
      zero := ⟨hs.zero.dfunc, hdc', hem'⟩
      pins := hs.pins
      fresh := nofun
      paired := nofun
      display := nofun
      entry := nofun }

/-- Settles O55: a request that sets a flag sends the command of its register, every other request that is let in sends
no command of either kind, construction ends with both, and what fails or waits claims nothing new. -/
theorem stepKeepsTheMirror : Obligations.StepKeepsTheMirror := by
  intro s t hs hreset hquiet h
  cases hr : s.resetIn with
  | some cfg =>
    rw [step_reset hr, Host.Outcome.next.injEq] at h
    exact h ▸ mirrorInv_atReset (hreset cfg hr) s.port s.inbox
  | none =>
    rcases step_cases hr h with ⟨hi, -, i, rest, hdec, hexec⟩ | ⟨-, -, -, rest, -, rfl⟩ | rfl |
      ⟨-, -, -, -, -, rfl⟩ | ⟨hi, -, hf, hn, hd, rfl⟩
    · exact exec_keeps_mirror (s := s.setInbox rest) { hs with zero := { hs.zero with } } hi (hquiet hi i rest hdec)
        hexec
    · exact { hs with zero := { hs.zero with } }
    · exact hs
    · exact { hs with zero := { hs.zero with }, fresh := nofun, paired := nofun, display := nofun, entry := nofun }
    · have hfour : 4 ≤ s.cfg.pins.nData := by omega
      have hs' : (s.setDfunc (dfuncOf s.cfg)).MirrorInv :=
        { hs with
          zero := ⟨dfuncOf_and hs.constants, hs.zero.dctrl, hs.zero.emode⟩
          fresh := fun hi hf => ⟨(hs.fresh hi hf).1, rfl⟩ }
      exact constructPins_keeps_mirror hs' hi hf ⟨hd, hfour⟩

end Sys2Proof.Machine

/-! The enable pin (R57, R101, R212): the pieces that a sequence of events is made of, the level of `EN` along them, the
pulses they hold; the bulk write of a frame and the composed command bytes (R59, R60, R70). -/

namespace Sys2Proof.Machine

/-! ### The pieces of a sequence of events -/

/-- The events of requests and of construction, as pieces laid end to end: waits, pulses, the bulk writes of frames,
pin set-ups and analog writes (R100 to R102, R120, R170). -/
inductive MadeOfPieces (c : Config) : List Event → Prop
  | nil : MadeOfPieces c []
  | delay (d t : Duration) : MadeOfPieces c (delayEvents d t)
  | pulse (t : Duration) : MadeOfPieces c (pulseEvents c t)
  | bulk (v : Byte) (w : Nat) (mode : Mode) : MadeOfPieces c [.call (.bulk (frameMap c.pins v w mode))]
  | configure (p : PinId) (isInput : Bool) : MadeOfPieces c [.call (.configure p isInput)]
  | analog (p : PinId) (a : Backlight) : MadeOfPieces c [.call (.analog p a)]
  | append {a b : List Event} : MadeOfPieces c a → MadeOfPieces c b → MadeOfPieces c (a ++ b)

section
variable (c : Config)

theorem madeOfPieces_frame (v : Byte) (w : Nat) (mode : Mode) (t : Duration) :
    MadeOfPieces c (frameEvents c v w mode t) :=
  (MadeOfPieces.bulk v w mode).append (.pulse t)

theorem madeOfPieces_send (b : Byte) (mode : Mode) (t : Nat → Duration) : MadeOfPieces c (sendEvents c b mode t) := by
  have hframe := madeOfPieces_frame c
  unfold sendEvents
  split
  · exact (hframe _ _ _ _).append (.delay _ _)
  · exact ((hframe _ _ _ _).append (hframe _ _ _ _)).append (.delay _ _)

theorem madeOfPieces_sendWait (b : Byte) (mode : Mode) (d : Duration) (t : Nat → Duration) :
    MadeOfPieces c (sendWaitEvents c b mode d t) :=
  (madeOfPieces_send c b mode t).append (.delay _ _)

theorem madeOfPieces_print (text : List Word) (t : Nat → Duration) : MadeOfPieces c (printEvents c text t) := by
  induction text generalizing t with
  | nil => exact .nil
  | cons cp rest ih => exact (madeOfPieces_send c _ _ _).append (ih _)

theorem madeOfPieces_glyph (glyph : List Word) (t : Nat → Duration) : MadeOfPieces c (glyphEvents c glyph t) := by
  induction glyph generalizing t with
  | nil => exact .nil
  | cons g rest ih => exact (madeOfPieces_sendWait c _ _ _ _).append (ih _)

theorem madeOfPieces_backlight (v : Backlight) : MadeOfPieces c (backlightEvents c v) := by
  unfold backlightEvents
  split
  · exact .analog _ v
  · exact .nil

theorem madeOfPieces_configure (p : Pins) : MadeOfPieces c (configureEvents p) := by
  unfold configureEvents
  induction p.rs :: (p.rw.toList ++ p.en :: (p.data ++ p.bl.toList)) with
  | nil => exact .nil
  | cons q rest ih => exact (MadeOfPieces.configure q false).append ih

theorem madeOfPieces_init (dfunc : Byte) (t : Nat → Duration) : MadeOfPieces c (initEvents c dfunc t) := by
  have hsend := madeOfPieces_send c
  have hdelay := MadeOfPieces.delay (c := c)
  exact hdelay _ _
    |>.append ((hsend _ _ _).append (hdelay _ _))
    |>.append ((hsend _ _ _).append (hdelay _ _))
    |>.append ((hsend _ _ _).append (hdelay _ _))
    |>.append (hsend _ _ _)
    |>.append (hsend _ _ _)
    |>.append (hsend _ _ _)
    |>.append (madeOfPieces_sendWait c _ _ _ _)
    |>.append (hsend _ _ _)
    |>.append (madeOfPieces_backlight c _)

end

theorem madeOfPieces_request (i : Instr) (s : State) (t : Nat → Duration) :
    MadeOfPieces s.cfg (requestEvents i s t) := by
  cases i
  case delay d => exact .delay _ _
  case pulse => exact .pulse _
  case wrBits v w mode => exact madeOfPieces_frame _ v w mode _
  case clear | home => exact madeOfPieces_sendWait _ _ _ _ _
  case print text => exact madeOfPieces_print _ text t
  case createChar location glyph => exact (madeOfPieces_sendWait _ _ _ _ _).append (madeOfPieces_glyph _ _ _)
  case backlightSet v => exact madeOfPieces_backlight _ v
  case displayGet | cursorGet | blinkGet | ltrGet | rtlGet | autoscrollGet | backlightGet => exact .nil
  all_goals exact madeOfPieces_send _ _ _ _

/-! ### `EN` is no pin of a bulk write -/

theorem en_not_mem {p : Pins} (h : p.distinct) : p.en ∉ p.rs :: (p.rw.toList ++ p.data) := by
  have hdigital := (List.nodup_append.mp h).1
  obtain ⟨hrs, hrest⟩ := List.nodup_cons.mp hdigital
  intro hmem
  rcases List.mem_cons.mp hmem with heq | hmem
  · exact hrs (heq ▸ List.mem_cons_self)
  · exact (List.nodup_cons.mp hrest).1 hmem

/-- Away from the data pins it drives, a frame writes RS by the mode, RW low, and no other pin (R102). -/
theorem read_frameMap_of_not_driven {p : Pins} (h : p.distinct) (value : Byte) {width : Nat} (mode : Mode) {q : PinId}
    (hq : q ∉ p.data.take width) : (frameMap p value width mode).read q =
      if some q = p.rw then some false else if q = p.rs then some (rsLevel mode) else none := by
  have hnone : (drivenPins p width).find? (fun x => x.1 = q) = none := by
    refine List.find?_eq_none.mpr fun x hx heq => hq ?_
    have hmem : x.1 ∈ p.data.take width := fst_drivenPins p width ▸ List.mem_map_of_mem hx
    exact of_decide_eq_true heq ▸ hmem
  rw [frameMap, Levels.read_foldl_set _ _ _ _ (nodup_fst_drivenPins h width), hnone]
  cases hrw : p.rw with
  | none => simp [Levels.read_set]
  | some rw => simp [Levels.read_set]

theorem read_frameMap_en {p : Pins} (h : p.distinct) (value : Byte) (width : Nat) (mode : Mode) :
    (frameMap p value width mode).read p.en = none := by
  have hen := en_not_mem h
  simp only [List.mem_cons, List.mem_append, Option.mem_toList, not_or] at hen
  obtain ⟨hrs, hrw, hdata⟩ := hen
  rw [read_frameMap_of_not_driven h value mode (fun hmem => hdata (List.mem_of_mem_take hmem)),
    if_neg (fun heq => hrw heq.symm), if_neg hrs]

/-! ### The level of `EN` along a sequence -/

/-- The level of pin `p` after the events `es`, from its level `l` before them. -/
def levelAfter (p : PinId) (l : Option Bool) (es : List Event) : Option Bool := es.foldl (levelStep p) l

theorem levelAfter_append (p : PinId) (l : Option Bool) (a b : List Event) :
    levelAfter p l (a ++ b) = levelAfter p (levelAfter p l a) b := List.foldl_append

theorem lastLevel_append_eq_levelAfter (p : PinId) (a b : List Event) :
    lastLevel p (a ++ b) = levelAfter p (lastLevel p a) b := lastLevel_append p a b

/-- From level `l` of `en` before `es`, `en` is high at no successful call of `es` but its own fall. -/
def LowAtCalls (en : PinId) : Option Bool → List Event → Prop
  | _, [] => True
  | l, e :: rest =>
    (e.isCall = true → l ≠ some true ∨ e = .call (.write en false)) ∧ LowAtCalls en (levelStep en l e) rest

theorem lowAtCalls_append {en : PinId} {l : Option Bool} {a b : List Event} :
    LowAtCalls en l (a ++ b) ↔ LowAtCalls en l a ∧ LowAtCalls en (levelAfter en l a) b := by
  induction a generalizing l with
  | nil => exact (and_iff_right trivial).symm
  | cons e rest ih => exact (and_congr_right' ih).trans and_assoc.symm

/-- A trace at whose bulk writes `en` is not high stays one, when events follow at whose calls it is not high. -/
theorem enLowAtBulk_append {en : PinId} {a b : List Event} (ha : enLowAtBulk en a)
    (hb : LowAtCalls en (lastLevel en a) b) : enLowAtBulk en (a ++ b) := by
  have hhead : ∀ {l m rest}, LowAtCalls en l (.call (.bulk m) :: rest) → l ≠ some true :=
    fun h => (h.1 rfl).resolve_right nofun
  intro before m after heq
  rcases List.append_eq_append_iff.mp heq with ⟨x, rfl, rfl⟩ | ⟨x, rfl, hx⟩
  · rw [lastLevel_append_eq_levelAfter]
    exact hhead (lowAtCalls_append.mp hb).2
  · cases x with
    | nil =>
      rw [List.nil_append] at hx
      rw [List.append_nil, ← hx] at hb
      exact hhead hb
    | cons e x =>
      obtain ⟨rfl, -⟩ := List.cons.inj hx
      exact ha before m x rfl

/-- From any level that is not high, `es` leaves `en` at that level or low, and has it high at no call but its fall
(R57, R101). -/
structure KeepsLow (en : PinId) (es : List Event) : Prop where
  after : ∀ l, l ≠ some true → levelAfter en l es = l ∨ levelAfter en l es = some false
  calls : ∀ l, l ≠ some true → LowAtCalls en l es

section
variable {en : PinId} {es : List Event} (h : KeepsLow en es)
include h

theorem KeepsLow.after_ne_high {l : Option Bool} (hl : l ≠ some true) : levelAfter en l es ≠ some true := by
  rcases h.after l hl with heq | heq <;> rw [heq]
  · exact hl
  · nofun

theorem KeepsLow.after_low : levelAfter en (some false) es = some false :=
  (h.after (some false) nofun).elim id id

theorem KeepsLow.append {es' : List Event} (h' : KeepsLow en es') : KeepsLow en (es ++ es') := by
  refine ⟨fun l hl => ?_, fun l hl => lowAtCalls_append.mpr ⟨h.calls l hl, h'.calls _ (h.after_ne_high hl)⟩⟩
  rw [levelAfter_append]
  rcases h'.after _ (h.after_ne_high hl) with heq | heq <;> rw [heq]
  · exact h.after l hl
  · exact .inr rfl

/-- Cut at a failing call, the sequence still has `en` high at no call, and does not leave it high: the failing call
is the fall, after which `en` is unwritten, or one before which it was not high (R101, R181). -/
theorem KeepsLow.cutAtCall {k : Nat} (info : PortInfo) (hk : k < es.countP Event.isCall) {l : Option Bool}
    (hl : l ≠ some true) :
    levelAfter en l (cutAtCall k info es) ≠ some true ∧ LowAtCalls en l (cutAtCall k info es) := by
  obtain ⟨pre, c, post, rfl, hcut, -⟩ := cutAtCall_split k info es hk
  obtain ⟨hpre, hcall, -⟩ := lowAtCalls_append.mp (h.calls l hl)
  rw [hcut]
  refine ⟨?_, lowAtCalls_append.mpr ⟨hpre, nofun, trivial⟩⟩
  rw [levelAfter_append]
  show (if en ∈ c.pins then none else levelAfter en l pre) ≠ some true
  split
  · nofun
  · rename_i hen
    refine (hcall rfl).resolve_right fun hfall => hen ?_
    rw [Event.call.inj hfall]
    exact List.mem_singleton_self en

end

/-! ### Every piece keeps `EN` low -/

/-- A call that moves no level of `en` keeps it low. -/
theorem keepsLow_call {en : PinId} {c : PinCall} (h : ∀ l, levelStep en l (.call c) = l) : KeepsLow en [.call c] :=
  ⟨fun l _ => .inl (h l), fun _ hl => ⟨fun _ => .inl hl, trivial⟩⟩

theorem levelAfter_delay (p : PinId) (l : Option Bool) (d t : Duration) : levelAfter p l (delayEvents d t) = l := by
  unfold delayEvents; split <;> rfl

theorem lowAtCalls_delay (en : PinId) (l : Option Bool) (d t : Duration) : LowAtCalls en l (delayEvents d t) := by
  unfold delayEvents
  split
  · exact ⟨nofun, nofun, trivial⟩
  · exact ⟨nofun, trivial⟩

section
variable (c : Config) (l : Option Bool)

/-- A pulse leaves `EN` low, whatever its level before it (R101). -/
theorem levelAfter_pulse (t : Duration) : levelAfter c.pins.en l (pulseEvents c t) = some false := by
  show levelAfter c.pins.en _ (delayEvents c.timing.tEnHold t ++ [.call (.write c.pins.en false)]) = _
  rw [levelAfter_append]
  exact if_pos rfl

theorem keepsLow_pulse (t : Duration) : KeepsLow c.pins.en (pulseEvents c t) :=
  ⟨fun l _ => .inr (levelAfter_pulse c l t), fun _ hl =>
    ⟨fun _ => .inl hl, lowAtCalls_append.mpr ⟨lowAtCalls_delay _ _ _ _, fun _ => .inr rfl, trivial⟩⟩⟩

theorem levelAfter_frame (v : Byte) (w : Nat) (mode : Mode) (t : Duration) :
    levelAfter c.pins.en l (frameEvents c v w mode t) = some false := levelAfter_pulse c _ t

theorem levelAfter_send (b : Byte) (mode : Mode) (t : Nat → Duration) :
    levelAfter c.pins.en l (sendEvents c b mode t) = some false := by
  unfold sendEvents
  split <;> simp only [levelAfter_append, levelAfter_delay, levelAfter_frame]

theorem levelAfter_backlight (v : Backlight) : levelAfter c.pins.en l (backlightEvents c v) = l := by
  unfold backlightEvents; cases c.pins.bl <;> rfl

/-- The initialisation sequence leaves `EN` low: it ends with a byte sent, and the backlight is no pin of `LVL`. -/
theorem levelAfter_init (dfunc : Byte) (t : Nat → Duration) :
    levelAfter c.pins.en l (initEvents c dfunc t) = some false := by
  simp only [initEvents, levelAfter_append, levelAfter_send, levelAfter_backlight]

end

theorem MadeOfPieces.keepsLow {c : Config} {es : List Event} (h : MadeOfPieces c es) (hd : c.pins.distinct) :
    KeepsLow c.pins.en es := by
  induction h with
  | nil => exact ⟨fun _ _ => .inl rfl, fun _ _ => trivial⟩
  | delay d t => exact ⟨fun _ _ => .inl (levelAfter_delay _ _ d t), fun _ _ => lowAtCalls_delay _ _ d t⟩
  | pulse t => exact keepsLow_pulse c t
  | bulk v w mode => exact keepsLow_call fun l => by rw [levelStep, read_frameMap_en hd]
  | configure | analog => exact keepsLow_call fun _ => rfl
  | append _ _ iha ihb => exact iha.append ihb

/-! ### Every step keeps the enable pin low -/

theorem exec_keeps_enable {i : Instr} {s t : State} (hs : s.EnableInv) (hinit : s.initialized = true)
    (h : exec i s = .next t) : t.EnableInv := by
  have hkeeps := (madeOfPieces_request i s s.port.tioAt).keepsLow (hs.pinsDistinct hinit)
  rcases exec_next_cases h with rfl | ⟨k, info, l, hk, rfl⟩
  · exact {
      pinsDistinct := hs.pinsDistinct
      idleLow := fun hi hf => (lastLevel_append_eq_levelAfter _ _ _).trans (hs.idleLow hi hf ▸ hkeeps.after_low)
      neverHigh := lastLevel_append_eq_levelAfter _ _ _ ▸ hkeeps.after_ne_high hs.neverHigh
      lowAtBulk := enLowAtBulk_append hs.lowAtBulk (hkeeps.calls _ hs.neverHigh) }
  · obtain ⟨hafter, hcalls⟩ := hkeeps.cutAtCall info hk hs.neverHigh
    exact {
      pinsDistinct := hs.pinsDistinct
      idleLow := nofun
      neverHigh := lastLevel_append_eq_levelAfter _ _ _ ▸ hafter
      lowAtBulk := enLowAtBulk_append hs.lowAtBulk hcalls }

theorem constructPins_keeps_enable {s : State} (hs : s.EnableInv) (hinit : s.initialized = false)
    (hd : s.cfg.pins.distinct) : (constructPins s).EnableInv := by
  have hkeeps := ((madeOfPieces_configure s.cfg s.cfg.pins).append
    (madeOfPieces_init s.cfg s.dfunc s.port.tioAt)).keepsLow hd
  rcases constructPins_cases s hinit with ⟨-, hend⟩ | ⟨k, info, dc, em, l, p, w, hk, -, -, hend⟩
  all_goals rw [hend]
  · have hlow : lastLevel s.cfg.pins.en (s.trace ++ (configureEvents s.cfg.pins ++
        initEvents s.cfg s.dfunc s.port.tioAt)) = some false := by
      rw [lastLevel_append_eq_levelAfter, levelAfter_append, levelAfter_init]
    exact {
      pinsDistinct := fun _ => hd
      idleLow := fun _ _ => hlow
      neverHigh := hlow ▸ nofun
      lowAtBulk := enLowAtBulk_append hs.lowAtBulk (hkeeps.calls _ hs.neverHigh) }
  · rw [← countCall_stmtsEvents _ s.port.tioAt, stmtsEvents_construct] at hk
    obtain ⟨hafter, hcalls⟩ := hkeeps.cutAtCall info hk hs.neverHigh
    exact {
      pinsDistinct := hs.pinsDistinct
      idleLow := nofun
      neverHigh := lastLevel_append_eq_levelAfter _ _ _ ▸ hafter
      lowAtBulk := enLowAtBulk_append hs.lowAtBulk hcalls }

/-- Settles O53: a request and construction add pieces that keep `EN` low, whole or cut at their first failing call;
an illegal word, waiting and a wrong pin count leave the trace as it is. -/
theorem stepKeepsEnableLow : Obligations.StepKeepsEnableLow := by
  intro s t hs h
  cases hr : s.resetIn with
  | some cfg =>
    rw [step_reset hr, Host.Outcome.next.injEq] at h
    exact h ▸ enableLowAtReset cfg s.port s.inbox
  | none =>
    rcases step_cases hr h with ⟨hi, -, i, rest, -, hexec⟩ | ⟨-, -, -, rest, -, rfl⟩ | rfl | ⟨-, -, -, -, -, rfl⟩ |
      ⟨hi, -, -, -, hd, rfl⟩
    · exact exec_keeps_enable (s := s.setInbox rest) { hs with } hi hexec
    · exact { hs with }
    · exact hs
    · exact { hs with idleLow := nofun }
    · exact constructPins_keeps_enable (s := s.setDfunc (dfuncOf s.cfg)) { hs with } hi hd

/-! ### The bulk write of a frame -/

theorem rw_not_mem_data {p : Pins} (h : p.distinct) {rw : PinId} (hrw : p.rw = some rw) : rw ∉ p.data := by
  have hdigital := (List.nodup_append.mp h).1
  have hrest := (List.nodup_cons.mp (List.nodup_cons.mp hdigital).2).2
  rw [hrw] at hrest
  exact (List.nodup_cons.mp hrest).1

/-- A data pin beyond the width of a frame is not driven (R55). -/
theorem data_not_mem_take {p : Pins} (h : p.distinct) {width i : Nat} (hi : ¬ i < width) {pin : PinId}
    (hpin : p.data[i]? = some pin) : pin ∉ p.data.take width := by
  obtain ⟨hlt, rfl⟩ := List.getElem?_eq_some_iff.mp hpin
  rwa [List.mem_take_iff_idxOf_lt (List.getElem_mem hlt), (data_nodup h).idxOf_getElem]

/-- Settles O12: RS and the driven data pins by `read_frameMap_rs` and `read_frameMap_data`, every other pin by
`read_frameMap_of_not_driven`. -/
theorem bulkWriteCarriesTheFrame : Obligations.BulkWriteCarriesTheFrame := by
  intro p value width mode hd
  refine ⟨frameMap_wf _ _ _ _, ?_, fun rw hrw => ?_, fun i pin hpin => ?_, fun q hrs hrw hdata => ?_⟩
  · rw [read_frameMap_rs hd]
    cases mode <;> rfl
  · have hundriven : rw ∉ p.data.take width := fun hmem => rw_not_mem_data hd hrw (List.mem_of_mem_take hmem)
    rw [read_frameMap_of_not_driven hd _ _ hundriven, if_pos hrw.symm]
  · have hmem : pin ∈ p.data := List.mem_of_getElem? hpin
    have hrs : pin ≠ p.rs := fun heq => rs_not_mem hd (List.mem_append_right _ (heq ▸ hmem))
    split
    · exact read_frameMap_data hd value mode ‹_› hpin
    · rw [read_frameMap_of_not_driven hd _ _ (data_not_mem_take hd ‹_› hpin),
        if_neg fun hrw => rw_not_mem_data hd hrw.symm hmem, if_neg hrs]
  · rw [read_frameMap_of_not_driven hd _ _ fun hmem => hdata (List.mem_of_mem_take hmem), if_neg hrw, if_neg hrs]

/-! ### The composed command bytes (R59, R60) -/

theorem clampRow_val (g : Geometry) (row : Nat) : (clampRow g row).val = min row (g.rows - 1) := by
  unfold clampRow Geometry.rows
  split
  · show row = _
    omega
  · omega

theorem getElem?_rowOffsets (t : RowOffsets) (row : Fin 4) :
    [t.row0, t.row1, t.row2, t.row3][row.val]? = some (rowOffset t row) := by
  match row with
  | 0 | 1 | 2 | 3 => rfl

/-- A row out of range is the last row (R59, R132). -/
theorem clampRow_of_rows_le {g : Geometry} {row : Nat} (h : g.rows ≤ row) :
    clampRow g row = clampRow g (g.rows - 1) := by
  apply Fin.ext
  rw [clampRow_val, clampRow_val]
  omega

/-- Settles O17: the clamped row indexes the table that the geometry chooses, and the command is cut to 8 bits. -/
theorem cursorAddress : Obligations.CursorAddress := by
  intro c row col table
  refine ⟨⟨rowOffset table (clampRow c.geom row), ?_, ?_⟩, fun h => ?_⟩
  · rw [← clampRow_val]
    exact getElem?_rowOffsets _ _
  · exact BitVec.toNat_ofNat _ _
  · rw [ddramCommand, ddramAddr, clampRow_of_rows_le h]
    rfl

/-- Settles O28: with the default mask and shift, a command byte is the location modulo 8 in bits 5 to 3 under 0x40. -/
theorem glyphLocationsWrap : Obligations.GlyphLocationsWrap := by
  intro c hproto
  have hvalue : ∀ a : Byte, (cgramCommand c a).toNat = 0x40 + 8 * (a.toNat % 8) := by
    unfold cgramCommand
    rw [hproto]
    decide
  refine ⟨fun a b h => BitVec.eq_of_toNat_eq ?_, hvalue, BitVec.eq_of_toNat_eq (hvalue 9)⟩
  rw [hvalue, hvalue, h]

/-! ### Every request answers once -/

/-- Settles O41: whole or failed, a request appends one word to the responses, and leaves an initialised block idle. -/
theorem everyRequestAnswersOnce : Obligations.EveryRequestAnswersOnce := by
  intro i s
  rcases exec_cases i s with ⟨-, hexec⟩ | ⟨k, info, l, -, -, -, hexec⟩
  · exact ⟨_, _, hexec, rfl, fun hi => ⟨rfl, rfl, hi⟩⟩
  · exact ⟨_, _, hexec, rfl, fun hi => ⟨by simp [hi], if_pos hi, hi⟩⟩

/-! ### Pulses in pairs -/

/-- The rises of `EN` in a sequence: its pulses (R101). -/
def rises (en : PinId) (es : List Event) : Nat := es.countP (Event.isRise en)

theorem rises_append (en : PinId) (a b : List Event) : rises en (a ++ b) = rises en a + rises en b :=
  List.countP_append

@[simp] theorem rises_delay (en : PinId) (d t : Duration) : rises en (delayEvents d t) = 0 := by
  unfold delayEvents; split <;> rfl

section
variable (c : Config)

@[simp] theorem rises_pulse (t : Duration) : rises c.pins.en (pulseEvents c t) = 1 := by
  have hcons : pulseEvents c t = [.call (.write c.pins.en true)] ++ (delayEvents c.timing.tEnHold t ++
    [.call (.write c.pins.en false)]) := rfl
  rw [hcons, rises_append, rises_append, rises_delay]
  simp [rises, Event.isRise]

@[simp] theorem rises_frame (v : Byte) (w : Nat) (mode : Mode) (t : Duration) :
    rises c.pins.en (frameEvents c v w mode t) = 1 := rises_pulse c t

@[simp] theorem rises_send_raw4 (b : Byte) (t : Nat → Duration) : rises c.pins.en (sendEvents c b .raw4 t) = 1 := by
  simp [sendEvents, rises_append]

/-- A command byte is two frames, high nibble and low nibble, each with its pulse (R53, R71). -/
@[simp] theorem rises_send_cmd (b : Byte) (t : Nat → Duration) : rises c.pins.en (sendEvents c b .cmd t) = 2 := by
  simp [sendEvents, rises_append]

@[simp] theorem rises_send_data (b : Byte) (t : Nat → Duration) : rises c.pins.en (sendEvents c b .data t) = 2 := by
  simp [sendEvents, rises_append]

@[simp] theorem rises_sendWait (b : Byte) (mode : Mode) (d : Duration) (t : Nat → Duration) :
    rises c.pins.en (sendWaitEvents c b mode d t) = rises c.pins.en (sendEvents c b mode t) := by
  rw [sendWaitEvents, rises_append, rises_delay, Nat.add_zero]

theorem rises_print (text : List Word) (t : Nat → Duration) :
    rises c.pins.en (printEvents c text t) = 2 * text.length := by
  induction text generalizing t with
  | nil => rfl
  | cons cp rest ih =>
    rw [printEvents, rises_append, rises_send_data, ih, List.length_cons]
    omega

theorem rises_glyph (glyph : List Word) (t : Nat → Duration) :
    rises c.pins.en (glyphEvents c glyph t) = 2 * glyph.length := by
  induction glyph generalizing t with
  | nil => rfl
  | cons g rest ih =>
    rw [glyphEvents, rises_append, rises_sendWait, rises_send_data, ih, List.length_cons]
    omega

theorem rises_createChar (location : Byte) (glyph : List Word) (t : Nat → Duration) :
    rises c.pins.en (createCharEvents c location glyph t) = 2 * ((glyph.take c.proto.glyphMax).length + 1) := by
  rw [createCharEvents, rises_append, rises_sendWait, rises_send_cmd, rises_glyph]
  omega

theorem rises_backlight (en : PinId) (v : Backlight) : rises en (backlightEvents c v) = 0 := by
  unfold backlightEvents; cases c.pins.bl <;> rfl

end

/-- A request none of whose calls fails adds its whole sequence of events. -/
theorem added_of_no_fail {i : Instr} {s t : State} {es : List Event} (h : exec i s = .next t)
    (htrace : t.trace = s.trace ++ es) (hfail : es.countP Event.isFail = 0) :
    es = requestEvents i s s.port.tioAt := by
  rcases exec_next_cases h with rfl | ⟨k, info, l, hk, rfl⟩
  · exact (List.append_cancel_left htrace).symm
  · obtain ⟨pre, c, post, -, hcut, -⟩ := cutAtCall_split k info _ hk
    have hes : pre ++ [.fail c info] = es := hcut ▸ List.append_cancel_left htrace
    rw [← hes] at hfail
    simp [Event.isFail] at hfail

/-- Settles O47: a byte is two pulses, so every request that sends bytes alone raises `EN` an even number of times. -/
theorem pulsesComeInPairs : Obligations.PulsesComeInPairs := by
  intro i s t es h htrace hfail
  rw [added_of_no_fail h htrace hfail]
  intro count
  have heven : ∀ n, count = 2 * n → count % 2 = 0 := fun n hn => by rw [hn, Nat.mul_mod_right]
  cases i
  case pulse => exact rises_pulse _ _
  case wrBits => exact rises_frame _ _ _ _ _
  case sendRaw4 => exact rises_send_raw4 _ _ _
  case delay => exact heven 0 (rises_delay _ _ _)
  case clear | home => exact heven 1 ((rises_sendWait _ _ _ _ _).trans (rises_send_cmd _ _ _))
  case sendData | write => exact heven 1 (rises_send_data _ _ _)
  case print text => exact heven _ (rises_print _ text _)
  case createChar location glyph => exact heven _ (rises_createChar _ location glyph _)
  case backlightSet v => exact heven 0 (rises_backlight _ _ v)
  case displayGet | cursorGet | blinkGet | ltrGet | rtlGet | autoscrollGet | backlightGet => exact heven 0 rfl
  all_goals exact heven 1 (rises_send_cmd _ _ _)

end Sys2Proof.Machine

/-! The words of a request decode to it (R80 to R83), a step runs it (R81), and what `CREATECHAR` leaves, well or
failing (R162). -/

namespace Sys2Proof

/-! ### What each format makes of the fields it lays out (R82) -/

section
variable (op : Byte)

@[simp] theorem formatZ_header (i : Instr) : formatZ (header op 0#8 0#8 0#8) i = .whole i := by
  simp [formatZ]

@[simp] theorem formatB_header (i : Byte → Instr) (byte : Byte) :
    formatB (header op 0#8 0#8 byte) i = .whole (i byte) := by
  simp [formatB]

@[simp] theorem formatF_header (i : Bool → Instr) (on : Bool) :
    formatF (header op 0#8 0#8 (BitVec.setWidth 8 (BitVec.ofBool on))) i = .whole (i on) := by
  cases on <;> simp [formatF]

theorem toNat_lowField_headerLow {n : Nat} (h : n < 2 ^ 24) : (lowField (headerLow op n)).toNat = n := by
  rw [lowField_headerLow, BitVec.toNat_ofNat, Nat.mod_eq_of_lt h]

theorem formatT_headerLow (i : Nat → Instr) {n : Nat} (h : n < 2 ^ 24) : formatT (headerLow op n) i = .whole (i n) := by
  rw [formatT, toNat_lowField_headerLow op h]

theorem formatW_header (value : Byte) {width : Nat} (h : width < 2 ^ 8) (mode : Mode) :
    formatW (header op (modeBits mode) (BitVec.ofNat 8 width) value) = .whole (.wrBits value width mode) := by
  have hmode : (modeBits mode).extractLsb' 2 6 = 0 ∧ modeOf ((modeBits mode).extractLsb' 0 2) = some mode := by
    cases mode <;> decide
  obtain ⟨hreserved, hbits⟩ := hmode
  simp only [formatW, aField_header, bField_header, cField_header, hreserved, hbits, if_true, BitVec.toNat_ofNat,
    Nat.mod_eq_of_lt h]

theorem formatRC_header {row col : Nat} (hrow : row < 2 ^ 8) (hcol : col < 2 ^ 8) :
    formatRC (header op 0#8 (BitVec.ofNat 8 row) (BitVec.ofNat 8 col)) = .whole (.setCursor row col) := by
  simp only [formatRC, aField_header, bField_header, cField_header, BitVec.ofNat_eq_ofNat, if_true,
    BitVec.toNat_ofNat, Nat.mod_eq_of_lt hrow, Nat.mod_eq_of_lt hcol]

theorem formatG_header (location : Byte) {n : Nat} (h : n < 2 ^ 8) :
    formatG (header op 0#8 (BitVec.ofNat 8 n) location) = .createChar location n := by
  simp only [formatG, aField_header, bField_header, cField_header, BitVec.ofNat_eq_ofNat, if_true,
    BitVec.toNat_ofNat, Nat.mod_eq_of_lt h]

theorem formatL_header_bool (b : Bool) :
    formatL (header op 0#8 0#8 (BitVec.setWidth 8 (BitVec.ofBool b))) = .whole (.backlightSet (.bool b)) := by
  cases b <;> simp [formatL]

theorem formatL_header_int (n : Byte) : formatL (header op 0#8 1#8 n) = .whole (.backlightSet (.int n)) := by
  simp [formatL]

end

/-! ### The round trip -/

theorem decode_whole {h : Word} {i : Instr} (hd : decodeHeader h = .whole i) (rest : List Word) :
    decode (h :: rest) = .accepted i rest := by
  simp only [decode, hd]

theorem decode_print (text rest : List Word) (h : text.length < 2 ^ 24) :
    decode (headerLow 0x31 text.length :: (text ++ rest)) = .accepted (.print text) rest := by
  have hheader : decodeHeader (headerLow 0x31 text.length) = .print text.length := by
    simp only [decodeHeader, opField_headerLow, BitVec.ofNat_eq_ofNat, toNat_lowField_headerLow _ h]
  have hlen : ¬ (text ++ rest).length < text.length := by simp
  simp only [decode, hheader, if_neg hlen, List.take_left, List.drop_left]

theorem decode_createChar (location : Byte) (glyph rest : List Word) (h : glyph.length < 2 ^ 8) :
    decode (header 0x32 0 (BitVec.ofNat 8 glyph.length) location :: (glyph ++ rest))
      = .accepted (.createChar location glyph) rest := by
  have hheader : decodeHeader (header 0x32 0 (BitVec.ofNat 8 glyph.length) location)
      = .createChar location glyph.length := by
    simp [decodeHeader, formatG_header _ _ h]
  have hlen : ¬ (glyph ++ rest).length < glyph.length := by simp
  simp only [decode, hheader, if_neg hlen, List.take_left, List.drop_left]

/-- The words of a well-formed request, whatever follows them, decode to it. -/
theorem decode_encode {i : Instr} (h : i.wellFormed = true) (rest : List Word) :
    decode (encode i ++ rest) = .accepted i rest := by
  cases i
  case print text => exact decode_print text rest (of_decide_eq_true h)
  case createChar location glyph => exact decode_createChar location glyph rest (of_decide_eq_true h)
  case delay d =>
    exact decode_whole (by simp [decodeHeader, formatT_headerLow _ _ (of_decide_eq_true h)]) rest
  case wrBits value width mode =>
    exact decode_whole (by simp [decodeHeader, formatW_header _ _ (of_decide_eq_true h)]) rest
  case setCursor row col =>
    obtain ⟨hrow, hcol⟩ := Bool.and_eq_true_iff.mp h
    exact decode_whole (by
      simp [decodeHeader, formatRC_header _ (of_decide_eq_true hrow) (of_decide_eq_true hcol)]) rest
  case backlightSet value =>
    cases value with
    | bool b => exact decode_whole (by simp [decodeHeader, formatL_header_bool]) rest
    | int n => exact decode_whole (by simp [decodeHeader, formatL_header_int]) rest
  all_goals exact decode_whole (by simp [decodeHeader]) rest

end Sys2Proof

namespace Sys2Proof.Machine

theorem phaseOf_eq_idle {s : State} (hi : s.initialized = true) (hb : s.busy = false) : phaseOf s = .idle :=
  if_pos ⟨hi, hb⟩

/-- Settles O5: an idle block decodes what is presented, and the words of a request decode to it. -/
theorem stepRunsTheDecodedRequest : Obligations.StepRunsTheDecodedRequest := by
  intro i rest s hwf hr hi hb hin
  have hstep : step s = exec i (s.setInbox rest) := by
    simp only [step, hr, phaseOf_eq_idle hi hb, hin, decode_encode hwf]
  exact hstep

/-! ### How a request ends, and `CREATECHAR` -/

/-- A request stops as R181 says at any of the calls its statements make. -/
theorem stopsAtFailingCall {i : Instr} {s : State} {n : Nat} (hn : stmtsCalls (bodyOf i s) = n) :
    StopsAtFailingCall i s n := by
  intro k info hk hok hf
  obtain ⟨l, hexec⟩ := exec_fail i s k info (hn ▸ hk) hok hf
  exact ⟨_, hexec, rfl, rfl, ⟨rfl, rfl, rfl, rfl⟩, rfl, rfl, rfl, fun hi => ⟨by simp [hi], if_pos hi⟩, rfl, rfl, rfl,
    rfl⟩

/-- A request that writes no register and none of whose calls fails: its events and its answer are all it leaves. -/
theorem exec_eq_answered {i : Instr} {s : State} (hfree : (bodyOf i s).all Stmt.regFree = true)
    (hok : s.port.callsOk (stmtsCalls (bodyOf i s))) :
    exec i s = .next (s.answered (requestEvents i s s.port.tioAt) (answerOf i s)) := by
  obtain ⟨hdctrl, hemode, hblvl⟩ := regs_of_regFree hfree s.dctrl s.emode s.blvl
  rw [exec_ok i s hok, hdctrl, hemode, hblvl]
  rfl

/-- The rows of a glyph by their index: row `j` has queries `4 * j` to `4 * j + 3` (R162). -/
theorem glyphEvents_eq_flatMap (c : Config) (glyph : List Word) (t : Nat → Duration) :
    glyphEvents c glyph t = (List.range glyph.length).flatMap fun j =>
      sendWaitEvents c ((glyph.getD j 0).setWidth 8) .data c.timing.tCgData fun k => t (4 * j + k) := by
  induction glyph generalizing t with
  | nil => rfl
  | cons g rest ih =>
    rw [glyphEvents, ih, List.length_cons, List.range_succ_eq_map, List.flatMap_cons, List.flatMap_map]
    simp only [List.getD_cons_zero, List.getD_cons_succ, Nat.mul_zero, Nat.zero_add, Nat.mul_succ, Nat.add_right_comm]

theorem stmtsCalls_glyph (c : Config) (glyph : List Word) :
    stmtsCalls (glyph.flatMap fun g => send c (lowByte g) .data ++ [.delay c.timing.tCgData]) = 6 * glyph.length := by
  induction glyph with
  | nil => rfl
  | cons g rest ih =>
    rw [List.flatMap_cons, stmtsCalls_append, ih, stmtsCalls_append, stmtsCalls_data, stmtsCalls_delay,
      List.length_cons]
    omega

theorem stmtsCalls_createChar (c : Config) (location : Byte) (glyph : List Word) :
    stmtsCalls (createCharBody c location glyph) = 6 + 6 * min glyph.length c.proto.glyphMax := by
  rw [createCharBody, stmtsCalls_append, stmtsCalls_append, stmtsCalls_cmd, stmtsCalls_delay, stmtsCalls_glyph,
    List.length_take, Nat.min_comm]

theorem getD_take {glyph : List Word} {n j : Nat} (h : j < n) : (glyph.take n).getD j 0 = glyph.getD j 0 := by
  rw [List.getD_eq_getElem?_getD, List.getElem?_take_of_lt h, List.getD_eq_getElem?_getD]

/-- Settles O27: the events of `createCharEvents` with the rows of the glyph by their index, and its 6 calls for the
address and for each row. -/
theorem createCharRule : Obligations.CreateCharRule := by
  refine ⟨decode_createChar, fun location glyph s => ?_,
    fun location glyph s => stopsAtFailingCall (stmtsCalls_createChar s.cfg location glyph)⟩
  intro c n hok
  have hrows : glyphEvents c (glyph.take c.proto.glyphMax) (fun k => s.port.tioAt (k + 4)) =
      (List.range n).flatMap fun j => sendWaitEvents c ((glyph.getD j 0).setWidth 8) .data c.timing.tCgData
        fun k => s.port.tioAt (4 * j + 4 + k) := by
    rw [glyphEvents_eq_flatMap, List.length_take, Nat.min_comm]
    refine List.flatMap_congr fun j hj => ?_
    rw [getD_take (Nat.lt_of_lt_of_le (List.mem_range.mp hj) (Nat.min_le_right _ _))]
    simp only [Nat.add_right_comm _ _ 4]
  rw [exec_eq_answered (i := .createChar location glyph) (regFree_createChar s.cfg location glyph)
    (stmtsCalls_createChar s.cfg location glyph ▸ hok)]
  show Host.Outcome.next (s.answered (createCharEvents c location glyph s.port.tioAt) 0) = _
  rw [createCharEvents, hrows]
  rfl

end Sys2Proof.Machine

/-! The encoding, both ways (R80 to R83): what is accepted is its own encoding, which header words are illegal (R86), what
an idle block does with words that are no whole request, the fields of the response word (R84), and the answer of
`BACKLIGHT.GET` (R171). -/

namespace Sys2Proof

/-! ### Words and requests -/

/-- Settles O2: each format gives back the fields that the encoder lays out, and a payload is counted by its header. -/
theorem decodeOfEncodeIsTheRequest : Obligations.DecodeOfEncodeIsTheRequest :=
  fun _ rest hwf => decode_encode hwf rest

/-- A request whose payload is counted is accepted with that many words, which are the first ones presented. -/
theorem accepted_payload {n : Nat} {words rest : List Word} {i : List Word → Instr} {j : Instr}
    (h : (if words.length < n then Decoded.incomplete else .accepted (i (words.take n)) (words.drop n))
      = .accepted j rest) :
    ∃ payload, payload.length = n ∧ j = i payload ∧ words = payload ++ rest := by
  split at h
  · cases h
  next hn =>
    cases h
    exact ⟨words.take n, List.length_take_of_le (Nat.le_of_not_lt hn), rfl, (List.take_append_drop n words).symm⟩

/-- Settles O3: a header is the encoder's by `decodeHeader_cases`, and the payload taken has the length it counts. -/
theorem acceptedWordsAreTheEncoding : Obligations.AcceptedWordsAreTheEncoding := by
  intro ws rest i h
  cases ws with
  | nil => cases h
  | cons w words =>
    obtain ⟨hwhole, hprint, hglyph⟩ := decodeHeader_cases w
    cases hw : decodeHeader w with
    | whole j =>
      simp only [decode, hw] at h
      cases h
      obtain ⟨hwf, henc⟩ := hwhole i hw
      exact ⟨hwf, by rw [henc, List.singleton_append]⟩
    | illegal why =>
      simp only [decode, hw] at h
      cases h
    | print n =>
      simp only [decode, hw] at h
      obtain ⟨text, rfl, rfl, rfl⟩ := accepted_payload (i := .print) h
      obtain ⟨hlength, rfl⟩ := hprint _ hw
      exact ⟨decide_eq_true hlength, rfl⟩
    | createChar location n =>
      simp only [decode, hw] at h
      obtain ⟨glyph, rfl, rfl, rfl⟩ := accepted_payload (i := .createChar location) h
      obtain ⟨hlength, rfl⟩ := hglyph _ _ hw
      exact ⟨decide_eq_true hlength, rfl⟩

/-! ### Which words each format finds illegal (R82, R86) -/

theorem whole_legal (i : Instr) : ¬∃ why, Header.whole i = .illegal why := by
  rintro ⟨_, ⟨⟩⟩

theorem exists_illegal_guard {p : Prop} [Decidable p] (x : Header) (reason : Illegal) :
    (∃ why, (if p then x else .illegal reason) = .illegal why) ↔ ¬p ∨ ∃ why, x = .illegal why := by
  split
  next hp => exact (or_iff_right (not_not_intro hp)).symm
  next hp => exact iff_of_true ⟨reason, rfl⟩ (.inl hp)

theorem exists_illegal_guard_whole {p : Prop} [Decidable p] (i : Instr) (reason : Illegal) :
    (∃ why, (if p then Header.whole i else .illegal reason) = .illegal why) ↔ ¬p := by
  rw [exists_illegal_guard, or_iff_left (whole_legal i)]

theorem byte_eq_zero_iff (x : Byte) : x = 0 ↔ x.toNat = 0 := BitVec.toNat_eq

theorem bits_7_1_eq_zero_iff (x : Byte) : x.extractLsb' 1 7 = 0 ↔ x.toNat ≤ 1 := by
  simp only [BitVec.toNat_eq, BitVec.extractLsb'_toNat, Nat.shiftRight_eq_div_pow, BitVec.ofNat_eq_ofNat,
    BitVec.toNat_ofNat]
  omega

theorem bits_7_2_eq_zero_iff (x : Byte) : x.extractLsb' 2 6 = 0 ↔ x.toNat ≤ 3 := by
  simp only [BitVec.toNat_eq, BitVec.extractLsb'_toNat, Nat.shiftRight_eq_div_pow, BitVec.ofNat_eq_ofNat,
    BitVec.toNat_ofNat]
  omega

theorem bit_0_iff (x : Byte) : x.getLsbD 0 = true ↔ x.toNat % 2 = 1 := by
  rw [← BitVec.testBit_toNat, Nat.testBit_zero, decide_eq_true_iff]

theorem modeOf_bits_1_0_eq_none_iff (x : Byte) : modeOf (x.extractLsb' 0 2) = none ↔ x.toNat % 4 = 3 := by
  have hmode : ∀ m : BitVec 2, modeOf m = none ↔ m.toNat = 3 := by decide
  rw [hmode, BitVec.extractLsb'_toNat, Nat.shiftRight_zero]

section
variable (w : Word)

theorem formatZ_illegal_iff (i : Instr) :
    (∃ why, formatZ w i = .illegal why) ↔ (aField w).toNat ≠ 0 ∨ (bField w).toNat ≠ 0 ∨ (cField w).toNat ≠ 0 := by
  rw [formatZ, exists_illegal_guard_whole]
  simp only [byte_eq_zero_iff]
  omega

theorem formatB_illegal_iff (i : Byte → Instr) :
    (∃ why, formatB w i = .illegal why) ↔ (aField w).toNat ≠ 0 ∨ (bField w).toNat ≠ 0 := by
  rw [formatB, exists_illegal_guard_whole]
  simp only [byte_eq_zero_iff]
  omega

theorem formatF_illegal_iff (i : Bool → Instr) :
    (∃ why, formatF w i = .illegal why) ↔ (aField w).toNat ≠ 0 ∨ (bField w).toNat ≠ 0 ∨ 1 < (cField w).toNat := by
  rw [formatF, exists_illegal_guard_whole, bits_7_1_eq_zero_iff]
  simp only [byte_eq_zero_iff]
  omega

theorem formatT_legal (i : Nat → Instr) : ¬∃ why, formatT w i = .illegal why := whole_legal _

theorem formatRC_illegal_iff : (∃ why, formatRC w = .illegal why) ↔ (aField w).toNat ≠ 0 := by
  rw [formatRC, exists_illegal_guard_whole, byte_eq_zero_iff]

theorem formatG_illegal_iff : (∃ why, formatG w = .illegal why) ↔ (aField w).toNat ≠ 0 := by
  rw [formatG, exists_illegal_guard, byte_eq_zero_iff]
  exact or_iff_left (by rintro ⟨_, ⟨⟩⟩)

/-- A reserved bit of `a` is set when `a` is at least 4, and below 4 it is the mode. -/
theorem formatW_illegal_iff : (∃ why, formatW w = .illegal why) ↔ 2 < (aField w).toNat := by
  have hnone := modeOf_bits_1_0_eq_none_iff (aField w)
  rw [formatW, exists_illegal_guard, bits_7_2_eq_zero_iff]
  cases hmode : modeOf ((aField w).extractLsb' 0 2) with
  | some mode =>
    have hmod : (aField w).toNat % 4 ≠ 3 := fun h => Option.some_ne_none mode (hmode.symm.trans (hnone.mpr h))
    rw [or_iff_left (whole_legal _)]
    omega
  | none =>
    have hmod : (aField w).toNat % 4 = 3 := hnone.mp hmode
    exact iff_of_true (.inr ⟨_, rfl⟩) (by omega)

/-- Bit 0 of `b` is the kind, and only kind 0 restricts `c`. -/
theorem formatL_illegal_iff :
    (∃ why, formatL w = .illegal why) ↔
      (aField w).toNat ≠ 0 ∨ 1 < (bField w).toNat ∨ ((bField w).toNat = 0 ∧ 1 < (cField w).toNat) := by
  rw [formatL, exists_illegal_guard, byte_eq_zero_iff, bits_7_1_eq_zero_iff]
  split
  next hkind =>
    rw [bit_0_iff] at hkind
    rw [or_iff_left (whole_legal _)]
    omega
  next hkind =>
    rw [bit_0_iff] at hkind
    rw [exists_illegal_guard_whole, bits_7_1_eq_zero_iff]
    omega

end

/-! ### The illegal header words (R86) -/

/-- The fields of an illegal header word, as numbers: an opcode outside the table of R80, or what its format excludes. -/
def IllegalFields (op a b c : Nat) : Prop :=
  let z := [0x02, 0x10, 0x11, 0x13, 0x14, 0x15, 0x16, 0x21, 0x23, 0x25, 0x27, 0x29, 0x2B, 0x39]
  let f := [0x20, 0x22, 0x24, 0x26, 0x28, 0x2A]
  (op ∉ z ++ f ++ [0x04, 0x05, 0x06, 0x30] ++ [0x01, 0x31] ++ [0x03, 0x12, 0x32, 0x38]) ∨
  (op ∈ z ∧ (a ≠ 0 ∨ b ≠ 0 ∨ c ≠ 0)) ∨
  (op ∈ [0x04, 0x05, 0x06, 0x30] ∧ (a ≠ 0 ∨ b ≠ 0)) ∨
  (op ∈ f ∧ (a ≠ 0 ∨ b ≠ 0 ∨ 1 < c)) ∨
  (op = 0x03 ∧ 2 < a) ∨
  (op ∈ [0x12, 0x32] ∧ a ≠ 0) ∨
  (op = 0x38 ∧ (a ≠ 0 ∨ 1 < b ∨ (b = 0 ∧ 1 < c)))

/-- By the rows of the opcode table, grouped by their format. -/
theorem decodeHeader_illegal_iff (w : Word) :
    (∃ why, decodeHeader w = .illegal why) ↔
      IllegalFields (opField w).toNat (aField w).toNat (bField w).toNat (cField w).toNat := by
  unfold decodeHeader
  split
  case h_1 hop => simp [IllegalFields, hop, formatT_legal]
  case h_27 hop => simp [IllegalFields, hop]
  case h_2 hop | h_7 hop | h_8 hop | h_10 hop | h_11 hop | h_12 hop | h_13 hop | h_15 hop | h_17 hop | h_19 hop
      | h_21 hop | h_23 hop | h_25 hop | h_30 hop =>
    simp [IllegalFields, hop, formatZ_illegal_iff]
  case h_4 hop | h_5 hop | h_6 hop | h_26 hop => simp [IllegalFields, hop, formatB_illegal_iff]
  case h_14 hop | h_16 hop | h_18 hop | h_20 hop | h_22 hop | h_24 hop =>
    simp [IllegalFields, hop, formatF_illegal_iff]
  case h_3 hop => simp [IllegalFields, hop, formatW_illegal_iff]
  case h_9 hop => simp [IllegalFields, hop, formatRC_illegal_iff]
  case h_28 hop => simp [IllegalFields, hop, formatG_illegal_iff]
  case h_29 hop => simp [IllegalFields, hop, formatL_illegal_iff]
  case h_31 =>
    -- Every row of the table is excluded by a hypothesis of its own, so the opcode is none of the list.
    refine iff_of_true ⟨_, rfl⟩ (.inl ?_)
    simp_all [← BitVec.toNat_inj]

/-- Settles O4: each row of the opcode table finds illegal what its format excludes. -/
theorem illegalHeadersAreExactlyThese : Obligations.IllegalHeadersAreExactlyThese :=
  fun w => decodeHeader_illegal_iff w

/-! ### Words that are no whole request (R83, R86) -/

theorem decode_of_illegal {h : Word} {why : Illegal} (hh : decodeHeader h = .illegal why) (rest : List Word) :
    decode (h :: rest) = .illegal why rest := by
  simp only [decode, hh]

theorem decode_of_missingPayload {h : Word} {words : List Word} (hlegal : ∀ why, decodeHeader h ≠ .illegal why)
    (hlen : words.length < payloadWords h) : decode (h :: words) = .incomplete := by
  cases hh : decodeHeader h with
  | whole i => simp [payloadWords, hh] at hlen
  | illegal why => exact absurd hh (hlegal why)
  | print n | createChar location n =>
    simp only [payloadWords, hh] at hlen
    simp only [decode, hh, if_pos hlen]

end Sys2Proof

namespace Sys2Proof.Machine

section
variable {s : State} (hr : s.resetIn = none) (hi : s.initialized = true) (hb : s.busy = false)
include hr hi hb

theorem step_of_incomplete (hd : decode s.inbox = .incomplete) : step s = .next s := by
  simp only [step, hr, phaseOf_eq_idle hi hb, hd]

theorem step_of_illegal {why : Illegal} {rest : List Word} (hd : decode s.inbox = .illegal why rest) :
    step s = .next (takeException .invalidRequest (s.setInbox rest)) := by
  simp only [step, hr, phaseOf_eq_idle hi hb, hd]

end

/-- Settles O6: both inputs decode to nothing yet, and an idle block then waits. -/
theorem missingPayloadIsAwaited : Obligations.MissingPayloadIsAwaited := by
  intro s hr hi hb
  constructor
  · intro hin
    exact step_of_incomplete hr hi hb (by rw [hin, decode])
  · intro h words hin hlegal hlen
    exact step_of_incomplete hr hi hb (by rw [hin, decode_of_missingPayload hlegal hlen])

/-- Settles O7: the exception of an illegal word is its answer alone. -/
theorem illegalWordIsRefusedWithoutEffect : Obligations.IllegalWordIsRefusedWithoutEffect := by
  intro s h rest why hr hi hb hin hh
  have hanswer : response statusInvalidRequest 0 0 = 0x03000000 := by decide
  rw [step_of_illegal hr hi hb (by rw [hin, decode_of_illegal hh]), takeException, hanswer]
  rfl

/-! ### The response word (R84) and the answer of `BACKLIGHT.GET` (R171) -/

theorem getLsbD_response (status : Byte) (kind : BitVec 2) (value : Byte) (i : Nat) :
    (response status kind value).getLsbD i =
      if i < 8 then value.getLsbD i
      else if i < 10 then kind.getLsbD (i - 8)
      else if i < 24 then false
      else status.getLsbD (i - 24) := by
  have happend : (response status kind value).getLsbD i
      = BitVec.getLsbD (w := 8 + (14 + (2 + 8))) (status ++ (0#14 ++ (kind ++ value))) i := rfl
  rw [happend, BitVec.getLsbD_append, BitVec.getLsbD_append, BitVec.getLsbD_append, BitVec.getLsbD_zero]
  grind

/-- Settles O8, bit by bit for each field. -/
theorem responseWordFields : Obligations.ResponseWordFields := by
  intro status kind value
  refine ⟨?_, ?_, ?_, ?_⟩ <;>
  · refine BitVec.eq_of_getLsbD_eq fun i hi => ?_
    simp only [BitVec.getLsbD_extractLsb', getLsbD_response, BitVec.ofNat_eq_ofNat, BitVec.getLsbD_zero]
    grind

theorem responseBacklight_bool (b : Bool) : responseBacklight (some (.bool b)) = if b then 0x101 else 0x100 := by
  cases b <;> decide

theorem responseBacklight_int (n : Byte) : responseBacklight (some (.int n)) = 0x200 ||| n.setWidth 32 := by
  revert n
  decide

theorem exec_backlightGet (s : State) : exec .backlightGet s = .next (s.answered [] (responseBacklight s.blvl)) :=
  exec_eq_answered (i := .backlightGet) rfl fun k hk => absurd hk (Nat.not_lt_zero k)

/-- Settles O30: the request has no statement, so its answer is all it leaves; the answer by what `BLVL` holds. -/
theorem backlightGetRule : Obligations.BacklightGetRule := by
  refine ⟨decode_encode (i := .backlightGet) rfl, fun s => ?_⟩
  intro w
  have hanswer : responseBacklight s.blvl = w := by
    subst w
    split
    next hnone => rw [hnone]; decide
    next b hbool => rw [hbool, responseBacklight_bool]
    next n hint => rw [hint, responseBacklight_int]
  rw [exec_backlightGet, hanswer]

end Sys2Proof.Machine

/-! The answers of `Tio()` decide nothing but the sleeps (R110, R122); the timing enforcer (R100), and what the six
primitive requests leave (R104 to R109). -/

namespace Sys2Proof.Machine

/-! ### What the answers of `Tio()` leave alone -/

/-- A pin-port call, whether it succeeded or failed. -/
def Event.isPinEvent (e : Event) : Bool := e.isCall || e.isFail

/-- A sequence of events without its queries and its sleeps. -/
def pinEvents (es : List Event) : List Event := es.filter Event.isPinEvent

@[simp] theorem pinEvents_append (a b : List Event) : pinEvents (a ++ b) = pinEvents a ++ pinEvents b :=
  List.filter_append ..

@[simp] theorem pinEvents_delay (d t : Duration) : pinEvents (delayEvents d t) = [] := by
  unfold delayEvents; split <;> rfl

/-- The pin events of a statement list are the same whatever the answers. -/
theorem pinEvents_stmtsEvents (b : List Stmt) (t t' : Nat → Duration) :
    pinEvents (stmtsEvents b t) = pinEvents (stmtsEvents b t') := by
  induction b generalizing t t' with
  | nil => rfl
  | cons st rest ih =>
    have hst : pinEvents (st.events t) = pinEvents (st.events t') := by
      cases st with
      | delay d => simp only [Stmt.events, pinEvents_delay]
      | call _ | present _ | setDctrl _ | setEmode _ | setBlvl _ => rfl
    rw [stmtsEvents, stmtsEvents, pinEvents_append, pinEvents_append, hst, ih]

theorem pinEvents_requestEvents (i : Instr) (s : State) (t t' : Nat → Duration) :
    pinEvents (requestEvents i s t) = pinEvents (requestEvents i s t') := by
  simp only [← stmtsEvents_bodyOf]
  exact pinEvents_stmtsEvents _ t t'

theorem pinEvents_cutAtCall (k : Nat) (info : PortInfo) (es : List Event) :
    pinEvents (cutAtCall k info es) = cutAtCall k info (pinEvents es) := by
  induction es generalizing k with
  | nil => rfl
  | cons e rest ih =>
    cases e with
    | call c =>
      cases k with
      | zero => rfl
      | succ k => exact congrArg (Event.call c :: ·) (ih k)
    | tq t => exact ih k
    | sl d => exact ih k
    | fail c info' => exact congrArg (Event.fail c info' :: ·) (ih k)

/-- What happens at the pins is read off the pin events alone. -/
theorem pinCalls_pinEvents (es : List Event) : pinCalls (pinEvents es) = pinCalls es := by
  induction es with
  | nil => rfl
  | cons e rest ih =>
    cases e with
    | call c => exact congrArg (c :: ·) ih
    | tq _ | sl _ => exact ih
    | fail c _ => exact congrArg (c :: ·) ih

/-- `LVL` follows the pin events alone. -/
theorem Levels.replay_pinEvents (l : Levels) (es : List Event) : l.replay (pinEvents es) = l.replay es := by
  induction es generalizing l with
  | nil => rfl
  | cons e rest ih => cases e <;> exact ih _

theorem pinEvents_append_congr (a : List Event) {es es' : List Event} (h : pinEvents es = pinEvents es') :
    pinEvents (a ++ es) = pinEvents (a ++ es') := by
  rw [pinEvents_append, pinEvents_append, h]

theorem pinCalls_eq_of_pinEvents_eq {es es' : List Event} (h : pinEvents es = pinEvents es') :
    pinCalls es = pinCalls es' := by
  rw [← pinCalls_pinEvents es, h, pinCalls_pinEvents]

theorem Levels.replay_eq_of_pinEvents_eq {es es' : List Event} (h : pinEvents es = pinEvents es') (l : Levels) :
    l.replay es = l.replay es' := by
  rw [← Levels.replay_pinEvents l es, h, Levels.replay_pinEvents]

/-- The state with other answers to come. -/
def State.withAnswers (s : State) (answers : List Duration) (asked : Nat) : State :=
  { s with port := { s.port with tioNext := answers, tioAsked := asked } }

/-- Two states alike at the pins, in the registers, in the flags and in the responses. -/
structure State.Alike (t t' : State) : Prop where
  trace       : pinEvents t.trace = pinEvents t'.trace
  lvl         : t.lvl = t'.lvl
  dfunc       : t.dfunc = t'.dfunc
  dctrl       : t.dctrl = t'.dctrl
  emode       : t.emode = t'.emode
  blvl        : t.blvl = t'.blvl
  initialized : t.initialized = t'.initialized
  fault       : t.fault = t'.fault
  busy        : t.busy = t'.busy
  responses   : t.responses = t'.responses

section
variable (s : State) (answers : List Duration) (asked : Nat)

/-- A request does the same at the pins whatever the answers: the outcomes of its calls decide how it ends. -/
theorem exec_withAnswers (i : Instr) :
    ∃ t t', exec i s = .next t ∧ exec i (s.withAnswers answers asked) = .next t' ∧ t.Alike t' := by
  have hpins := pinEvents_requestEvents i s s.port.tioAt (s.withAnswers answers asked).port.tioAt
  rcases s.port.callsOk_or_fail (stmtsCalls (bodyOf i s)) with hok | ⟨k, info, hk, hok, hf⟩
  · exact ⟨_, _, exec_ok i s hok, exec_ok i (s.withAnswers answers asked) hok,
      pinEvents_append_congr s.trace hpins, Levels.replay_eq_of_pinEvents_eq hpins _,
      rfl, rfl, rfl, rfl, rfl, rfl, rfl, rfl⟩
  · obtain ⟨l, hexec⟩ := exec_fail i s k info hk hok hf
    obtain ⟨l', hexec'⟩ := exec_fail i (s.withAnswers answers asked) k info hk hok hf
    have hcut := congrArg (cutAtCall k info) hpins
    rw [← pinEvents_cutAtCall, ← pinEvents_cutAtCall] at hcut
    exact ⟨_, _, hexec, hexec', pinEvents_append_congr s.trace hcut, Levels.replay_eq_of_pinEvents_eq hcut _,
      rfl, rfl, rfl, rfl, rfl, rfl, rfl, rfl⟩

/-- Construction does the same at the pins whatever the answers: the same statements come before its first failing
call. -/
theorem constructPins_withAnswers (hi : s.initialized = false) :
    (constructPins s).Alike (constructPins (s.withAnswers answers asked)) := by
  have hpins := fun b => pinEvents_stmtsEvents b s.port.tioAt (s.withAnswers answers asked).port.tioAt
  rcases s.port.callsOk_or_fail (stmtsCalls (constructBody s.cfg s.dfunc)) with hok | ⟨k, info, hk, hok, hf⟩
  · have hwhole := hpins (constructBody s.cfg s.dfunc)
    rw [stmtsEvents_construct, stmtsEvents_construct] at hwhole
    rw [constructPins_ok s hok, constructPins_ok (s.withAnswers answers asked) hok]
    exact ⟨pinEvents_append_congr s.trace hwhole, Levels.replay_eq_of_pinEvents_eq hwhole _,
      rfl, rfl, rfl, rfl, rfl, rfl, rfl, rfl⟩
  · obtain ⟨pre, c, post, l, hb, hc, hend⟩ := constructPins_fail_at s k info hi hk hok hf
    obtain ⟨pre', c', post', l', hb', hc', hend'⟩ :=
      constructPins_fail_at (s.withAnswers answers asked) k info hi hk hok hf
    obtain ⟨rfl, rfl⟩ := call_split_unique (hb.symm.trans hb') (hc.trans hc'.symm)
    have hcut : pinEvents (stmtsEvents pre s.port.tioAt ++ [.fail c info]) =
        pinEvents (stmtsEvents pre (s.withAnswers answers asked).port.tioAt ++ [.fail c info]) := by
      rw [pinEvents_append, pinEvents_append, hpins]
    rw [hend, hend']
    exact ⟨pinEvents_append_congr s.trace hcut, Levels.replay_eq_of_pinEvents_eq hcut _,
      rfl, rfl, rfl, rfl, rfl, rfl, rfl, rfl⟩

theorem construct_withAnswers (hi : s.initialized = false) {t : State} (h : construct s = .next t) :
    ∃ t', construct (s.withAnswers answers asked) = .next t' ∧ t.Alike t' := by
  unfold construct at h
  split at h
  next hcount =>
    obtain rfl := Host.Outcome.next.inj h
    exact ⟨_, if_pos hcount, rfl, rfl, rfl, rfl, rfl, rfl, rfl, rfl, rfl, rfl⟩
  next hcount =>
    split at h
    next hdistinct =>
      obtain rfl := Host.Outcome.next.inj h
      exact ⟨_, (if_neg hcount).trans (if_pos hdistinct),
        constructPins_withAnswers (s.setDfunc (dfuncOf s.cfg)) answers asked hi⟩
    next => cases h

end

/-- Settles O46: requests by `exec_withAnswers`, and the step of a block at reset is construction. -/
theorem answersNeverReachThePins : Obligations.AnswersNeverReachThePins := by
  refine ⟨fun i s answers asked => ?_, fun cfg port inbox answers asked t h => ?_⟩
  · obtain ⟨t, t', h, h', halike⟩ := exec_withAnswers s answers asked i
    obtain ⟨es, hes, -⟩ := exec_traceGrows h
    obtain ⟨es', hes', -⟩ := exec_traceGrows h'
    have hpins : pinEvents s.trace ++ pinEvents es = pinEvents s.trace ++ pinEvents es' := by
      rw [← pinEvents_append, ← pinEvents_append, ← hes, halike.trace, hes']; rfl
    exact ⟨t, t', es, es', h, h', hes, hes', pinCalls_eq_of_pinEvents_eq (List.append_cancel_left hpins), halike.lvl,
      halike.dctrl, halike.emode, halike.blvl, halike.fault, halike.busy, halike.responses⟩
  · obtain ⟨t', h', halike⟩ := construct_withAnswers (State.atReset cfg port inbox) answers asked rfl h
    exact ⟨t', h', pinCalls_eq_of_pinEvents_eq halike.trace, halike.lvl, halike.dfunc, halike.dctrl, halike.emode,
      halike.blvl, halike.initialized, halike.fault, halike.busy, halike.responses⟩

/-! ### The timing enforcer -/

theorem Duration.minus_us (d t : Duration) : (d.minus t).us = max 0 (d.us - t.us) := rfl

theorem Duration.minus_us_of_shorter {d t : Duration} (h : t.shorter d) : (d.minus t).us = d.us - t.us :=
  max_eq_right (sub_nonneg.mpr (le_of_lt h))

theorem delayEvents_of_shorter {d t : Duration} (h : t.shorter d) : delayEvents d t = [.tq t, .sl (d.minus t)] := by
  rw [delayEvents, if_pos h]

theorem delayEvents_of_not_shorter {d t : Duration} (h : ¬ t.shorter d) : delayEvents d t = [.tq t] := by
  rw [delayEvents, if_neg h]

/-- A wait sleeps what is left of its floor after the answer (R100). -/
theorem sleptUs_delay (d t : Duration) : sleptUs (delayEvents d t) = max 0 (d.us - t.us) := by
  by_cases h : t.shorter d
  · rw [delayEvents_of_shorter h, ← Duration.minus_us]
    simp [sleptUs]
  · rw [delayEvents_of_not_shorter h, max_eq_left (sub_nonpos.mpr (not_lt.mp h))]
    simp [sleptUs]

theorem doDelay_trace (d : Duration) (s : State) :
    (doDelay d s).trace = s.trace ++ delayEvents d (s.port.tioAt 0) := by
  obtain ⟨l, -, hl⟩ := doDelay_eq d s
  rw [hl]
  rfl

/-- Settles O9, by whether the answer is below the floor; all else is `doDelay_eq`. -/
theorem timingEnforcer : Obligations.TimingEnforcer := by
  intro d s t
  refine ⟨fun h => ⟨?_, Duration.minus_us_of_shorter h⟩, fun h => ?_, sleptUs_delay d t, ?_⟩
  · rw [doDelay_trace, delayEvents_of_shorter h]
  · rw [doDelay_trace, delayEvents_of_not_shorter (not_lt.mpr h)]
  · obtain ⟨l, -, hl⟩ := doDelay_eq d s
    exact ⟨l, by rw [hl]; rfl⟩

/-! ### The six primitive requests -/

/-- Settles O10: one wait, and no call that could fail. -/
theorem delayRule : Obligations.DelayRule :=
  ⟨fun d rest hd => decode_encode (i := .delay d) (decide_eq_true hd) rest,
    fun _ _ => exec_eq_answered rfl fun k hk => absurd hk (Nat.not_lt_zero k)⟩

/-- A pulse writes `EN` high, then low (R101). -/
theorem Levels.replay_pulse (l : Levels) (c : Config) (t : Duration) :
    l.replay (pulseEvents c t) = (l.set c.pins.en true).set c.pins.en false := by
  simp only [pulseEvents, Levels.replay_call, Levels.replay_append, Levels.replay_delay, Levels.replay_nil]
  rfl

/-- Settles O11: two calls, both to `EN`, of which the second writes it low. -/
theorem pulseRule : Obligations.PulseRule := by
  refine ⟨decode_encode (i := .pulse) rfl, fun s hok => ?_, fun s => stopsAtFailingCall rfl⟩
  refine ⟨_, exec_eq_answered rfl hok, rfl, ?_, fun p hp => ?_⟩
  all_goals
    show (s.lvl.replay (pulseEvents s.cfg (s.port.tioAt 0))).read _ = _
    rw [Levels.replay_pulse, Levels.read_set]
  · exact if_pos rfl
  · rw [if_neg hp, Levels.read_set, if_neg hp]

/-- Settles O13: three calls, a frame of `width` bits. -/
theorem wrBitsRule : Obligations.WrBitsRule := by
  refine ⟨fun value width mode rest hw => ?_, fun _ _ _ _ hok => exec_eq_answered rfl hok,
    fun _ _ _ _ => stopsAtFailingCall rfl⟩
  have hdecode := decode_encode (i := .wrBits value width mode) (decide_eq_true hw) rest
  cases mode <;> exact hdecode

/-- Settles O14: a frame has three calls, `SEND.RAW4` one frame and the other two requests two. -/
theorem sendRules : Obligations.SendRules := by
  refine ⟨fun byte => decode_encode (i := .sendRaw4 byte) rfl, fun byte => decode_encode (i := .sendCmd byte) rfl,
    fun byte => decode_encode (i := .sendData byte) rfl, fun byte s hok => ?_, fun byte s hok => ?_,
    fun byte s hok => ?_, fun byte s => ⟨stopsAtFailingCall rfl, stopsAtFailingCall rfl, stopsAtFailingCall rfl⟩⟩
  · exact exec_eq_answered (i := .sendRaw4 byte) (regFree_send s.cfg byte .raw4) hok
  · exact exec_eq_answered (i := .sendCmd byte) (regFree_send s.cfg byte .cmd) hok
  · exact exec_eq_answered (i := .sendData byte) (regFree_send s.cfg byte .data) hok

end Sys2Proof.Machine

/-! Construction and initialisation: the pin-count check that kills the block, and the whole state a good port leaves
(R120, R121, R180). -/

namespace Sys2Proof.Machine

section
variable {s : State}

theorem phaseOf_eq_constructing (hi : s.initialized = false) (hb : s.busy = true) (hf : s.fault = .none) :
    phaseOf s = .constructing := by
  simp [phaseOf, hi, hb, hf]

theorem step_of_constructing (hr : s.resetIn = none) (hp : phaseOf s = .constructing) : step s = construct s := by
  simp [step, hr, hp]

/-- A block that is not initialised and holds a `fault` is dead, whatever `busy` is (R180, R181). -/
theorem phaseOf_eq_dead_of_fault (hi : s.initialized = false) (hf : s.fault ≠ .none) : phaseOf s = .dead :=
  (phaseOf_eq_dead_iff s).mpr
    ⟨fun h => absurd (hi.symm.trans h.1) nofun, fun ⟨_, _, hnone⟩ => hf hnone⟩

theorem construct_of_pinCount (h4 : s.cfg.pins.nData ≠ 4) (h8 : s.cfg.pins.nData ≠ 8) :
    construct s = .next { s with fault := .invalidConfiguration } :=
  if_pos ⟨h4, h8⟩

end

/-- Settles O34: the step is construction, which ends at its pin-count check, and with its `fault` set the block is dead
whatever words are presented. -/
theorem invalidConfigurationKillsTheBlock : Obligations.InvalidConfigurationKillsTheBlock := by
  intro s hr hi hb hf h4 h8
  refine ⟨?_, fun words => step_of_dead hr (phaseOf_eq_dead_of_fault hi nofun)⟩
  rw [step_of_constructing hr (phaseOf_eq_constructing hi hb hf), construct_of_pinCount h4 h8]

/-- Settles O35: the step at reset is the rest of construction, and `constructPins_ok` says what that leaves; only `BLVL`,
by whether there is a backlight pin, and the number of calls are left to compare. -/
theorem initialisationCompletes : Obligations.InitialisationCompletes := by
  intro cfg port inbox s p es calls hcount hdistinct hok
  have hcalls : stmtsCalls (constructBody cfg s.dfunc) = calls := stmtsCalls_construct cfg s.dfunc
  have hstep : step s = .next (constructPins s) := step_atReset cfg port inbox hcount hdistinct
  rw [hstep, constructPins_ok s (hcalls.symm ▸ hok)]
  congr 2
  · show (if cfg.pins.bl.isSome then some cfg.blDefault else none) = _
    cases cfg.pins.bl <;> rfl
  · exact congrArg (port.after 25) hcalls

end Sys2Proof.Machine

/-! The display commands (R130 to R136): requests that send command bytes, and what of a request decides how it ends. -/

namespace Sys2Proof.Machine

section
variable {s : State}

/-- A request that sends one byte and returns nothing (R103). -/
theorem exec_of_bodyOf_eq_send {i : Instr} {byte : Byte} {mode : Mode} (hbody : bodyOf i s = send s.cfg byte mode)
    (hanswer : answerOf i s = responseOk) (hok : s.port.callsOk (stmtsCalls (send s.cfg byte mode))) :
    exec i s = .next (s.answered (sendEvents s.cfg byte mode s.port.tioAt) responseOk) := by
  rw [exec_eq_answered (hbody ▸ regFree_send s.cfg byte mode) (hbody ▸ hok), hanswer, ← stmtsEvents_bodyOf, hbody,
    stmtsEvents_send]

/-- In an initialised block, two requests of the same statements and the same answer end alike: what tells them apart,
the request held in `REQ`, is gone at their end. -/
theorem exec_eq_of_bodyOf_eq {i j : Instr} (hi : s.initialized = true) (hbody : bodyOf i s = bodyOf j s)
    (hanswer : answerOf i s = answerOf j s) : exec i s = exec j s := by
  have hevents : requestEvents i s s.port.tioAt = requestEvents j s s.port.tioAt := by
    rw [← stmtsEvents_bodyOf, hbody, stmtsEvents_bodyOf]
  rcases s.port.callsOk_or_fail (stmtsCalls (bodyOf j s)) with hok | ⟨k, info, hk, hok, hf⟩
  · rw [exec_ok i s (hbody ▸ hok), exec_ok j s hok, hevents, hbody, hanswer]
  · obtain ⟨l, hl⟩ := exec_fail i s k info (hbody ▸ hk) hok hf
    obtain ⟨l', hl'⟩ := exec_fail j s k info hk hok hf
    rw [hl, hl', hevents, if_pos hi, if_pos hi]

end

/-- Settles O16: one command byte, 6 calls and 3 queries, and a wait with the query after them. -/
theorem clearAndHomeRules : Obligations.ClearAndHomeRules :=
  ⟨decode_encode (i := .clear) rfl, decode_encode (i := .home) rfl,
    fun _ hok => exec_eq_answered (i := .clear) rfl hok, fun _ hok => exec_eq_answered (i := .home) rfl hok,
    fun _ => ⟨stopsAtFailingCall rfl, stopsAtFailingCall rfl⟩, rfl, rfl⟩

/-- A row out of range sends the command of the last row (R59, R132). -/
theorem ddramCommand_of_rows_le {c : Config} {row : Nat} (h : c.geom.rows ≤ row) (col : Nat) :
    ddramCommand c row col = ddramCommand c (c.geom.rows - 1) col :=
  (cursorAddress c row col).2 h

/-- Settles O18: one command byte; a row out of range and the last row have the same statements. -/
theorem setCursorRule : Obligations.SetCursorRule := by
  refine ⟨fun row col rest hrow hcol => ?_, fun row col s hok => exec_of_bodyOf_eq_send rfl rfl hok,
    fun row col s hi hrows => ?_, fun row col s => stopsAtFailingCall rfl⟩
  · exact decode_encode (i := .setCursor row col)
      (Bool.and_eq_true_iff.mpr ⟨decide_eq_true hrow, decide_eq_true hcol⟩) rest
  · have hbody : bodyOf (.setCursor row col) s = bodyOf (.setCursor (s.cfg.geom.rows - 1) col) s :=
      congrArg (send s.cfg · .cmd) (ddramCommand_of_rows_le hrows col)
    exact exec_eq_of_bodyOf_eq hi hbody rfl

/-- Settles O19: each shift sends one command byte, which the default constants make the byte named. -/
theorem shiftRules : Obligations.ShiftRules := by
  refine ⟨fun rest => ⟨decode_encode (i := .scrollL) rfl rest, decode_encode (i := .scrollR) rfl rest,
    decode_encode (i := .curMoveL) rfl rest, decode_encode (i := .curMoveR) rfl rest⟩, fun s hok => ?_,
    fun s => ⟨stopsAtFailingCall rfl, stopsAtFailingCall rfl, stopsAtFailingCall rfl, stopsAtFailingCall rfl⟩⟩
  intro p sent
  have hscrollL : exec .scrollL s = sent (p.cmdCursorShift ||| p.fDisplayMove) := exec_of_bodyOf_eq_send rfl rfl hok
  have hscrollR : exec .scrollR s = sent (p.cmdCursorShift ||| p.fDisplayMove ||| p.fMoveRight) :=
    exec_of_bodyOf_eq_send rfl rfl hok
  have hcurMoveL : exec .curMoveL s = sent p.cmdCursorShift := exec_of_bodyOf_eq_send rfl rfl hok
  have hcurMoveR : exec .curMoveR s = sent (p.cmdCursorShift ||| p.fMoveRight) := exec_of_bodyOf_eq_send rfl rfl hok
  refine ⟨hscrollL, hscrollR, hcurMoveL, hcurMoveR, fun hp => ?_⟩
  rw [hscrollL, hscrollR, hcurMoveL, hcurMoveR, hp]
  exact ⟨rfl, rfl, rfl, rfl⟩

end Sys2Proof.Machine

/-! The mode registers (R139 to R151): what a setter of a flag leaves, what a getter answers, and a getter after a
setter. -/

namespace Sys2Proof.Machine

/-! ### The flags of a register (R139) -/

theorem getFlag_twoPow (r : Byte) (k : Nat) : getFlag r (BitVec.twoPow 8 k) = r.getLsbD k := by
  rw [getFlag, BitVec.and_twoPow]
  cases hbit : r.getLsbD k with
  | false => rfl
  | true =>
    have hk : k < 8 := BitVec.lt_of_getLsbD hbit
    refine bne_iff_ne.mpr fun hzero => ?_
    have hset := congrArg (·.getLsbD k) hzero
    simp [hk] at hset

theorem getLsbD_setFlag (r f : Byte) (on : Bool) (k : Nat) :
    (setFlag r f on).getLsbD k = if f.getLsbD k then on else r.getLsbD k := by
  cases on with
  | true =>
    show (r ||| f).getLsbD k = _
    rw [BitVec.getLsbD_or]
    cases f.getLsbD k <;> simp
  | false =>
    show (r &&& ~~~f).getLsbD k = _
    rw [BitVec.getLsbD_and, BitVec.getLsbD_not]
    cases hf : f.getLsbD k with
    | true => simp
    | false => simpa using BitVec.lt_of_getLsbD

theorem responseFlag_eq (b : Bool) : responseFlag b = if b then 1 else 0 := by
  cases b <;> rfl

theorem responseFlag_getFlag (r f : Byte) : responseFlag (getFlag r f) = if r &&& f = 0 then 0 else 1 := by
  by_cases h : r &&& f = 0 <;> simp [responseFlag_eq, getFlag, h]

theorem responseFlag_not_getFlag (r f : Byte) : responseFlag (!getFlag r f) = if r &&& f = 0 then 1 else 0 := by
  by_cases h : r &&& f = 0 <;> simp [responseFlag_eq, getFlag, h]

/-! ### Setters and getters as requests -/

section
variable {i : Instr} {s : State} {f : Byte} {on : Bool}

theorem stmtsCalls_setDctrlBody : stmtsCalls (setDctrlBody s f on) = 6 := rfl

theorem stmtsCalls_setEmodeBody : stmtsCalls (setEmodeBody s f on) = 6 := rfl

/-- A setter of a flag of `DCTRL` sends the new value in its command byte and writes the register (R139). -/
theorem exec_of_bodyOf_eq_setDctrlBody (hbody : bodyOf i s = setDctrlBody s f on) (hanswer : answerOf i s = responseOk)
    (hok : s.port.callsOk 6) :
    exec i s = .next { s.answered
      (sendEvents s.cfg (s.cfg.proto.cmdDisplayControl ||| setFlag s.dctrl f on) .cmd s.port.tioAt) responseOk with
        dctrl := setFlag s.dctrl f on } := by
  rw [exec_ok i s (hbody ▸ stmtsCalls_setDctrlBody ▸ hok), ← stmtsEvents_bodyOf, hbody, hanswer,
    stmtsEvents_setDctrlBody, stmtsDctrl_setDctrlBody, stmtsEmode_setDctrlBody, stmtsBlvl_setDctrlBody]
  rfl

/-- A setter of a flag of `EMODE` sends the new value in its command byte and writes the register (R139). -/
theorem exec_of_bodyOf_eq_setEmodeBody (hbody : bodyOf i s = setEmodeBody s f on) (hanswer : answerOf i s = responseOk)
    (hok : s.port.callsOk 6) :
    exec i s = .next { s.answered
      (sendEvents s.cfg (s.cfg.proto.cmdEntryModeSet ||| setFlag s.emode f on) .cmd s.port.tioAt) responseOk with
        emode := setFlag s.emode f on } := by
  rw [exec_ok i s (hbody ▸ stmtsCalls_setEmodeBody ▸ hok), ← stmtsEvents_bodyOf, hbody, hanswer,
    stmtsEvents_setEmodeBody, stmtsDctrl_setEmodeBody, stmtsEmode_setEmodeBody, stmtsBlvl_setEmodeBody]
  rfl

/-- A request without statements leaves its answer and nothing else. -/
theorem exec_of_bodyOf_eq_nil (hbody : bodyOf i s = []) : exec i s = .next (s.answered [] (answerOf i s)) := by
  have hok : s.port.callsOk (stmtsCalls (bodyOf i s)) := hbody ▸ fun k hk => absurd hk (Nat.not_lt_zero k)
  rw [exec_eq_answered (hbody ▸ rfl) hok, ← stmtsEvents_bodyOf, hbody]
  rfl

end

/-- Settles O20: each setter is `set_flag` on `DCTRL`, with the 6 calls of one command byte. -/
theorem displayControlSetters : Obligations.DisplayControlSetters := by
  refine ⟨fun on rest => ?_, fun on s hok => ?_,
    fun on s => ⟨stopsAtFailingCall rfl, stopsAtFailingCall rfl, stopsAtFailingCall rfl⟩⟩
  · have hdisplay := decode_encode (i := .displaySet on) rfl rest
    have hcursor := decode_encode (i := .cursorSet on) rfl rest
    have hblink := decode_encode (i := .blinkSet on) rfl rest
    cases on <;> exact ⟨hdisplay, hcursor, hblink⟩
  · exact ⟨exec_of_bodyOf_eq_setDctrlBody rfl rfl hok, exec_of_bodyOf_eq_setDctrlBody rfl rfl hok,
      exec_of_bodyOf_eq_setDctrlBody rfl rfl hok⟩

/-- Settles O21: each setter is `set_flag` on `EMODE`, with the 6 calls of one command byte. -/
theorem entryModeSetters : Obligations.EntryModeSetters := by
  refine ⟨fun on rest => ?_, fun on s hok => ?_,
    fun on s => ⟨stopsAtFailingCall rfl, stopsAtFailingCall rfl, stopsAtFailingCall rfl⟩⟩
  · have hltr := decode_encode (i := .ltrSet on) rfl rest
    have hrtl := decode_encode (i := .rtlSet on) rfl rest
    have hautoscroll := decode_encode (i := .autoscrollSet on) rfl rest
    cases on <;> exact ⟨hltr, hrtl, hautoscroll⟩
  · exact ⟨exec_of_bodyOf_eq_setEmodeBody rfl rfl hok, exec_of_bodyOf_eq_setEmodeBody rfl rfl hok,
      exec_of_bodyOf_eq_setEmodeBody rfl rfl hok⟩

/-- Settles O22: a getter has no statements, and answers by its flag. -/
theorem flagGetters : Obligations.FlagGetters := by
  refine ⟨fun rest => ⟨decode_encode (i := .displayGet) rfl rest, decode_encode (i := .cursorGet) rfl rest,
    decode_encode (i := .blinkGet) rfl rest, decode_encode (i := .ltrGet) rfl rest,
    decode_encode (i := .rtlGet) rfl rest, decode_encode (i := .autoscrollGet) rfl rest⟩, fun s => ?_⟩
  intro p answer
  have hget : ∀ {i : Instr} {r f : Byte}, bodyOf i s = [] → answerOf i s = responseFlag (getFlag r f) →
      exec i s = answer r f 1 0 := fun hbody hanswer => by
    rw [exec_of_bodyOf_eq_nil hbody, hanswer, responseFlag_getFlag]
  have hrtl : exec .rtlGet s = answer s.emode p.fEntryLeft 0 1 := by
    rw [exec_of_bodyOf_eq_nil rfl, answerOf, responseFlag_not_getFlag]
  exact ⟨hget rfl rfl, hget rfl rfl, hget rfl rfl, hget rfl rfl, hrtl, hget rfl rfl⟩

/-! ### A getter after a setter -/

/-- The request has no statements and answers `view` of the state, with the default constants (R7). -/
def AnswersView (get : Instr) (view : State → Bool) : Prop :=
  ∀ t : State, t.cfg.proto = defaultProto → bodyOf get t = [] ∧ answerOf get t = responseFlag (view t)

theorem answersView_displayGet : AnswersView .displayGet (·.dctrl.getLsbD 2) :=
  fun t h => ⟨rfl, congrArg responseFlag (h ▸ getFlag_twoPow t.dctrl 2)⟩

theorem answersView_cursorGet : AnswersView .cursorGet (·.dctrl.getLsbD 1) :=
  fun t h => ⟨rfl, congrArg responseFlag (h ▸ getFlag_twoPow t.dctrl 1)⟩

theorem answersView_blinkGet : AnswersView .blinkGet (·.dctrl.getLsbD 0) :=
  fun t h => ⟨rfl, congrArg responseFlag (h ▸ getFlag_twoPow t.dctrl 0)⟩

theorem answersView_ltrGet : AnswersView .ltrGet (·.emode.getLsbD 1) :=
  fun t h => ⟨rfl, congrArg responseFlag (h ▸ getFlag_twoPow t.emode 1)⟩

theorem answersView_rtlGet : AnswersView .rtlGet (!·.emode.getLsbD 1) :=
  fun t h => ⟨rfl, congrArg (responseFlag !·) (h ▸ getFlag_twoPow t.emode 1)⟩

theorem answersView_autoscrollGet : AnswersView .autoscrollGet (·.emode.getLsbD 0) :=
  fun t h => ⟨rfl, congrArg responseFlag (h ▸ getFlag_twoPow t.emode 0)⟩

section
variable {s : State} {set : Instr} {f : Byte} {on : Bool}

theorem getLsbD_dctrl_requestDone (hbody : bodyOf set s = setDctrlBody s f on) (k : Nat) :
    (requestDone set s).dctrl.getLsbD k = if f.getLsbD k then on else s.dctrl.getLsbD k := by
  rw [requestDone, hbody, stmtsDctrl_setDctrlBody, getLsbD_setFlag]

theorem getLsbD_emode_requestDone (hbody : bodyOf set s = setEmodeBody s f on) (k : Nat) :
    (requestDone set s).emode.getLsbD k = if f.getLsbD k then on else s.emode.getLsbD k := by
  rw [requestDone, hbody, stmtsEmode_setEmodeBody, getLsbD_setFlag]

end

/-- In `s`, `set` and then `get` end well, the first with nothing to answer and the second with `answer`. -/
def State.AnswersAfter (s : State) (set get : Instr) (answer : Bool) : Prop :=
  ∃ t u, exec set s = .next t ∧ exec get t = .next u ∧
    u.responses = s.responses ++ [0x00000000, if answer then 0x00000001 else 0x00000000]

section
variable {s : State} {set : Instr} {f : Byte} {on : Bool} (hproto : s.cfg.proto = defaultProto)
  (hok : s.port.callsOk 6) (hset : answerOf set s = responseOk)
include hproto hok hset

/-- A getter answers its view of the state that the request before it left. -/
theorem answersAfter_of_view {get : Instr} {view : State → Bool} {answer : Bool}
    (hcalls : stmtsCalls (bodyOf set s) = 6) (hget : AnswersView get view) (hview : view (requestDone set s) = answer) :
    s.AnswersAfter set get answer := by
  obtain ⟨hbody, hanswer⟩ := hget (requestDone set s) hproto
  refine ⟨requestDone set s, _, exec_ok set s (hcalls ▸ hok), exec_of_bodyOf_eq_nil hbody, ?_⟩
  rw [hanswer, hview, responseFlag_eq]
  show s.responses ++ [answerOf set s] ++ _ = _
  rw [hset, List.append_assoc]
  rfl

/-- After a setter of a flag of `DCTRL` the getters answer `on` for that flag and the old bit for any other. -/
theorem answersAfter_setDctrlBody (hbody : bodyOf set s = setDctrlBody s f on) :
    s.AnswersAfter set .displayGet (if f.getLsbD 2 then on else s.dctrl.getLsbD 2) ∧
    s.AnswersAfter set .cursorGet (if f.getLsbD 1 then on else s.dctrl.getLsbD 1) ∧
    s.AnswersAfter set .blinkGet (if f.getLsbD 0 then on else s.dctrl.getLsbD 0) := by
  have hcalls : stmtsCalls (bodyOf set s) = 6 := hbody ▸ stmtsCalls_setDctrlBody
  have hbit := getLsbD_dctrl_requestDone hbody
  exact ⟨answersAfter_of_view hproto hok hset hcalls answersView_displayGet (hbit 2),
    answersAfter_of_view hproto hok hset hcalls answersView_cursorGet (hbit 1),
    answersAfter_of_view hproto hok hset hcalls answersView_blinkGet (hbit 0)⟩

/-- After a setter of a flag of `EMODE` the getters answer `on` for that flag and the old bit for any other, `RTL.GET`
the negation of `LTR.GET`. -/
theorem answersAfter_setEmodeBody (hbody : bodyOf set s = setEmodeBody s f on) :
    s.AnswersAfter set .ltrGet (if f.getLsbD 1 then on else s.emode.getLsbD 1) ∧
    s.AnswersAfter set .rtlGet (!if f.getLsbD 1 then on else s.emode.getLsbD 1) ∧
    s.AnswersAfter set .autoscrollGet (if f.getLsbD 0 then on else s.emode.getLsbD 0) := by
  have hcalls : stmtsCalls (bodyOf set s) = 6 := hbody ▸ stmtsCalls_setEmodeBody
  have hbit := getLsbD_emode_requestDone hbody
  exact ⟨answersAfter_of_view hproto hok hset hcalls answersView_ltrGet (hbit 1),
    answersAfter_of_view hproto hok hset hcalls answersView_rtlGet (congrArg not (hbit 1)),
    answersAfter_of_view hproto hok hset hcalls answersView_autoscrollGet (hbit 0)⟩

end

/-- Settles O23: the default constants say which bit each setter sets, and the getters answer by bit. -/
theorem setThenGet : Obligations.SetThenGet := by
  intro on s hproto hok after
  -- `after` under its own name, so that `simp` leaves it folded
  have hafter : after = s.AnswersAfter := rfl
  clear_value after
  subst hafter
  refine ⟨?_, ?_, ?_, ?_, ?_, ?_⟩
  · simpa [hproto, defaultProto] using answersAfter_setDctrlBody (set := .displaySet on) hproto hok rfl rfl
  · simpa [hproto, defaultProto] using answersAfter_setDctrlBody (set := .cursorSet on) hproto hok rfl rfl
  · simpa [hproto, defaultProto] using answersAfter_setDctrlBody (set := .blinkSet on) hproto hok rfl rfl
  · simpa [hproto, defaultProto] using answersAfter_setEmodeBody (set := .ltrSet on) hproto hok rfl rfl
  · simpa [hproto, defaultProto] using answersAfter_setEmodeBody (set := .rtlSet on) hproto hok rfl rfl
  · simpa [hproto, defaultProto] using answersAfter_setEmodeBody (set := .autoscrollSet on) hproto hok rfl rfl

end Sys2Proof.Machine

/-! Character data (R160, R161): `WRITE` is one data byte, `PRINT` one for each code point. -/

namespace Sys2Proof.Machine

/-- Settles O25: the request sends one byte in DATA mode, with its 6 calls. -/
theorem writeRule : Obligations.WriteRule :=
  ⟨fun byte rest => decode_encode (i := .write byte) rfl rest,
    fun byte _ hok => exec_of_bodyOf_eq_send (i := .write byte) rfl rfl hok, fun _ _ => stopsAtFailingCall rfl⟩

theorem stmtsCalls_print (c : Config) (text : List Word) : stmtsCalls (printBody c text) = 6 * text.length := by
  induction text with
  | nil => rfl
  | cons cp rest ih =>
    rw [printBody, List.flatMap_cons, stmtsCalls_append, stmtsCalls_data, ← printBody, ih, List.length_cons]
    omega

/-- The bytes of a text by their index: byte `j` has queries `3 * j` to `3 * j + 2` (R161). -/
theorem printEvents_eq_flatMap (c : Config) (text : List Word) (t : Nat → Duration) :
    printEvents c text t = (List.range text.length).flatMap fun j =>
      sendEvents c ((text.getD j 0).setWidth 8) .data fun k => t (3 * j + k) := by
  induction text generalizing t with
  | nil => rfl
  | cons cp rest ih =>
    rw [printEvents, ih, List.length_cons, List.range_succ_eq_map, List.flatMap_cons, List.flatMap_map]
    simp only [List.getD_cons_zero, List.getD_cons_succ, Nat.mul_zero, Nat.zero_add, Nat.mul_succ, Nat.add_right_comm]

/-- Settles O26: the events of `printEvents` with the bytes of the text by their index, and 6 calls for each byte. -/
theorem printRule : Obligations.PrintRule := by
  refine ⟨decode_print, fun text s hok => ?_, fun text s => stopsAtFailingCall (stmtsCalls_print s.cfg text)⟩
  rw [← printEvents_eq_flatMap]
  exact exec_eq_answered (i := .print text) (regFree_print s.cfg text) (stmtsCalls_print s.cfg text ▸ hok)

end Sys2Proof.Machine

/-! Setting the backlight (R170): one analog write and `BLVL`, or nothing without a backlight pin. -/

namespace Sys2Proof.Machine

theorem backlightBody_of_some {c : Config} {bl : PinId} (h : c.pins.bl = some bl) (value : Backlight) :
    backlightBody c value = [.call (.analog bl value), .setBlvl value] := by
  rw [backlightBody, h]

theorem backlightBody_of_none {c : Config} (h : c.pins.bl = none) (value : Backlight) : backlightBody c value = [] := by
  rw [backlightBody, h]

theorem decode_backlightSet_bool (b : Bool) (rest : List Word) :
    decode (header 0x38 0 0 (if b then 1 else 0) :: rest) = .accepted (.backlightSet (.bool b)) rest := by
  have h := decode_encode (i := .backlightSet (.bool b)) rfl rest
  cases b <;> exact h

section
variable {s : State} {bl : PinId} (hbl : s.cfg.pins.bl = some bl) (value : Backlight)
include hbl

theorem stmtsCalls_backlightSet_of_some : stmtsCalls (bodyOf (.backlightSet value) s) = 1 := by
  rw [bodyOf, backlightBody_of_some hbl]
  rfl

/-- With a backlight pin the request makes its one analog write and `BLVL` holds the value. -/
theorem exec_backlightSet_of_some (hok : s.port.callsOk 1) :
    exec (.backlightSet value) s =
      .next { s.answered [.call (.analog bl value)] responseOk with blvl := some value } := by
  have hbody : bodyOf (.backlightSet value) s = [.call (.analog bl value), .setBlvl value] :=
    backlightBody_of_some hbl value
  rw [exec_ok _ s (stmtsCalls_backlightSet_of_some hbl value ▸ hok), ← stmtsEvents_bodyOf, hbody]
  rfl

end

/-- Settles O29: by whether there is a backlight pin the request has two statements, one of them a call, or none. -/
theorem backlightSetRule : Obligations.BacklightSetRule :=
  ⟨decode_backlightSet_bool, fun n => decode_encode (i := .backlightSet (.int n)) rfl,
    fun value _ _ hbl hok => exec_backlightSet_of_some hbl value hok,
    fun value _ hnone => exec_of_bodyOf_eq_nil (i := .backlightSet value) (backlightBody_of_none hnone value),
    fun value _ _ hbl => stopsAtFailingCall (stmtsCalls_backlightSet_of_some hbl value)⟩

end Sys2Proof.Machine

/-! `IoFailure` (R181, R183): what a failing call leaves, in construction and in every request, and which requests can
raise it. -/

namespace Sys2Proof.Machine

/-- Settles O38: at reset no request is held in `REQ`, so nothing is answered; `fault` is set and `initialized` stays 0,
so the block is dead whatever words are presented. -/
theorem initialisationStopsAtFailingCall : Obligations.InitialisationStopsAtFailingCall := by
  intro cfg port inbox k info s hcount hdistinct hk hok hf
  have hcalls : k < stmtsCalls (constructBody cfg s.dfunc) := stmtsCalls_construct cfg s.dfunc ▸ hk
  obtain ⟨_, _, _, _, w, -, -, hw, hend⟩ := constructPins_fail s k info rfl hcalls hok hf
  have hstep : step s = .next (constructPins s) := step_atReset cfg port inbox hcount hdistinct
  rw [hend] at hstep
  exact ⟨_, hstep, rfl, rfl, rfl, rfl, hw rfl, rfl, fun _ => step_of_dead rfl (phaseOf_eq_dead_of_fault rfl nofun)⟩

/-- A failed call leaves every pin it names unwritten, whatever came before it (R181). -/
theorem Levels.read_replay_concat_fail (l : Levels) (es : List Event) {c : PinCall} (info : PortInfo) {p : PinId}
    (hp : p ∈ c.pins) : (l.replay (es ++ [.fail c info])).read p = none := by
  rw [Levels.replay_append, Levels.replay_fail, Levels.replay_nil, Levels.read_forget, if_pos hp]

/-- Settles O39: the calls of a request are those of its statements, and the failing one is the last event added. -/
theorem everyRequestStopsAtItsFailingCall : Obligations.EveryRequestStopsAtItsFailingCall := by
  intro i s n
  have hcalls : stmtsCalls (bodyOf i s) = n := (countCall_request i s s.port.tioAt).symm
  refine ⟨stopsAtFailingCall hcalls, fun k info hk hok hf => ?_⟩
  obtain ⟨t, hexec, htrace, hlvl, -⟩ := stopsAtFailingCall hcalls k info hk hok hf
  obtain ⟨pre, c, -, -, hcut, -⟩ := cutAtCall_split k info _ hk
  rw [hcut] at htrace hlvl
  refine ⟨t, c, pre, hexec, htrace.trans (List.append_assoc ..).symm, fun p hp => ?_⟩
  rw [hlvl, Levels.read_replay_concat_fail s.lvl pre info hp]

section
variable {i : Instr} {s : State}

theorem exec_fault_of_no_calls (h : stmtsCalls (bodyOf i s) = 0) : ∃ t, exec i s = .next t ∧ t.fault = s.fault :=
  ⟨_, exec_ok i s fun k hk => absurd (h ▸ hk) (Nat.not_lt_zero k), rfl⟩

theorem exec_fault_of_first_call_fails {info : PortInfo} (h : 0 < stmtsCalls (bodyOf i s))
    (hf : s.port.outcomeAt 0 = some info) : ∃ t, exec i s = .next t ∧ t.fault = .ioFailure := by
  obtain ⟨_, hexec⟩ := exec_fail i s 0 info h (fun k hk => absurd hk (Nat.not_lt_zero k)) hf
  exact ⟨_, hexec, rfl⟩

end

/-- Settles O40: the requests named are those whose statements make no call, and any other fails with its first. -/
theorem requestsThatCanFail : Obligations.RequestsThatCanFail := by
  intro i s quiet
  have hquiet : quiet = (stmtsCalls (bodyOf i s) == 0) := by
    subst quiet
    cases i
    case print text =>
      rw [bodyOf, stmtsCalls_print]
      cases text <;> rfl
    case createChar location glyph =>
      rw [bodyOf, stmtsCalls_createChar]
      exact (beq_eq_false_iff_ne.mpr (by omega)).symm
    case backlightSet value =>
      rw [bodyOf, stmtsCalls_backlight]
      cases s.cfg.pins.bl <;> rfl
    case delay | displayGet | cursorGet | blinkGet | ltrGet | rtlGet | autoscrollGet | backlightGet => rfl
    all_goals simp [bodyOf, clearBody, setDctrlBody, setEmodeBody]
  rw [hquiet]
  refine ⟨fun hnone => exec_fault_of_no_calls (beq_iff_eq.mp hnone), fun hsome info => ?_⟩
  have hcalls : 0 < stmtsCalls (bodyOf i s) := Nat.pos_of_ne_zero (beq_eq_false_iff_ne.mp hsome)
  exact exec_fault_of_first_call_fails (s := { s with port := { s.port with outcomes := [some info] } }) hcalls rfl

end Sys2Proof.Machine

/-! Reset, the spec's vectors, the zero fields of the registers (R23 to R25), and the requests that are equal to others
(R88, R200). -/

namespace Sys2Proof

/-- Settles O1: the decoder evaluated on each word. -/
theorem vectorWordsDecode : Obligations.VectorWordsDecode :=
  ⟨rfl, rfl, rfl, rfl, rfl, rfl, rfl, rfl, rfl, rfl⟩

end Sys2Proof

namespace Sys2Proof.Machine

/-- Settles O32: a reset comes before everything else a step can do. -/
theorem resetDiscardsEverything : Obligations.ResetDiscardsEverything :=
  fun _ _ => step_reset

/-- Settles O56: at reset the registers hold `dfuncOf` and zeros, and the block is not initialised. -/
theorem mirrorHoldsAtReset : Obligations.MirrorHoldsAtReset :=
  fun _ port inbox hproto => mirrorInv_atReset hproto port inbox

/-! ### The zero fields -/

theorem exec_keeps_zeroFields {i : Instr} {s t : State} (hproto : s.cfg.proto = defaultProto) (hz : s.ZeroFields)
    (h : exec i s = .next t) : t.ZeroFields := by
  rcases exec_next_cases h with rfl | ⟨k, info, l, -, rfl⟩
  · exact zeroFields_requestDone hproto hz i
  · exact { hz with }

/-- Construction writes `DCTRL` and `EMODE` to the values of R121, or stops with some of them unwritten. -/
theorem constructPins_keeps_zeroFields {s : State} (hproto : s.cfg.proto = defaultProto) (hz : s.ZeroFields)
    (hi : s.initialized = false) : (constructPins s).ZeroFields := by
  obtain ⟨hdfunc, hdctrl, hemode⟩ := hz
  have hdctrl' : initDctrl s.cfg.proto &&& 0xF8 = 0 := by rw [hproto]; rfl
  have hemode' : initEmode s.cfg.proto &&& 0xFC = 0 := by rw [hproto]; rfl
  rcases constructPins_cases s hi with ⟨-, hend⟩ | ⟨k, info, dc, em, l, p, w, -, hdc, hem, hend⟩
  all_goals rw [hend]
  · exact ⟨hdfunc, hdctrl', hemode'⟩
  · refine ⟨hdfunc, ?_, ?_⟩
    · rcases hdc with rfl | rfl
      exacts [hdctrl, hdctrl']
    · rcases hem with rfl | rfl
      exacts [hemode, hemode']

/-- Settles O57: a reset and construction put in values whose zero fields are 0, a request sets or clears flags alone,
and the other steps write no register. -/
theorem stepKeepsZeroFields : Obligations.StepKeepsZeroFields := by
  intro s t hproto hreset hz h
  cases hr : s.resetIn with
  | some cfg =>
    rw [step_reset hr, Host.Outcome.next.injEq] at h
    exact h ▸ (mirrorInv_atReset (hreset cfg hr) s.port s.inbox).zero
  | none =>
    rcases step_cases hr h with ⟨-, -, i, rest, -, hexec⟩ | ⟨-, -, -, rest, -, rfl⟩ | rfl | ⟨-, -, -, -, -, rfl⟩ |
      ⟨hi, -, -, -, -, rfl⟩
    · exact exec_keeps_zeroFields (s := s.setInbox rest) hproto { hz with } hexec
    · exact { hz with }
    · exact hz
    · exact { hz with }
    · exact constructPins_keeps_zeroFields (s := s.setDfunc (dfuncOf s.cfg)) hproto
        { hz with dfunc := dfuncOf_and hproto } hi

/-! ### Requests that are equal to others -/

/-- One `send` of a data byte: 3 queries and 6 calls of the port are used up (R103). -/
theorem answered_sendData_port (s : State) (byte : Byte) (answer : Word) :
    (s.answered (sendEvents s.cfg byte .data s.port.tioAt) answer).port = s.port.after 3 6 := by
  show s.port.after (List.countP Event.isTq _) (List.countP Event.isCall _) = _
  rw [← stmtsEvents_send, countTq_stmtsEvents, countCall_stmtsEvents, stmtsAsks_data, stmtsCalls_data]

theorem exec_print {s : State} {text : List Word} (hok : s.port.callsOk (6 * text.length)) :
    exec (.print text) s = .next (s.answered (printEvents s.cfg text s.port.tioAt) responseOk) :=
  exec_eq_answered (i := .print text) (regFree_print s.cfg text) (stmtsCalls_print s.cfg text ▸ hok)

/-- `PRINT` of one code point more is the `WRITE` of its low byte, then the rest of the text (R88, R161). -/
theorem exec_print_cons {s : State} (cp : Word) (text : List Word) (hok : s.port.callsOk (6 * (text.length + 1))) :
    ∃ t u v, exec (.write (cp.setWidth 8)) s = .next t ∧ exec (.print text) t = .next u ∧
      exec (.print (cp :: text)) s = .next v ∧ v.trace = u.trace ∧ v.lvl = u.lvl ∧ v.port = u.port := by
  obtain ⟨t, ht⟩ : ∃ t, t = s.answered (sendEvents s.cfg (cp.setWidth 8) .data s.port.tioAt) responseOk := ⟨_, rfl⟩
  have hwrite : exec (.write (cp.setWidth 8)) s = .next t :=
    ht ▸ exec_of_bodyOf_eq_send rfl rfl (Port.callsOk_mono hok (by simp))
  have hport : t.port = s.port.after 3 6 := ht ▸ answered_sendData_port s _ _
  have hrest : t.port.callsOk (6 * text.length) :=
    hport ▸ Port.callsOk_after 3 6 (Port.callsOk_mono hok (by omega))
  have hevents : printEvents s.cfg (cp :: text) s.port.tioAt =
      sendEvents s.cfg (cp.setWidth 8) .data s.port.tioAt ++ printEvents s.cfg text t.port.tioAt := by
    rw [hport, Port.tioAt_after_fun]
    rfl
  refine ⟨t, _, _, hwrite, exec_print hrest, exec_print (text := cp :: text) hok, ?_⟩
  subst ht
  refine ⟨?_, ?_, ?_⟩
  · exact (congrArg (s.trace ++ ·) hevents).trans (List.append_assoc ..).symm
  · exact (congrArg s.lvl.replay hevents).trans (Levels.replay_append ..)
  · show s.port.after (List.countP Event.isTq _) (List.countP Event.isCall _) = _
    rw [hevents, List.countP_append, List.countP_append, ← Port.after_after]
    rfl

/-- Settles O24: equal statements and answers make equal requests, the two getters answer a flag and its negation, and
`exec_print_cons`. -/
theorem requestEqualities : Obligations.RequestEqualities := by
  intro s hi
  refine ⟨fun on => exec_eq_of_bodyOf_eq hi rfl rfl, fun byte => exec_eq_of_bodyOf_eq hi rfl rfl, ?_,
    fun cp text hok => exec_print_cons cp text hok⟩
  refine ⟨getFlag s.emode s.cfg.proto.fEntryLeft, _, _, exec_of_bodyOf_eq_nil rfl, exec_of_bodyOf_eq_nil rfl, ?_, ?_⟩
  · rw [← responseFlag_eq]
    rfl
  · show s.responses ++ [responseFlag !_] = _
    rw [responseFlag_eq]
    cases getFlag s.emode s.cfg.proto.fEntryLeft <;> rfl

end Sys2Proof.Machine

/-! How many events of each kind requests and initialisation add to the trace (R110, R123). -/

namespace Sys2Proof.Machine

/-- How many events of each kind of R12 a sequence has. -/
structure Counts where
  cfg  : Nat
  wb   : Nat
  w1   : Nat
  wa   : Nat
  tq   : Nat
  sl   : Nat
  fail : Nat

/-- The counts of two sequences laid end to end (`counts_append`). -/
def Counts.add (a b : Counts) : Counts :=
  ⟨a.cfg + b.cfg, a.wb + b.wb, a.w1 + b.w1, a.wa + b.wa, a.tq + b.tq, a.sl + b.sl, a.fail + b.fail⟩

/-- The counts of a sequence, kind by kind. -/
def counts (es : List Event) : Counts :=
  ⟨es.countP Event.isCfg, es.countP Event.isWb, es.countP Event.isW1, es.countP Event.isWa, es.countP Event.isTq,
    es.countP Event.isSl, es.countP Event.isFail⟩

theorem counts_append (a b : List Event) : counts (a ++ b) = (counts a).add (counts b) := by
  simp only [counts, Counts.add, List.countP_append]

theorem counts_cons (e : Event) (es : List Event) : counts (e :: es) = (counts [e]).add (counts es) :=
  counts_append [e] es

/-- Every event is of one of the kinds, and of no other. -/
theorem length_eq_counts (es : List Event) : es.length = (counts es).cfg + (counts es).wb + (counts es).w1 +
    (counts es).wa + (counts es).tq + (counts es).sl + (counts es).fail := by
  induction es with
  | nil => rfl
  | cons e rest ih =>
    have hone : (counts [e]).cfg + (counts [e]).wb + (counts [e]).w1 + (counts [e]).wa + (counts [e]).tq +
        (counts [e]).sl + (counts [e]).fail = 1 := by
      cases e with
      | call c => cases c <;> rfl
      | tq | sl | fail => rfl
    rw [counts_cons, List.length_cons, ih]
    simp only [Counts.add]
    omega

/-! ### The counts of the procedures -/

/-- The `SL` events of a wait: one when the answer is below the floor (R100). -/
def sleepsOf (d t : Duration) : Nat := if t.us < d.us then 1 else 0

theorem counts_delay (d t : Duration) : counts (delayEvents d t) = ⟨0, 0, 0, 0, 1, sleepsOf d t, 0⟩ := by
  by_cases h : t.shorter d
  · rw [delayEvents_of_shorter h, sleepsOf, if_pos h]
    rfl
  · rw [delayEvents_of_not_shorter h, sleepsOf, if_neg h]
    rfl

section
variable (c : Config)

theorem counts_pulse (t : Duration) :
    counts (pulseEvents c t) = ⟨0, 0, 2, 0, 1, sleepsOf c.timing.tEnHold t, 0⟩ := by
  rw [pulseEvents, counts_cons, counts_append, counts_delay]
  simp [counts, Counts.add, Event.isCfg, Event.isWb, Event.isW1, Event.isWa, Event.isTq, Event.isSl, Event.isFail]

theorem counts_frame (v : Byte) (w : Nat) (mode : Mode) (t : Duration) :
    counts (frameEvents c v w mode t) = ⟨0, 1, 2, 0, 1, sleepsOf c.timing.tEnHold t, 0⟩ := by
  rw [frameEvents, counts_cons, counts_pulse]
  simp [counts, Counts.add, Event.isCfg, Event.isWb, Event.isW1, Event.isWa, Event.isTq, Event.isSl, Event.isFail]

theorem counts_send_raw4 (b : Byte) (t : Nat → Duration) : counts (sendEvents c b .raw4 t) =
    ⟨0, 1, 2, 0, 2, sleepsOf c.timing.tEnHold (t 0) + sleepsOf c.timing.tExec (t 1), 0⟩ := by
  rw [sendEvents, if_pos rfl, counts_append, counts_frame, counts_delay]
  rfl

/-- A byte is two frames and one wait (R103). -/
theorem counts_send_byte (b : Byte) (mode : Mode) (hmode : mode ≠ .raw4) (t : Nat → Duration) :
    counts (sendEvents c b mode t) = ⟨0, 2, 4, 0, 3, sleepsOf c.timing.tEnHold (t 0) +
      sleepsOf c.timing.tEnHold (t 1) + sleepsOf c.timing.tExec (t 2), 0⟩ := by
  rw [sendEvents, if_neg hmode, counts_append, counts_append, counts_frame, counts_frame, counts_delay]
  rfl

theorem counts_backlight (v : Backlight) :
    counts (backlightEvents c v) = ⟨0, 0, 0, c.pins.bl.toList.length, 0, 0, 0⟩ := by
  unfold backlightEvents
  cases c.pins.bl <;> rfl

theorem counts_configure (p : Pins) : counts (configureEvents p) =
    ⟨2 + p.rw.toList.length + p.nData + p.bl.toList.length, 0, 0, 0, 0, 0, 0⟩ := by
  have hmap : ∀ ps : List PinId, counts (ps.map fun pin => .call (.configure pin false)) =
      ⟨ps.length, 0, 0, 0, 0, 0, 0⟩ := by
    intro ps
    induction ps with
    | nil => rfl
    | cons q rest ih =>
      rw [List.map_cons, counts_cons, ih, List.length_cons, Nat.add_comm]
      rfl
  rw [configureEvents, hmap]
  simp only [List.length_cons, List.length_append, Pins.nData, Counts.mk.injEq, and_true]
  omega

/-- The counts of the initialisation sequence, but for the sleeps: four nibbles, four bytes, five waits of its own. -/
theorem counts_init (dfunc : Byte) (t : Nat → Duration) :
    ∃ sl, counts (initEvents c dfunc t) = ⟨0, 12, 24, c.pins.bl.toList.length, 25, sl, 0⟩ := by
  have hcmd := fun b t' => counts_send_byte c b .cmd nofun t'
  refine ⟨(counts (initEvents c dfunc t)).sl, ?_⟩
  simp only [initEvents, sendWaitEvents, counts_append, counts_delay, counts_send_raw4, hcmd, counts_backlight,
    Counts.add, Nat.reduceAdd, Nat.zero_add]

end

/-- A request whose events have the counts given adds so many events of each kind when no call fails. -/
theorem exec_adds_counts {i : Instr} {s : State} {calls wb w1 tq sl : Nat} (hcalls : stmtsCalls (bodyOf i s) = calls)
    (hok : s.port.callsOk calls) (hcounts : counts (requestEvents i s s.port.tioAt) = ⟨0, wb, w1, 0, tq, sl, 0⟩) :
    ∃ t es, exec i s = .next t ∧ t.trace = s.trace ++ es ∧ es.countP Event.isWb = wb ∧ es.countP Event.isW1 = w1 ∧
      es.countP Event.isTq = tq ∧ es.countP Event.isSl = sl ∧ es.length = wb + w1 + tq + sl := by
  refine ⟨_, requestEvents i s s.port.tioAt, exec_ok i s (hcalls ▸ hok), rfl, congrArg Counts.wb hcounts,
    congrArg Counts.w1 hcounts, congrArg Counts.tq hcounts, congrArg Counts.sl hcounts, ?_⟩
  rw [length_eq_counts, hcounts]
  simp

/-- Settles O15: the counts of one pulse, one frame, and one send of a nibble or of a byte. -/
theorem eventCounts : Obligations.EventCounts := by
  intro s adds below hold wait
  refine ⟨fun hok => ?_, fun value width mode hok => ?_, fun byte hok => ?_, fun byte hok => ⟨?_, ?_⟩⟩
  · exact exec_adds_counts (i := .pulse) (stmtsCalls_pulse _) hok (counts_pulse _ _)
  · exact exec_adds_counts (i := .wrBits value width mode) (stmtsCalls_writeBits _ _ _ _) hok (counts_frame _ _ _ _ _)
  · exact exec_adds_counts (i := .sendRaw4 byte) (stmtsCalls_raw4 _ _) hok (counts_send_raw4 _ _ _)
  · exact exec_adds_counts (i := .sendCmd byte) (stmtsCalls_cmd _ _) hok (counts_send_byte _ byte .cmd nofun _)
  · exact exec_adds_counts (i := .sendData byte) (stmtsCalls_data _ _) hok (counts_send_byte _ byte .data nofun _)

/-! ### The trace of initialisation -/

/-- A statement list sleeps at most once for each query. -/
theorem countSl_le_stmtsAsks (b : List Stmt) (t : Nat → Duration) :
    (stmtsEvents b t).countP Event.isSl ≤ stmtsAsks b := by
  induction b generalizing t with
  | nil => exact Nat.le_refl 0
  | cons st rest ih =>
    have hst : (st.events t).countP Event.isSl ≤ st.asks := by
      cases st with
      | delay d =>
        have hsl : (delayEvents d (t 0)).countP Event.isSl = sleepsOf d (t 0) := congrArg Counts.sl (counts_delay d _)
        rw [Stmt.events, hsl, sleepsOf]
        split
        exacts [Nat.le_refl 1, Nat.zero_le 1]
      | call | present | setDctrl | setEmode | setBlvl => exact Nat.le_refl 0
    rw [stmtsEvents, List.countP_append, stmtsAsks, List.map_cons, List.sum_cons, ← stmtsAsks]
    exact Nat.add_le_add hst (ih _)

theorem rises_configure (en : PinId) (p : Pins) : rises en (configureEvents p) = 0 := by
  unfold configureEvents
  induction p.rs :: (p.rw.toList ++ p.en :: (p.data ++ p.bl.toList)) with
  | nil => rfl
  | cons q rest ih => exact ih

/-- The initialisation sequence has 12 pulses: one for each handshake nibble and two for each byte (R123). -/
theorem rises_init (c : Config) (dfunc : Byte) (t : Nat → Duration) :
    rises c.pins.en (initEvents c dfunc t) = 12 := by
  simp only [initEvents, rises_append, rises_delay, rises_send_raw4, rises_send_cmd, rises_sendWait, rises_backlight]

/-- Settles O36: the pin set-up and the initialisation sequence are the whole trace, and none of its frames carries
data. -/
theorem initialisationTraceShape : Obligations.InitialisationTraceShape := by
  intro cfg port inbox hcount hdistinct hok
  refine ⟨_, initialisationCompletes cfg port inbox hcount hdistinct hok, ?_⟩
  intro es
  have hes : es = configureEvents cfg.pins ++ initEvents cfg (dfuncOf cfg) port.tioAt := rfl
  clear_value es
  obtain ⟨sl, hinit⟩ := counts_init cfg (dfuncOf cfg) port.tioAt
  have hcounts : counts es = ⟨2 + cfg.pins.rw.toList.length + cfg.pins.nData + cfg.pins.bl.toList.length, 12, 24,
      cfg.pins.bl.toList.length, 25, sl, 0⟩ := by
    rw [hes, counts_append, counts_configure, hinit]
    simp [Counts.add]
  have hsl : es.countP Event.isSl ≤ 25 := by
    rw [hes, ← stmtsEvents_construct]
    exact (countSl_le_stmtsAsks _ _).trans_eq (by simp [constructBody])
  have hrises : rises cfg.pins.en es = 12 := by rw [hes, rises_append, rises_configure, rises_init]
  refine ⟨congrArg Counts.cfg hcounts, congrArg Counts.wb hcounts, congrArg Counts.w1 hcounts,
    congrArg Counts.tq hcounts, hsl, congrArg Counts.wa hcounts, congrArg Counts.fail hcounts, hrises,
    fun m hm => ?_⟩
  obtain ⟨v, mode, hmode, rfl⟩ := bulk_mem_construct (hes ▸ hm)
  rw [read_frameMap_rs hdistinct]
  cases mode with
  | raw4 | cmd => rfl
  | data => exact absurd rfl hmode

end Sys2Proof.Machine

/-! The levels that initialisation leaves on the pins (R35): those of its last frame, the low nibble of the entry-mode
byte, on every pin that frames drive, and none on any other but `EN`. -/

namespace Sys2Proof.Machine

/-! ### The level of a pin other than `EN` along a sequence -/

theorem levelAfter_configureEvents (p : PinId) (l : Option Bool) (pins : Pins) :
    levelAfter p l (configureEvents pins) = l := by
  unfold configureEvents
  induction pins.rs :: (pins.rw.toList ++ pins.en :: (pins.data ++ pins.bl.toList)) with
  | nil => rfl
  | cons q rest ih => exact ih

/-- The backlight is no pin of `LVL`: an analog write moves the level of no pin at all. -/
theorem levelAfter_backlightEvents (p : PinId) (l : Option Bool) (c : Config) (v : Backlight) :
    levelAfter p l (backlightEvents c v) = l := by
  unfold backlightEvents
  cases c.pins.bl <;> rfl

section
variable {c : Config} {p : PinId} (hp : p ≠ c.pins.en)
include hp

/-- A pulse moves no pin but `EN` (R101). -/
theorem levelAfter_pulse_of_ne (l : Option Bool) (t : Duration) : levelAfter p l (pulseEvents c t) = l := by
  have hcons : pulseEvents c t = [.call (.write c.pins.en true)] ++ (delayEvents c.timing.tEnHold t ++
    [.call (.write c.pins.en false)]) := rfl
  have hwrite : ∀ l v, levelAfter p l [.call (.write c.pins.en v)] = l := fun l v => if_neg hp.symm
  rw [hcons, levelAfter_append, levelAfter_append, levelAfter_delay, hwrite, hwrite]

/-- A frame leaves the level of its bulk write, where that names the pin. -/
theorem levelAfter_frame_of_ne (l : Option Bool) (v : Byte) (w : Nat) (mode : Mode) (t : Duration) :
    levelAfter p l (frameEvents c v w mode t) = ((frameMap c.pins v w mode).read p).or l := by
  have hbulk : ∀ m : Levels, levelStep p l (.call (.bulk m)) = (m.read p).or l := fun m => by
    rw [levelStep]
    cases m.read p <;> rfl
  rw [← hbulk]
  exact levelAfter_pulse_of_ne hp _ t

/-- A send leaves the level of its last frame, the low nibble's (R103). -/
theorem levelAfter_send_of_driven {b : Byte} {mode : Mode} {v : Bool}
    (h : (frameMap c.pins (b &&& 0x0F) 4 mode).read p = some v) (l : Option Bool) (t : Nat → Duration) :
    levelAfter p l (sendEvents c b mode t) = some v := by
  unfold sendEvents
  split <;> rw [levelAfter_append, levelAfter_delay]
  · rw [levelAfter_frame_of_ne hp, h, Option.some_or]
  · rw [levelAfter_append, levelAfter_frame_of_ne hp, h, Option.some_or]

theorem levelAfter_send_of_undriven {b : Byte} {mode : Mode} (h : ∀ v, (frameMap c.pins v 4 mode).read p = none)
    (l : Option Bool) (t : Nat → Duration) : levelAfter p l (sendEvents c b mode t) = l := by
  unfold sendEvents
  split <;> simp only [levelAfter_append, levelAfter_delay, levelAfter_frame_of_ne hp, h, Option.none_or]

/-- Step 7 of R121 sends the last byte of the initialisation sequence. -/
theorem levelAfter_init_of_driven {v : Bool}
    (h : (frameMap c.pins ((c.proto.cmdEntryModeSet ||| c.proto.fEntryLeft) &&& 0x0F) 4 .cmd).read p = some v)
    (l : Option Bool) (dfunc : Byte) (t : Nat → Duration) : levelAfter p l (initEvents c dfunc t) = some v := by
  rw [initEvents, levelAfter_append, levelAfter_backlightEvents, levelAfter_append, levelAfter_send_of_driven hp h]

theorem levelAfter_init_of_undriven (h : ∀ v mode, (frameMap c.pins v 4 mode).read p = none) (l : Option Bool)
    (dfunc : Byte) (t : Nat → Duration) : levelAfter p l (initEvents c dfunc t) = l := by
  simp only [initEvents, sendWaitEvents, levelAfter_append, levelAfter_delay, levelAfter_backlightEvents,
    levelAfter_send_of_undriven hp (h · _)]

end

/-! ### The levels after initialisation -/

theorem read_replay_construct (p : PinId) (c : Config) (dfunc : Byte) (t : Nat → Duration) :
    (Levels.replay [] (configureEvents c.pins ++ initEvents c dfunc t)).read p =
      levelAfter p none (initEvents c dfunc t) := by
  have hwf : ∀ m, .call (.bulk m) ∈ configureEvents c.pins ++ initEvents c dfunc t → m.wf := fun m hm => by
    obtain ⟨v, mode, -, rfl⟩ := bulk_mem_construct hm
    exact frameMap_wf _ _ _ _
  rw [Levels.read_replay p [] _ hwf]
  show levelAfter p none _ = _
  rw [levelAfter_append, levelAfter_configureEvents]

/-- The bits of the low nibble of the last byte, 0x06, with the default constants. -/
theorem getLsbD_lastInitNibble : ∀ i < 4,
    ((defaultProto.cmdEntryModeSet ||| defaultProto.fEntryLeft) &&& 0x0F).getLsbD i = (i == 1 || i == 2) := by
  decide

/-- Settles O37: the state is that of `initialisationCompletes`; RS, RW and D0 to D3 hold what the last frame writes to
them, and no frame drives a data pin above. -/
theorem valuesAfterInitialisation : Obligations.ValuesAfterInitialisation := by
  intro cfg port inbox hproto hcount hdistinct hok
  have hframe := fun v mode => bulkWriteCarriesTheFrame cfg.pins v 4 mode hdistinct
  have hen := en_not_mem hdistinct
  simp only [List.mem_cons, List.mem_append, Option.mem_toList, not_or] at hen
  obtain ⟨henrs, henrw, hendata⟩ := hen
  obtain ⟨-, hrs, hrw, hdata, -⟩ := hframe ((cfg.proto.cmdEntryModeSet ||| cfg.proto.fEntryLeft) &&& 0x0F) .cmd
  have hread := fun p => read_replay_construct p cfg (dfuncOf cfg) port.tioAt
  refine ⟨_, initialisationCompletes cfg port inbox hcount hdistinct hok, ?_, ?_, rfl, ?_, ?_, fun rw hpin => ?_,
    fun i pin hpin => ?_, rfl, rfl, rfl⟩
  · show initDctrl cfg.proto = _
    rw [hproto]
    rfl
  · show initEmode cfg.proto = _
    rw [hproto]
    rfl
  · exact (hread _).trans (levelAfter_init cfg none _ _)
  · exact (hread _).trans (levelAfter_init_of_driven (Ne.symm henrs) hrs _ _ _)
  · exact (hread _).trans (levelAfter_init_of_driven (fun heq => henrw (heq ▸ hpin)) (hrw rw hpin) _ _ _)
  · have hne : pin ≠ cfg.pins.en := fun heq => hendata (heq ▸ List.mem_of_getElem? hpin)
    refine (hread _).trans ?_
    split
    next hi =>
      refine levelAfter_init_of_driven hne ((hdata i pin hpin).trans ?_) _ _ _
      rw [if_pos hi, hproto, getLsbD_lastInitNibble i hi]
    next hi =>
      refine levelAfter_init_of_undriven hne (fun v mode => ?_) _ _ _
      obtain ⟨-, -, -, hdata, -⟩ := hframe v mode
      rw [hdata i pin hpin, if_neg hi]

end Sys2Proof.Machine

/-! The time that requests and initialisation sleep with every answer of `Tio()` 0: the sum of their floors (R213). -/

namespace Sys2Proof.Machine

/-! ### Floors -/

/-- The floor of a statement, in microseconds: that of a wait (R100). -/
def Stmt.floorUs : Stmt → Rat
  | .delay d => d.us
  | .call _ | .present _ | .setDctrl _ | .setEmode _ | .setBlvl _ => 0

/-- The sum of the floors of a statement list. -/
def floorsUs (b : List Stmt) : Rat := (b.map Stmt.floorUs).sum

theorem floorsUs_append (a b : List Stmt) : floorsUs (a ++ b) = floorsUs a + floorsUs b := by
  simp [floorsUs]

theorem floorsUs_delay (d : Duration) : floorsUs [.delay d] = d.us := by
  simp [floorsUs, Stmt.floorUs]

theorem floorsUs_setDctrl (v : Byte) : floorsUs [.setDctrl v] = 0 := by
  simp [floorsUs, Stmt.floorUs]

theorem floorsUs_setEmode (v : Byte) : floorsUs [.setEmode v] = 0 := by
  simp [floorsUs, Stmt.floorUs]

theorem sleptUs_append (a b : List Event) : sleptUs (a ++ b) = sleptUs a + sleptUs b := by
  simp [sleptUs]

/-- With every answer 0 a statement list sleeps the sum of its floors. -/
theorem sleptUs_stmtsEvents {b : List Stmt} {t : Nat → Duration} (h : ∀ k < stmtsAsks b, t k = .ofUs 0) :
    sleptUs (stmtsEvents b t) = floorsUs b := by
  induction b generalizing t with
  | nil => rfl
  | cons st rest ih =>
    have hasks : stmtsAsks (st :: rest) = st.asks + stmtsAsks rest := by simp [stmtsAsks]
    have hst : sleptUs (st.events t) = st.floorUs := by
      cases st with
      | delay d =>
        have hzero : (t 0).us = 0 := by rw [h 0 (by rw [hasks]; exact Nat.lt_add_right _ Nat.one_pos)]; rfl
        rw [Stmt.events, sleptUs_delay, hzero, sub_zero, max_eq_right d.nonneg, Stmt.floorUs]
      | call | present | setDctrl | setEmode | setBlvl => simp [Stmt.events, sleptUs, Stmt.floorUs]
    rw [stmtsEvents, sleptUs_append, hst, ih fun k hk => h _ (by omega)]
    simp [floorsUs]

/-- A request of the statements `b`, none of whose calls fails, sleeps the sum of their floors when every answer is
0. -/
theorem exec_sleeps_floors {i : Instr} {s : State} {b : List Stmt} {asks calls : Nat} {us : Rat}
    (hbody : bodyOf i s = b) (hasks : stmtsAsks b = asks) (hcalls : stmtsCalls b = calls) (hfloors : floorsUs b = us)
    (hzero : ∀ k < asks, s.port.tioAt k = .ofUs 0) (hok : s.port.callsOk calls) :
    ∃ t es, exec i s = .next t ∧ t.trace = s.trace ++ es ∧ sleptUs es = us := by
  subst hbody hasks hcalls hfloors
  refine ⟨_, requestEvents i s s.port.tioAt, exec_ok i s hok, rfl, ?_⟩
  rw [← stmtsEvents_bodyOf, sleptUs_stmtsEvents hzero]

/-! ### The floors of the procedures -/

section
variable (c : Config)

theorem floorsUs_pulse : floorsUs (pulseEnable c) = c.timing.tEnHold.us := by
  simp [floorsUs, pulseEnable, Stmt.floorUs]

theorem floorsUs_writeBits (v : Byte) (w : Nat) (mode : Mode) :
    floorsUs (writeBits c v w mode) = c.timing.tEnHold.us := by
  rw [← floorsUs_pulse c]
  simp [floorsUs, writeBits, Stmt.floorUs]

theorem floorsUs_send_raw4 (b : Byte) :
    floorsUs (send c b .raw4) = c.timing.tEnHold.us + c.timing.tExec.us := by
  simp only [send, floorsUs_append, floorsUs_writeBits, floorsUs_delay]

theorem floorsUs_send_byte (b : Byte) (mode : Mode) (hmode : mode ≠ .raw4) :
    floorsUs (send c b mode) = c.timing.tEnHold.us + c.timing.tEnHold.us + c.timing.tExec.us := by
  cases mode with
  | raw4 => exact absurd rfl hmode
  | cmd | data => simp only [send, floorsUs_append, floorsUs_writeBits, floorsUs_delay]

theorem floorsUs_configure (p : Pins) : floorsUs (configureBody p) = 0 := by
  unfold configureBody
  induction p.rs :: (p.rw.toList ++ p.en :: (p.data ++ p.bl.toList)) with
  | nil => rfl
  | cons q rest ih => simpa [floorsUs, Stmt.floorUs] using ih

theorem floorsUs_backlight (v : Backlight) : floorsUs (backlightBody c v) = 0 := by
  unfold backlightBody
  cases c.pins.bl <;> simp [floorsUs, Stmt.floorUs]

theorem stmtsAsks_sendWait (b : Byte) (d : Duration) : stmtsAsks (send c b .cmd ++ [.delay d]) = 4 := by
  rw [stmtsAsks_append, stmtsAsks_cmd, stmtsAsks_delay]

theorem stmtsCalls_sendWait (b : Byte) (d : Duration) : stmtsCalls (send c b .cmd ++ [.delay d]) = 6 := by
  rw [stmtsCalls_append, stmtsCalls_cmd, stmtsCalls_delay]

theorem floorsUs_glyph (glyph : List Word) :
    floorsUs (glyph.flatMap fun g => send c (lowByte g) .data ++ [.delay c.timing.tCgData]) =
      glyph.length * (c.timing.tEnHold.us + c.timing.tEnHold.us + c.timing.tExec.us + c.timing.tCgData.us) := by
  induction glyph with
  | nil => simp [floorsUs]
  | cons g rest ih =>
    rw [List.flatMap_cons, floorsUs_append, ih, floorsUs_append, floorsUs_send_byte c _ .data nofun,
      floorsUs_delay, List.length_cons, Nat.cast_succ]
    ring

theorem stmtsAsks_glyph (glyph : List Word) :
    stmtsAsks (glyph.flatMap fun g => send c (lowByte g) .data ++ [.delay c.timing.tCgData]) = 4 * glyph.length := by
  induction glyph with
  | nil => rfl
  | cons g rest ih =>
    rw [List.flatMap_cons, stmtsAsks_append, ih, stmtsAsks_append, stmtsAsks_data, stmtsAsks_delay, List.length_cons]
    omega

theorem stmtsAsks_createChar (location : Byte) (glyph : List Word) :
    stmtsAsks (createCharBody c location glyph) = 4 + 4 * min glyph.length c.proto.glyphMax := by
  rw [createCharBody, stmtsAsks_append, stmtsAsks_append, stmtsAsks_cmd, stmtsAsks_delay, stmtsAsks_glyph,
    List.length_take, Nat.min_comm]

end

/-! ### The document's figures (R6) -/

section
variable {c : Config} {t3 : Duration} (h : c.timing = { documentTiming with tInit3 := t3 })
include h

theorem floorsUs_pulse_document : floorsUs (pulseEnable c) = 1 := by
  rw [floorsUs_pulse, h]
  norm_num [documentTiming, Duration.ofUs]

theorem floorsUs_send_raw4_document (b : Byte) : floorsUs (send c b .raw4) = 38 := by
  rw [floorsUs_send_raw4, h]
  norm_num [documentTiming, Duration.ofUs]

theorem floorsUs_send_byte_document (b : Byte) (mode : Mode) (hmode : mode ≠ .raw4) :
    floorsUs (send c b mode) = 39 := by
  rw [floorsUs_send_byte c b mode hmode, h]
  norm_num [documentTiming, Duration.ofUs]

/-- `CLEAR` and `HOME` are a command byte and the long wait (R130, R131). -/
theorem floorsUs_sendWait_document (b : Byte) :
    floorsUs (send c b .cmd ++ [.delay c.timing.tHomeClear]) = 2039 := by
  rw [floorsUs_append, floorsUs_send_byte_document h b .cmd nofun, floorsUs_delay, h]
  norm_num [documentTiming, Duration.ofUs]

theorem floorsUs_createChar_document (location : Byte) {glyph : List Word} (hglyph : glyph.length = 8)
    (hmax : c.proto.glyphMax = 8) : floorsUs (createCharBody c location glyph) = 701 := by
  rw [createCharBody, floorsUs_append, floorsUs_append, floorsUs_send_byte_document h _ .cmd nofun,
    floorsUs_delay, floorsUs_glyph, List.length_take, hmax, hglyph, h]
  norm_num [documentTiming, Duration.ofUs]

theorem floorsUs_construct_document (dfunc : Byte) : floorsUs (constructBody c dfunc) = 106958 + t3.us := by
  simp only [constructBody, initBody, handshakeBody, setupBody, clearBody, floorsUs_append, floorsUs_configure,
    floorsUs_backlight, floorsUs_send_raw4_document h, floorsUs_send_byte_document h _ .cmd nofun,
    floorsUs_delay, floorsUs_setDctrl, floorsUs_setEmode, h, documentTiming, Duration.ofUs]
  ring

end

/-- Settles O48: with every answer 0 what is slept is the sum of the floors, and these are the document's figures. -/
theorem sumsOfFloors : Obligations.SumsOfFloors := by
  refine ⟨fun s t3 htiming hmax => ?_, fun cfg port inbox t3 htiming hcount hdistinct hzero hok => ?_⟩
  · intro quick sleeps
    refine ⟨fun ⟨hzero, hok⟩ => ?_, fun byte ⟨hzero, hok⟩ => ⟨?_, ?_⟩, fun ⟨hzero, hok⟩ => ⟨?_, ?_⟩,
      fun location glyph hglyph ⟨hzero, hok⟩ => ?_⟩
    · exact exec_sleeps_floors rfl (stmtsAsks_pulse _) (stmtsCalls_pulse _) (floorsUs_pulse_document htiming) hzero hok
    · exact exec_sleeps_floors rfl (stmtsAsks_cmd _ _) (stmtsCalls_cmd _ _)
        (floorsUs_send_byte_document htiming byte .cmd nofun) hzero hok
    · exact exec_sleeps_floors rfl (stmtsAsks_data _ _) (stmtsCalls_data _ _)
        (floorsUs_send_byte_document htiming byte .data nofun) hzero hok
    · exact exec_sleeps_floors rfl (stmtsAsks_sendWait _ _ _) (stmtsCalls_sendWait _ _ _)
        (floorsUs_sendWait_document htiming _) hzero hok
    · exact exec_sleeps_floors rfl (stmtsAsks_sendWait _ _ _) (stmtsCalls_sendWait _ _ _)
        (floorsUs_sendWait_document htiming _) hzero hok
    · have hmin : min glyph.length s.cfg.proto.glyphMax = 8 := by rw [hglyph, hmax, Nat.min_self]
      have hasks : stmtsAsks (createCharBody s.cfg location glyph) = 36 := by rw [stmtsAsks_createChar, hmin]
      have hcalls : stmtsCalls (createCharBody s.cfg location glyph) = 54 := by rw [stmtsCalls_createChar, hmin]
      exact exec_sleeps_floors rfl hasks hcalls (floorsUs_createChar_document htiming location hglyph hmax) hzero hok
  · refine ⟨_, initialisationCompletes cfg port inbox hcount hdistinct hok, ?_⟩
    have hasks : stmtsAsks (constructBody cfg (dfuncOf cfg)) = 25 := by simp [constructBody]
    show sleptUs (configureEvents cfg.pins ++ initEvents cfg (dfuncOf cfg) port.tioAt) = _
    rw [← stmtsEvents_construct, sleptUs_stmtsEvents (hasks.symm ▸ hzero), floorsUs_construct_document htiming]

end Sys2Proof.Machine
